-- ==== Sys2Proof/Word.lean ====
section
/-!
DEFINITION. The word types of the machine (spec/00_scope.md rules R6, R7; spec/20_memory.md rule R68): a byte is 8 bits,
an instruction word 32, a register and an address 64, a Condition Register field 4. Nothing is computed here.
-/
namespace Sys2Proof

/-- One byte of storage (R43, R68). -/
abbrev Byte := BitVec 8

/-- One instruction word (R100). -/
abbrev IWord := BitVec 32

/-- The contents of a register: a doubleword (R6, R20, R68). -/
abbrev DWord := BitVec 64

/-- An effective address, before and after the 32-bit-mode truncation of R61. -/
abbrev Addr := BitVec 64

/-- A general-register number, the value of a 5-bit field RA, RB, RS, RT, RTp or RSp (R12, R20). -/
abbrev RegNum := BitVec 5

/-- The number of one bit of the Condition Register, the value of a field BT, BA, BB or BI (R25). -/
abbrev CrBitNum := BitVec 5

/-- The number of one field of the Condition Register, the value of a field BF (R25). -/
abbrev CrFieldNum := BitVec 3

end Sys2Proof
end

