-- ==== Sys2Proof/Syntax.lean ====
section
/-!
DEFINITION. The instructions, one constructor per row of spec/opcode_table.json in the table's order (spec/00_scope.md
rule R4, spec/30_encoding.md rule R116). An operand has the width of its encoded field (R115); a one-bit field is a
Bool, true for 1. The operands stand in the order of the encoding, so RS comes before RA.
-/
namespace Sys2Proof

/-- An instruction of the table. -/
inductive Instr where
  /-- Convert Declets To Binary Coded Decimal (R142). -/
  | cdtbcd (rs ra : RegNum)
  /-- Convert Binary Coded Decimal To Declets (R143). -/
  | cbcdtd (rs ra : RegNum)
  /-- Add and Generate Sixes (R144). -/
  | addg6s (rt ra rb : RegNum)
  /-- Branch (R152). -/
  | b (li : BitVec 24) (aa lk : Bool)
  /-- Branch Conditional (R155). -/
  | bc (bo : BitVec 5) (bi : CrBitNum) (bd : BitVec 14) (aa lk : Bool)
  /-- Branch Conditional to Link Register (R156). -/
  | bclr (bo : BitVec 5) (bi : CrBitNum) (bh : BitVec 2) (lk : Bool)
  /-- Branch Conditional to Count Register (R157). -/
  | bcctr (bo : BitVec 5) (bi : CrBitNum) (bh : BitVec 2) (lk : Bool)
  /-- Branch Conditional to Branch Target Address Register (R158). -/
  | bctar (bo : BitVec 5) (bi : CrBitNum) (bh : BitVec 2) (lk : Bool)
  /-- Compare Immediate (R166). -/
  | cmpi (bf : CrFieldNum) (l : Bool) (ra : RegNum) (si : BitVec 16)
  /-- Compare (R167). -/
  | cmp (bf : CrFieldNum) (l : Bool) (ra rb : RegNum)
  /-- Compare Logical Immediate (R168). -/
  | cmpli (bf : CrFieldNum) (l : Bool) (ra : RegNum) (ui : BitVec 16)
  /-- Compare Logical (R169). -/
  | cmpl (bf : CrFieldNum) (l : Bool) (ra rb : RegNum)
  /-- Condition Register AND (R176). -/
  | crand (bt ba bb : CrBitNum)
  /-- Add Immediate (R181). -/
  | addi (rt ra : RegNum) (si : BitVec 16)
  /-- Load Byte and Zero Caching Inhibited Indexed (R186). -/
  | lbzcix (rt ra rb : RegNum)
  /-- Load Byte and Zero (R192). -/
  | lbz (rt ra : RegNum) (d : BitVec 16)
  /-- Load Quadword (R194). -/
  | lq (rtp ra : RegNum) (dq : BitVec 12)
  /-- Load Halfword Byte-Reverse Indexed (R196). -/
  | lhbrx (rt ra rb : RegNum)
  /-- Load Word Byte-Reverse Indexed (R197). -/
  | lwbrx (rt ra rb : RegNum)
  /-- Load Doubleword Byte-Reverse Indexed (R198). -/
  | ldbrx (rt ra rb : RegNum)
  /-- Load Multiple Word (R200). -/
  | lmw (rt ra : RegNum) (d : BitVec 16)
  /-- AND Immediate, always recording (R212); the table's `andi.`. -/
  | andiRc (rs ra : RegNum) (ui : BitVec 16)
  /-- AND Immediate Shifted, always recording (R213); the table's `andis.`. -/
  | andisRc (rs ra : RegNum) (ui : BitVec 16)
  /-- Rotate Left Word Immediate then AND with Mask (R223). -/
  | rlwinm (rs ra : RegNum) (sh mb me : BitVec 5) (rc : Bool)
  /-- Shift Left Word (R225). -/
  | slw (rs ra rb : RegNum) (rc : Bool)
  /-- Store Byte (R232). -/
  | stb (rs ra : RegNum) (d : BitVec 16)
  /-- Store Doubleword (R234). -/
  | std (rs ra : RegNum) (ds : BitVec 14)
  /-- Store Quadword (R236). -/
  | stq (rsp ra : RegNum) (ds : BitVec 14)
  /-- Store Halfword Byte-Reverse Indexed (R238). -/
  | sthbrx (rs ra rb : RegNum)
  /-- Store Word Byte-Reverse Indexed (R239). -/
  | stwbrx (rs ra rb : RegNum)
  /-- Store Doubleword Byte-Reverse Indexed (R240). -/
  | stdbrx (rs ra rb : RegNum)
  /-- Store Multiple Word (R242). -/
  | stmw (rs ra : RegNum) (d : BitVec 16)
  /-- Trap Word Immediate (R251); `trapOn` is the field TO. -/
  | twi (trapOn : BitVec 5) (ra : RegNum) (si : BitVec 16)
  /-- Move To Special Purpose Register (R262); `n` is the SPR number, its two halves already put in order (R111). -/
  | mtspr (rs : RegNum) (n : BitVec 10)
  /-- Move From Special Purpose Register (R263); `n` as for `mtspr`. -/
  | mfspr (rt : RegNum) (n : BitVec 10)
  /-- Move to CR from XER Extended (R265). -/
  | mcrxrx (bf : CrFieldNum)
  /-- Move To Machine State Register (R267). -/
  | mtmsr (rs : RegNum) (l : Bool)
  /-- Data Cache Block set to Zero (R269). -/
  | dcbz (ra rb : RegNum)
  /-- TLB Invalidate Entry (R271). -/
  | tlbie (rs : RegNum) (ric : BitVec 2) (prs r : Bool) (rb : RegNum)
  /-- TLB Invalidate Entry Local (R272). -/
  | tlbiel (rs : RegNum) (ric : BitVec 2) (prs r : Bool) (rb : RegNum)
  /-- TLB Synchronize (R273). -/
  | tlbsync
  /-- Load String Word Immediate (R286). -/
  | lswi (rt ra : RegNum) (nb : BitVec 5)
  /-- System Call (R291). -/
  | sc (lev : BitVec 7)
  /-- setvl: named by the source, with no operand, no encoding and no meaning (R114, R256). -/
  | setvl
  deriving DecidableEq, Repr

end Sys2Proof
end

