-- ==== Sys2Proof/WellFormed.lean ====
section
/-!
DEFINITION. Which terms of Instr stand for an instruction word. Every operand already has its field's width, so the one
thing left to check is that the row has an encoding at all (spec/30_encoding.md rules R114, R116). An invalid form
(R120) is well formed: it decodes, and its meaning refuses it.
-/
namespace Sys2Proof

/-- The row of the table has a match and a mask. Every row has but `setvl` (R114, R116, R256). -/
def Instr.hasEncoding : Instr → Bool
  | .setvl => false
  | _ => true

/-- A well-formed instruction: one that some instruction word stands for. -/
abbrev Instr.WellFormed (i : Instr) : Prop := i.hasEncoding = true

end Sys2Proof
end

