-- ==== Sys2Proof/Decode.lean ====
section
/-!
DEFINITION. The decoder and the encoder, from spec/30_encoding.md rules R100 to R119. Slices are written with bit 0 as
the least significant bit, as R8 does: instruction bits a:b are w[31-a:31-b].
-/
namespace Sys2Proof

/-! ### Slices of an instruction word -/

/-- The primary opcode, instruction bits 0:5 (R102). -/
def IWord.po (w : IWord) : BitVec 6 := w.extractLsb' 26 6
/-- Instruction bits 6:10: RT, RS, BO, BT, TO, or BF with L. -/
def IWord.f6 (w : IWord) : BitVec 5 := w.extractLsb' 21 5
/-- Instruction bits 11:15: RA, BI, BA. -/
def IWord.f11 (w : IWord) : BitVec 5 := w.extractLsb' 16 5
/-- Instruction bits 16:20: RB, BB, SH, NB. -/
def IWord.f16 (w : IWord) : BitVec 5 := w.extractLsb' 11 5
/-- Instruction bits 21:30: the extended opcode of the X, XL and XFX forms. -/
def IWord.xo (w : IWord) : BitVec 10 := w.extractLsb' 1 10
/-- Instruction bit 31: Rc, LK or reserved. -/
def IWord.b31 (w : IWord) : Bool := w.getLsbD 0
/-- Instruction bit 30: AA. -/
def IWord.b30 (w : IWord) : Bool := w.getLsbD 1
/-- Instruction bits 16:31: a D-form immediate. -/
def IWord.imm16 (w : IWord) : BitVec 16 := w.extractLsb' 0 16
/-- Instruction bits 16:29: BD or DS. -/
def IWord.imm14 (w : IWord) : BitVec 14 := w.extractLsb' 2 14
/-- Instruction bits 30:31: the extended opcode of the DS form. -/
def IWord.xo2 (w : IWord) : BitVec 2 := w.extractLsb' 0 2
/-- Instruction bits 16:27: DQ. -/
def IWord.imm12 (w : IWord) : BitVec 12 := w.extractLsb' 4 12
/-- Instruction bits 28:31, reserved in the DQ form. -/
def IWord.low4 (w : IWord) : BitVec 4 := w.extractLsb' 0 4
/-- Instruction bits 6:29: LI. -/
def IWord.imm24 (w : IWord) : BitVec 24 := w.extractLsb' 2 24
/-- Instruction bits 21:25: MB. -/
def IWord.mb (w : IWord) : BitVec 5 := w.extractLsb' 6 5
/-- Instruction bits 26:30: ME. -/
def IWord.me (w : IWord) : BitVec 5 := w.extractLsb' 1 5
/-- Instruction bits 6:19, reserved in the SC form. -/
def IWord.sc6 (w : IWord) : BitVec 14 := w.extractLsb' 12 14
/-- Instruction bits 20:26: LEV. -/
def IWord.lev (w : IWord) : BitVec 7 := w.extractLsb' 5 7
/-- Instruction bits 27:31 of the SC form: three reserved bits, a 1 and a reserved bit. -/
def IWord.sc27 (w : IWord) : BitVec 5 := w.extractLsb' 0 5

/-- BF, the first three bits of instruction bits 6:10 (R106). -/
def bfOf (f : BitVec 5) : CrFieldNum := f.extractLsb' 2 3
/-- The reserved bit 9 of a compare. -/
def bit9Of (f : BitVec 5) : Bool := f.getLsbD 1
/-- L of a compare, instruction bit 10. -/
def lOf (f : BitVec 5) : Bool := f.getLsbD 0
/-- The reserved bits 9:10 of `mcrxrx`. -/
def bits9to10Of (f : BitVec 5) : BitVec 2 := f.extractLsb' 0 2
/-- The reserved bits 16:18 of a branch to a register (R105). -/
def bhResOf (f : BitVec 5) : BitVec 3 := f.extractLsb' 2 3
/-- BH, instruction bits 19:20 (R105). -/
def bhOf (f : BitVec 5) : BitVec 2 := f.extractLsb' 0 2
/-- The reserved bits 11:14 of `mtmsr`. -/
def bits11to14Of (f : BitVec 5) : BitVec 4 := f.extractLsb' 1 4
/-- L of `mtmsr`, instruction bit 15. -/
def bit15Of (f : BitVec 5) : Bool := f.getLsbD 0
/-- The reserved bit 11 of `tlbie` and `tlbiel`. -/
def bit11Of (f : BitVec 5) : Bool := f.getLsbD 4
/-- RIC, instruction bits 12:13. -/
def ricOf (f : BitVec 5) : BitVec 2 := f.extractLsb' 2 2
/-- PRS, instruction bit 14. -/
def prsOf (f : BitVec 5) : Bool := f.getLsbD 1
/-- R, instruction bit 15. -/
def rOf (f : BitVec 5) : Bool := f.getLsbD 0

/-- The SPR number: instruction bits 16:20 are its high-order half, bits 11:15 its low-order half (R111). -/
def sprNum (f11 f16 : BitVec 5) : BitVec 10 := f16 ++ f11
/-- The half of an SPR number that stands in instruction bits 11:15. -/
def sprLow (n : BitVec 10) : BitVec 5 := n.extractLsb' 0 5
/-- The half of an SPR number that stands in instruction bits 16:20. -/
def sprHigh (n : BitVec 10) : BitVec 5 := n.extractLsb' 5 5

/-! ### Decoding -/

/-- Primary opcode 19, the XL form (R105, R117). -/
def decodeXL (w : IWord) : Option Instr :=
  match w.xo.toNat with
  | 16 => if bhResOf w.f16 = 0 then some (.bclr w.f6 w.f11 (bhOf w.f16) w.b31) else none
  | 257 => if w.b31 = false then some (.crand w.f6 w.f11 w.f16) else none
  | 528 => if bhResOf w.f16 = 0 then some (.bcctr w.f6 w.f11 (bhOf w.f16) w.b31) else none
  | 560 => if bhResOf w.f16 = 0 then some (.bctar w.f6 w.f11 (bhOf w.f16) w.b31) else none
  | _ => none

/-- Primary opcode 31 with instruction bit 31 reserved and found zero: the X, XO and XFX forms (R109, R110, R111, R117).
`addg6s`, whose bit 21 is reserved, is the ten-bit pattern 74. -/
def decodeX (w : IWord) : Option Instr :=
  match w.xo.toNat with
  | 0 => if bit9Of w.f6 = false then some (.cmp (bfOf w.f6) (lOf w.f6) w.f11 w.f16) else none
  | 32 => if bit9Of w.f6 = false then some (.cmpl (bfOf w.f6) (lOf w.f6) w.f11 w.f16) else none
  | 74 => some (.addg6s w.f6 w.f11 w.f16)
  | 146 => if bits11to14Of w.f11 = 0 ∧ w.f16 = 0 then some (.mtmsr w.f6 (bit15Of w.f11)) else none
  | 274 => if bit11Of w.f11 = false then some (.tlbiel w.f6 (ricOf w.f11) (prsOf w.f11) (rOf w.f11) w.f16) else none
  | 282 => if w.f16 = 0 then some (.cdtbcd w.f6 w.f11) else none
  | 306 => if bit11Of w.f11 = false then some (.tlbie w.f6 (ricOf w.f11) (prsOf w.f11) (rOf w.f11) w.f16) else none
  | 314 => if w.f16 = 0 then some (.cbcdtd w.f6 w.f11) else none
  | 339 => some (.mfspr w.f6 (sprNum w.f11 w.f16))
  | 467 => some (.mtspr w.f6 (sprNum w.f11 w.f16))
  | 532 => some (.ldbrx w.f6 w.f11 w.f16)
  | 534 => some (.lwbrx w.f6 w.f11 w.f16)
  | 566 => if w.f6 = 0 ∧ w.f11 = 0 ∧ w.f16 = 0 then some .tlbsync else none
  | 576 => if bits9to10Of w.f6 = 0 ∧ w.f11 = 0 ∧ w.f16 = 0 then some (.mcrxrx (bfOf w.f6)) else none
  | 597 => some (.lswi w.f6 w.f11 w.f16)
  | 660 => some (.stdbrx w.f6 w.f11 w.f16)
  | 662 => some (.stwbrx w.f6 w.f11 w.f16)
  | 790 => some (.lhbrx w.f6 w.f11 w.f16)
  | 853 => some (.lbzcix w.f6 w.f11 w.f16)
  | 918 => some (.sthbrx w.f6 w.f11 w.f16)
  | 1014 => if w.f6 = 0 then some (.dcbz w.f11 w.f16) else none
  | _ => none

/-- The instruction a word stands for, `none` where it matches no row of the table (R116 to R119). -/
def decode (w : IWord) : Option Instr :=
  match w.po.toNat with
  | 3 => some (.twi w.f6 w.f11 w.imm16)
  | 10 => if bit9Of w.f6 = false then some (.cmpli (bfOf w.f6) (lOf w.f6) w.f11 w.imm16) else none
  | 11 => if bit9Of w.f6 = false then some (.cmpi (bfOf w.f6) (lOf w.f6) w.f11 w.imm16) else none
  | 14 => some (.addi w.f6 w.f11 w.imm16)
  | 16 => some (.bc w.f6 w.f11 w.imm14 w.b30 w.b31)
  | 17 => if w.sc6 = 0 ∧ w.sc27 = 2 then some (.sc w.lev) else none
  | 18 => some (.b w.imm24 w.b30 w.b31)
  | 19 => decodeXL w
  | 21 => some (.rlwinm w.f6 w.f11 w.f16 w.mb w.me w.b31)
  | 28 => some (.andiRc w.f6 w.f11 w.imm16)
  | 29 => some (.andisRc w.f6 w.f11 w.imm16)
  | 31 =>
    if w.xo.toNat = 24 then some (.slw w.f6 w.f11 w.f16 w.b31)
    else if w.b31 = false then decodeX w else none
  | 34 => some (.lbz w.f6 w.f11 w.imm16)
  | 38 => some (.stb w.f6 w.f11 w.imm16)
  | 46 => some (.lmw w.f6 w.f11 w.imm16)
  | 47 => some (.stmw w.f6 w.f11 w.imm16)
  | 56 => if w.low4 = 0 then some (.lq w.f6 w.f11 w.imm12) else none
  | 62 =>
    if w.xo2 = 0 then some (.std w.f6 w.f11 w.imm14)
    else if w.xo2 = 2 then some (.stq w.f6 w.f11 w.imm14) else none
  | _ => none

/-- Why a run of bytes is no instruction. -/
inductive DecodeError where
  /-- Fewer than the four bytes of an instruction word are there (R100). -/
  | truncated
  /-- The word matches no row of the table (R118). -/
  | noRow (w : IWord)
  deriving DecidableEq, Repr

/-- Four bytes, the lowest address first, as one instruction word: in Big-Endian mode the first byte is the most
significant, in Little-Endian mode the least (R67). -/
def iwordOfBytes (le : Bool) (b0 b1 b2 b3 : Byte) : IWord :=
  if le then b3 ++ b2 ++ b1 ++ b0 else b0 ++ b1 ++ b2 ++ b3

/-- The instruction at the head of a run of bytes and the bytes after it; total on any bytes, refusing by name. -/
def decodeBytes (le : Bool) : List Byte → Except DecodeError (Instr × List Byte)
  | b0 :: b1 :: b2 :: b3 :: rest =>
    match decode (iwordOfBytes le b0 b1 b2 b3) with
    | some i => .ok (i, rest)
    | none => .error (.noRow (iwordOfBytes le b0 b1 b2 b3))
  | _ => .error .truncated

/-- The four bytes of an instruction word as the hardware stores them, the lowest address first (R67). -/
def iwordBytes (le : Bool) (w : IWord) : List Byte :=
  if le then [w.extractLsb' 0 8, w.extractLsb' 8 8, w.extractLsb' 16 8, w.extractLsb' 24 8]
  else [w.extractLsb' 24 8, w.extractLsb' 16 8, w.extractLsb' 8 8, w.extractLsb' 0 8]

/-- The instruction word of a table row's bits: `w` cut to `nbits` bits, the bits above them zero. -/
def tableWord (nbits w : Nat) : IWord := BitVec.ofNat 32 (w % 2 ^ nbits)

/-- The instruction the decoder reads from an instruction whose bits are `w`, laid out in storage Big-Endian (the byte
order of State.reset) and given to the decoder. -/
def decodeTableWord (nbits w : Nat) : Option Instr :=
  match decodeBytes false (iwordBytes false (tableWord nbits w)) with
  | .ok (i, _) => some i
  | .error _ => none

/-! ### Encoding -/

/-- One bit as a field. -/
def bit (v : Bool) : BitVec 1 := BitVec.ofBool v

/-- I form (R103). -/
def formI (po : BitVec 6) (li : BitVec 24) (aa lk : Bool) : IWord := po ++ li ++ bit aa ++ bit lk
/-- B form (R104). -/
def formB (po : BitVec 6) (bo bi : BitVec 5) (bd : BitVec 14) (aa lk : Bool) : IWord :=
  po ++ bo ++ bi ++ bd ++ bit aa ++ bit lk
/-- D form (R106). -/
def formD (po : BitVec 6) (a b : BitVec 5) (imm : BitVec 16) : IWord := po ++ a ++ b ++ imm
/-- DS form (R107). -/
def formDS (po : BitVec 6) (a b : BitVec 5) (ds : BitVec 14) (xo : BitVec 2) : IWord := po ++ a ++ b ++ ds ++ xo
/-- DQ form (R108). -/
def formDQ (po : BitVec 6) (a b : BitVec 5) (dq : BitVec 12) : IWord := po ++ a ++ b ++ dq ++ 0#4
/-- X, XL, XO and XFX form (R105, R109, R110, R111): three five-bit places, a ten-bit extended opcode and bit 31. -/
def formX (po : BitVec 6) (a b c : BitVec 5) (xo : BitVec 10) (b31 : Bool) : IWord :=
  po ++ a ++ b ++ c ++ xo ++ bit b31
/-- M form (R112). -/
def formM (po : BitVec 6) (rs ra sh mb me : BitVec 5) (rc : Bool) : IWord := po ++ rs ++ ra ++ sh ++ mb ++ me ++ bit rc
/-- SC form (R113). -/
def formSC (po : BitVec 6) (lev : BitVec 7) : IWord := po ++ 0#14 ++ lev ++ 2#5

/-- Instruction bits 6:10 of a compare: BF, a reserved bit, L (R106, R109). -/
def cmpPlace (bf : CrFieldNum) (l : Bool) : BitVec 5 := bf ++ 0#1 ++ bit l
/-- Instruction bits 6:10 of `mcrxrx`: BF and two reserved bits (R109). -/
def bfPlace (bf : CrFieldNum) : BitVec 5 := bf ++ 0#2
/-- Instruction bits 16:20 of a branch to a register: three reserved bits and BH (R105). -/
def bhPlace (bh : BitVec 2) : BitVec 5 := 0#3 ++ bh
/-- Instruction bits 11:15 of `mtmsr`: four reserved bits and L (R109). -/
def lPlace (l : Bool) : BitVec 5 := 0#4 ++ bit l
/-- Instruction bits 11:15 of `tlbie` and `tlbiel`: a reserved bit, RIC, PRS and R (R109). -/
def tlbPlace (ric : BitVec 2) (prs r : Bool) : BitVec 5 := 0#1 ++ ric ++ bit prs ++ bit r

/-- The word of a well-formed instruction (R103 to R116). `setvl`, which is not well formed, has none: the zero word,
which matches no row (R118), stands in its place and nothing decodes to it. -/
def encode : Instr → IWord
  | .cdtbcd rs ra => formX 31 rs ra 0 282 false
  | .cbcdtd rs ra => formX 31 rs ra 0 314 false
  | .addg6s rt ra rb => formX 31 rt ra rb 74 false
  | .b li aa lk => formI 18 li aa lk
  | .bc bo bi bd aa lk => formB 16 bo bi bd aa lk
  | .bclr bo bi bh lk => formX 19 bo bi (bhPlace bh) 16 lk
  | .bcctr bo bi bh lk => formX 19 bo bi (bhPlace bh) 528 lk
  | .bctar bo bi bh lk => formX 19 bo bi (bhPlace bh) 560 lk
  | .cmpi bf l ra si => formD 11 (cmpPlace bf l) ra si
  | .cmp bf l ra rb => formX 31 (cmpPlace bf l) ra rb 0 false
  | .cmpli bf l ra ui => formD 10 (cmpPlace bf l) ra ui
  | .cmpl bf l ra rb => formX 31 (cmpPlace bf l) ra rb 32 false
  | .crand bt ba bb => formX 19 bt ba bb 257 false
  | .addi rt ra si => formD 14 rt ra si
  | .lbzcix rt ra rb => formX 31 rt ra rb 853 false
  | .lbz rt ra d => formD 34 rt ra d
  | .lq rtp ra dq => formDQ 56 rtp ra dq
  | .lhbrx rt ra rb => formX 31 rt ra rb 790 false
  | .lwbrx rt ra rb => formX 31 rt ra rb 534 false
  | .ldbrx rt ra rb => formX 31 rt ra rb 532 false
  | .lmw rt ra d => formD 46 rt ra d
  | .andiRc rs ra ui => formD 28 rs ra ui
  | .andisRc rs ra ui => formD 29 rs ra ui
  | .rlwinm rs ra sh mb me rc => formM 21 rs ra sh mb me rc
  | .slw rs ra rb rc => formX 31 rs ra rb 24 rc
  | .stb rs ra d => formD 38 rs ra d
  | .std rs ra ds => formDS 62 rs ra ds 0
  | .stq rsp ra ds => formDS 62 rsp ra ds 2
  | .sthbrx rs ra rb => formX 31 rs ra rb 918 false
  | .stwbrx rs ra rb => formX 31 rs ra rb 662 false
  | .stdbrx rs ra rb => formX 31 rs ra rb 660 false
  | .stmw rs ra d => formD 47 rs ra d
  | .twi trapOn ra si => formD 3 trapOn ra si
  | .mtspr rs n => formX 31 rs (sprLow n) (sprHigh n) 467 false
  | .mfspr rt n => formX 31 rt (sprLow n) (sprHigh n) 339 false
  | .mcrxrx bf => formX 31 (bfPlace bf) 0 0 576 false
  | .mtmsr rs l => formX 31 rs (lPlace l) 0 146 false
  | .dcbz ra rb => formX 31 0 ra rb 1014 false
  | .tlbie rs ric prs r rb => formX 31 rs (tlbPlace ric prs r) rb 306 false
  | .tlbiel rs ric prs r rb => formX 31 rs (tlbPlace ric prs r) rb 274 false
  | .tlbsync => formX 31 0 0 0 566 false
  | .lswi rt ra nb => formX 31 rt ra nb 597 false
  | .sc lev => formSC 17 lev
  | .setvl => 0

end Sys2Proof
end

