-- ==== Sys2Proof/Machine/Bits.lean ====
section
/-!
DEFINITION. Bit fields, masks, rotation, byte order and joining of bytes (spec/00_scope.md rules R7 to R11,
spec/46_load.md rule R195).
-/
namespace Sys2Proof.Machine

/-- The ones at bits hi down to lo of a doubleword, for hi < 64. -/
def fieldMask (hi lo : Nat) : DWord := (BitVec.allOnes (hi + 1 - lo)).setWidth 64 <<< lo

/-- `old` with the bits of `mask` taken from `new`. -/
def merge (mask old new : DWord) : DWord := (old &&& ~~~mask) ||| (new &&& mask)

/-- `dst[hi:lo] <- src[hi:lo]`. -/
def copyField (hi lo : Nat) (src dst : DWord) : DWord := merge (fieldMask hi lo) dst src

/-- `v[i] <- x`. -/
def setBit (i : Nat) (x : Bool) (v : DWord) : DWord :=
  if x then v ||| fieldMask i i else v &&& ~~~fieldMask i i

/-- `MASK(mb, me)` of R11, in IBM positions: ones from mb through me, wrapping past position 63 when mb > me. -/
def ibmMask (mb me : Nat) : DWord :=
  if mb ≤ me then fieldMask (63 - mb) (63 - me) else fieldMask (63 - mb) 0 ||| fieldMask 63 (63 - me)

/-- `rotl32(w, n)` of R11, for n at most 31. -/
def rotl32 (w : BitVec 32) (n : Nat) : BitVec 32 := (w <<< n) ||| (w >>> (32 - n))

/-- The low-order word of a doubleword. -/
def lowWord (v : DWord) : BitVec 32 := v.extractLsb' 0 32

/-- The n low-order bytes of v, the most significant first. -/
def bytesOf {w : Nat} (n : Nat) (v : BitVec w) : List Byte :=
  (List.range n).map fun i => v.extractLsb' (8 * (n - 1 - i)) 8

/-- Bytes joined, the first the most significant, in the low-order end of a w-bit value. -/
def joinBytes (w : Nat) (bs : List Byte) : BitVec w :=
  bs.foldl (fun acc b => (acc <<< 8) ||| b.setWidth w) 0

/-- `Rev(v, n)` of R195: the n low-order bytes in the opposite order, zero above them. -/
def rev (n : Nat) (v : DWord) : DWord := joinBytes 64 (bytesOf n v).reverse

/-- An 8n-bit value from the bytes of storage in rising address order (R62). -/
def fromStorage (le : Bool) (w : Nat) (bs : List Byte) : BitVec w :=
  joinBytes w (if le then bs.reverse else bs)

/-- The bytes of an 8n-bit value as storage takes them in rising address order (R63). -/
def toStorage {w : Nat} (le : Bool) (n : Nat) (v : BitVec w) : List Byte :=
  if le then (bytesOf n v).reverse else bytesOf n v

/-- The word made of bytes 4k to 4k+3 of a string, zero where the string has ended (R200, R286). -/
def packWord (bs : List Byte) (k : Nat) : DWord :=
  joinBytes 64 [bs.getD (4 * k) 0, bs.getD (4 * k + 1) 0, bs.getD (4 * k + 2) 0, bs.getD (4 * k + 3) 0]

end Sys2Proof.Machine
end

