-- ==== Sys2Proof/Config.lean ====
section
/-!
DEFINITION. The parameters the spec leaves OPEN (spec/00_scope.md rule R6, spec/92_eei_decisions.md, spec/70_reset_and_hazards.md
rule R351): ENTRY, MSR0, MemMap, MISALIGN, TRAP_MODE and DCBZ_BLOCK. A machine state carries one value of them
(log entry 8), so that a statement about every state speaks of every choice of the parameters.
-/
namespace Sys2Proof

/-- TRAP_MODE: what a raise does (R305, R306, D13). -/
inductive TrapMode where
  /-- Every raise ends the run and hands the event to the environment (R305). -/
  | environment
  /-- Trap, PrivilegedInstruction and SystemCall enter the interrupt of R306; the rest end the run (R312). -/
  | architected
  deriving DecidableEq, Repr

/-- MISALIGN: what a misaligned data access does where the instruction does not fix it (R65, D4). -/
inductive Misalign where
  /-- It raises Alignment. -/
  | fault
  /-- It is done byte by byte. -/
  | split
  deriving DecidableEq, Repr

/-- A run of byte addresses that exist, both ends included. -/
structure Region where
  /-- The lowest address. -/
  first : Nat
  /-- The highest address. -/
  last : Nat
  deriving DecidableEq, Repr

/-- The address lies in the region. -/
def Region.contains (r : Region) (a : Nat) : Bool := r.first ≤ a && a ≤ r.last

/-- The OPEN parameters of a run (R6, R351). -/
structure Params where
  /-- ENTRY: the address of the first instruction. -/
  entry : Addr
  /-- MSR0: the Machine State Register at the start. -/
  msr0 : DWord
  /-- MemMap: the byte addresses that exist (R64). -/
  memMap : List Region
  /-- MISALIGN (R65). -/
  misalign : Misalign
  /-- TRAP_MODE (R305, R306). -/
  trapMode : TrapMode
  /-- DCBZ_BLOCK is 16 shifted left by this, so that it is a power of two and at least 16 (R6, R269). -/
  dcbzShift : Nat
  deriving DecidableEq, Repr

/-- DCBZ_BLOCK, the number of bytes `dcbz` zeroes (R269). -/
def Params.dcbzBlock (p : Params) : Nat := 16 * 2 ^ p.dcbzShift

/-- What R351 asks of the parameters of a start state: ENTRY a multiple of 4, and below 2^32 where MSR0 selects
32-bit mode; IR and DR of MSR0 clear. -/
def Params.wf (p : Params) : Bool :=
  p.entry.toNat % 4 == 0 && (p.msr0.getLsbD 63 || p.entry.toNat < 2 ^ 32) && !p.msr0.getLsbD 5 && !p.msr0.getLsbD 4

/-- The parameters State.reset starts from. DESIGN CHOICE, every one of them OPEN in the spec: log entries 2 (ENTRY),
3 (MSR0, the value R352 recommends), 4 (MemMap), 5 (MISALIGN, the spec's default), 6 (TRAP_MODE, the spec's default), 7
(DCBZ_BLOCK). -/
def Params.atReset : Params where
  entry := 0x1000
  msr0 := 0x9000000000000000
  memMap := [⟨0, 2 ^ 64 - 1⟩]
  misalign := .fault
  trapMode := .environment
  dcbzShift := 3

end Sys2Proof
end

