-- ==== Sys2Proof/Machine/State.lean ====
section
/-!
DEFINITION. The state of the machine as plain data, the reasons a step stops, and the state after reset
(spec/10_state.md, spec/60_exceptions.md rules R301 and R302, spec/70_reset_and_hazards.md rule R351).
-/
namespace Sys2Proof.Machine

/-- Storage: the bytes that have a value, by address (R43). An address not listed is unwritten and reads as no value
(R17, R351; log entry 9). Memory.wf, in Machine/Memory.lean, is the canonical form. -/
abbrev Memory := List Host.Cell

/-- The state of the machine: every piece of state spec/10_state.md gives it, the marks of R79 and the parameters of the
run. -/
structure State where
  /-- `pc`: the address of the instruction being executed (R30). -/
  pc : Addr
  /-- `x[0]` to `x[31]` (R20). -/
  gpr : Vector DWord 32
  /-- `CRf[0]` to `CRf[7]`; in each, bit 3 is LT, bit 2 GT, bit 1 EQ, bit 0 SO (R25, R26). -/
  crf : Vector (BitVec 4) 8
  /-- The Fixed-Point Exception Register (R38). -/
  xer : DWord
  /-- The Link Register (R33). -/
  lr : DWord
  /-- The Count Register (R34). -/
  ctr : DWord
  /-- The Branch Target Address Register (R35). -/
  tar : DWord
  /-- The Machine State Register (R36). -/
  msr : DWord
  /-- Machine Status Save/Restore Register 0 (R41). -/
  srr0 : DWord
  /-- Machine Status Save/Restore Register 1 (R41). -/
  srr1 : DWord
  /-- Storage (R43). -/
  mem : Memory
  /-- The addresses marked "stored to in this run", strictly rising (R63, R79). -/
  stored : List Nat
  /-- The OPEN parameters of the run (R6, R351), which no step changes; the model's own field (log entry 8). -/
  params : Params
  deriving DecidableEq, Repr

/-- Whether a data access loads or stores (R301). -/
inductive Access where
  /-- A load. -/
  | load
  /-- A store, or `dcbz`. -/
  | store
  deriving DecidableEq, Repr

/-- The events that end a run (R301, R305, R312). The state a stop leaves is the state the step was asked of (R15). -/
inductive Fault where
  /-- A tested condition of `twi` is met, at `pc`. Raised by `twi` under TRAP_MODE = environment (R305). Safe: the
  handler is outside the machine. -/
  | trap (pc : Addr)
  /-- `sc` was executed; `next` is where a resumed program goes on. Raised by `sc` under TRAP_MODE = environment (R291,
  R305). Safe: the system is outside the machine. -/
  | systemCall (lev : BitVec 7) (next : Addr)
  /-- An instruction or SPR confined to a privilege state was used outside it. Raised by `lbzcix`, `mtmsr`, `tlbie`,
  `tlbiel`, `tlbsync`, `mtspr` and `mfspr` under TRAP_MODE = environment (R305, R320). Safe. -/
  | privilegedInstruction (pc : Addr)
  /-- The fetched word matches no row of the table. Raised by the step in both modes (R118, R312). Safe: hardware goes
  on to an interrupt the spec does not describe. -/
  | illegalInstruction (w : IWord) (pc : Addr)
  /-- A misaligned access where alignment is required, or `lmw`, `stmw` or `lswi` in Little-Endian mode. Raised by the
  loads and stores in both modes (R65, R312). Safe. -/
  | alignment (ea : Addr) (pc : Addr)
  /-- A data access touches an address outside MemMap. Raised by every load, every store and `dcbz` in both modes (R64,
  R312). Safe. -/
  | dataStorage (ea : Addr) (dir : Access) (pc : Addr)
  /-- A byte of the word at `pc` is outside MemMap. Raised by the fetch in both modes (R67, R312). Safe. -/
  | instructionStorage (pc : Addr)
  deriving DecidableEq, Repr

/-- The points to which the spec gives no meaning, Refused(reason), with the pc (R301, R302). Each is safe: a claim about
a run must show that no step refuses. -/
inductive Refusal where
  /-- A fetch or a load reads a storage byte that nothing has written (R17). Raised by the fetch and the loads. Safe. -/
  | unwritten (pc : Addr)
  /-- A fetch with MSR.IR set or a data access with MSR.DR set (R70). Raised by the fetch, the loads, the stores and
  `dcbz`. Safe. -/
  | translation (pc : Addr)
  /-- A fetch of a byte stored to in this run (R79). Raised by the fetch. Safe. -/
  | modifiedCode (pc : Addr)
  /-- Fields in a combination that is an invalid form (R120). Raised by `bcctr`, `lq`, `stq`, `lmw`, `lswi`. Safe. -/
  | invalidForm (pc : Addr)
  /-- An SPR number outside R40 (R264). Raised by `mtspr` and `mfspr`. Safe. -/
  | undefinedSpr (pc : Addr)
  /-- A digit above 9 (R141, R143). Raised by `cbcdtd`. Safe. -/
  | invalidBcdDigit (pc : Addr)
  /-- A TLB instruction in privileged state: there is no TLB (R271, R272, R273). Raised by `tlbie`, `tlbiel`,
  `tlbsync`. Safe. -/
  | noTlb (pc : Addr)
  /-- `setvl` handed to the machine by name (R256). Raised by `setvl`. Safe. -/
  | setvlNotSpecified (pc : Addr)
  /-- An instruction of the table that has no meaning yet. No arm of exec raises it any more. Safe. -/
  | notModelled (mnemonic : String)
  deriving DecidableEq, Repr

/-- What one step answers. -/
abbrev Out := Host.Outcome State Fault Refusal

/-- A start state of R351 that lists no register: the parameters and the listed storage bytes are the user's; every register
is zero (log entry 1) and no byte is marked. State.start, in Machine/Ops.lean, lists registers as well. -/
def State.startUnlisted (p : Params) (bytes : Memory) : State where
  pc := p.entry
  gpr := Vector.replicate 32 0
  crf := Vector.replicate 8 0
  xer := 0
  lr := 0
  ctr := 0
  tar := 0
  msr := p.msr0
  srr0 := 0
  srr1 := 0
  mem := bytes
  stored := []
  params := p

/-- The machine right after reset: the start state of the parameters Params.atReset with no register and no storage byte
listed (log entries 1 to 7 and 11). -/
def State.reset : State := State.startUnlisted Params.atReset []

end Sys2Proof.Machine
end

