-- ==== Sys2Proof/Machine/Memory.lean ====
section
/-!
DEFINITION. Storage as a list in one canonical form, the marks of stored bytes, and which addresses exist
(spec/10_state.md rule R43, spec/20_memory.md rules R62 to R64, R79).
-/
namespace Sys2Proof.Machine

/-- What an address that is not listed reads as: no value, the spec's "unwritten" (R17, R351; log entry 9). -/
def unlistedByte : Option Byte := none

/-- The byte at an address. -/
def Memory.read : Memory → Nat → Option Byte
  | [], _ => unlistedByte
  | (k, b) :: rest, a => if k = a then some b else Memory.read rest a

/-- `Mem[a] <- b`, keeping the addresses strictly rising. -/
def Memory.write : Memory → Nat → Byte → Memory
  | [], a, b => [(a, b)]
  | (k, c) :: rest, a, b =>
    if a < k then (a, b) :: (k, c) :: rest
    else if k = a then (a, b) :: rest
    else (k, c) :: Memory.write rest a b

/-- A run of bytes written one after another. -/
def Memory.writeAll (m : Memory) (cells : List Host.Cell) : Memory :=
  cells.foldl (fun m c => m.write c.1 c.2) m

/-- The canonical form: addresses strictly rising, each a 64-bit address. No entry can equal what an unlisted address
reads as, which is no value. -/
abbrev Memory.wf (m : Memory) : Prop := m.Pairwise (fun x y => x.1 < y.1) ∧ ∀ c ∈ m, c.1 < 2 ^ 64

/-- A mark added to a strictly rising list of marks. -/
def addMark : List Nat → Nat → List Nat
  | [], a => [a]
  | k :: rest, a => if a < k then a :: k :: rest else if k = a then k :: rest else k :: addMark rest a

/-- The canonical form of the marks. -/
abbrev marksWf (l : List Nat) : Prop := l.Pairwise (· < ·)

/-- The address exists: a 64-bit address that MemMap holds (R64). -/
def admitted (map : List Region) (a : Nat) : Bool := decide (a < 2 ^ 64) && map.any (·.contains a)

end Sys2Proof.Machine
end

