-- ==== Sys2Proof/Machine/Operands.lean ====
section
/-!
DEFINITION. Operand forms: register operands, immediates, the modes of the MSR, effective addresses and special purpose
registers (spec/00_scope.md rules R10, R12; spec/10_state.md rules R21, R36, R40; spec/20_memory.md rule R61;
spec/30_encoding.md rule R115).
-/
namespace Sys2Proof.Machine

/-! ### General registers (R12, R20, R21) -/

/-- `x[r]`, read as a plain register: no register is hard-wired. -/
def State.x (s : State) (r : RegNum) : DWord := s.gpr[r.toNat]'r.isLt

/-- `x[r] <- v`. -/
def State.setX (s : State) (r : RegNum) (v : DWord) : State := { s with gpr := s.gpr.set r.toNat v r.isLt }

/-- `RA0(ra)`, the source's "(RA|0)": zero when the field is 0. -/
def State.ra0 (s : State) (ra : RegNum) : DWord := if ra = 0 then 0 else s.x ra

/-! ### Modes held in the MSR (R36) -/

/-- SF: 64-bit mode. -/
def State.sf (s : State) : Bool := s.msr.getLsbD 63
/-- HV. -/
def State.hv (s : State) : Bool := s.msr.getLsbD 60
/-- PR: problem state. -/
def State.pr (s : State) : Bool := s.msr.getLsbD 14
/-- IR: instruction address translation on. -/
def State.ir (s : State) : Bool := s.msr.getLsbD 5
/-- DR: data address translation on. -/
def State.dr (s : State) : Bool := s.msr.getLsbD 4
/-- LE: Little-Endian mode. -/
def State.le (s : State) : Bool := s.msr.getLsbD 0
/-- "Privileged" (R320). -/
def State.privileged (s : State) : Bool := !s.pr
/-- "Hypervisor state" (R320). -/
def State.hypervisor (s : State) : Bool := s.hv && !s.pr

/-! ### Bits of the XER (R38) -/

/-- SO. -/
def State.xerSO (s : State) : Bool := s.xer.getLsbD 31
/-- OV. -/
def State.xerOV (s : State) : Bool := s.xer.getLsbD 30
/-- CA. -/
def State.xerCA (s : State) : Bool := s.xer.getLsbD 29
/-- OV32. -/
def State.xerOV32 (s : State) : Bool := s.xer.getLsbD 19
/-- CA32. -/
def State.xerCA32 (s : State) : Bool := s.xer.getLsbD 18

/-! ### Immediates (R115) -/

/-- SI or D: sign-extended. -/
def sextImm (imm : BitVec 16) : DWord := imm.signExtend 64
/-- UI: zero-extended. -/
def zextImm (imm : BitVec 16) : DWord := imm.setWidth 64
/-- UI of `andis.`: `zext_64(UI || 0x0000)`. -/
def zextImmShifted (imm : BitVec 16) : DWord := (imm ++ 0#16).setWidth 64
/-- LI: `sext_64(LI || 0b00)`. -/
def liImm (li : BitVec 24) : DWord := (li ++ 0#2).signExtend 64
/-- BD: `sext_64(BD || 0b00)`. -/
def bdImm (bd : BitVec 14) : DWord := (bd ++ 0#2).signExtend 64
/-- DS: `sext_64(DS || 0b00)`. -/
def dsImm (ds : BitVec 14) : DWord := (ds ++ 0#2).signExtend 64
/-- DQ: `sext_64(DQ || 0b0000)`. -/
def dqImm (dq : BitVec 12) : DWord := (dq ++ 0#4).signExtend 64
/-- NB: 0 stands for 32 bytes. -/
def nbCount (nb : BitVec 5) : Nat := if nb = 0 then 32 else nb.toNat

/-- The operand of a compare or trap, by its field L: the doubleword, or the low-order word sign-extended (R170, R251). -/
def signedOperand (l : Bool) (v : DWord) : DWord := if l then v else (lowWord v).signExtend 64
/-- The operand of an unsigned compare, by L: the doubleword, or the low-order word zero-extended (R170). -/
def unsignedOperand (l : Bool) (v : DWord) : DWord := if l then v else (lowWord v).setWidth 64

/-! ### Addresses (R31, R61) -/

/-- An address as the computation mode has it: all 64 bits, or the low-order 32 with zeros above (R61). -/
def State.truncate (s : State) (a : Addr) : Addr := if s.sf then a else (lowWord a).setWidth 64

/-- The effective address of D form. -/
def State.eaD (s : State) (ra : RegNum) (d : BitVec 16) : Addr := s.truncate (s.ra0 ra + sextImm d)
/-- The effective address of DS form. -/
def State.eaDS (s : State) (ra : RegNum) (ds : BitVec 14) : Addr := s.truncate (s.ra0 ra + dsImm ds)
/-- The effective address of DQ form. -/
def State.eaDQ (s : State) (ra : RegNum) (dq : BitVec 12) : Addr := s.truncate (s.ra0 ra + dqImm dq)
/-- The effective address of X form. -/
def State.eaX (s : State) (ra rb : RegNum) : Addr := s.truncate (s.ra0 ra + s.x rb)
/-- The effective address of `lswi`, which has neither displacement nor index. -/
def State.eaBase (s : State) (ra : RegNum) : Addr := s.truncate (s.ra0 ra)

/-- `ByteAddr(ea, i)`: the address of the i-th byte of an access. -/
def State.byteAddr (s : State) (ea : Addr) (i : Nat) : Addr := s.truncate (ea + BitVec.ofNat 64 i)

/-- The addresses of the n bytes of an access, in order. -/
def State.span (s : State) (ea : Addr) (n : Nat) : List Nat :=
  (List.range n).map fun i => (s.byteAddr ea i).toNat

/-- The first address of the `dcbz` block that holds an effective address: its low log2(DCBZ_BLOCK) bits cleared (R269). -/
def State.blockStart (s : State) (ea : Addr) : Nat := ea.toNat / s.params.dcbzBlock * s.params.dcbzBlock

/-- The addresses of the `dcbz` block. -/
def State.blockSpan (s : State) (ea : Addr) : List Nat :=
  (List.range s.params.dcbzBlock).map fun i => s.blockStart ea + i

/-! ### Special purpose registers (R40, R262 to R264) -/

/-- The six special purpose registers. -/
inductive Spr where
  | xer | lr | ctr | srr0 | srr1 | tar
  deriving DecidableEq, Repr

/-- The register a number names, none where the number is undefined (R40). -/
def sprOf (n : BitVec 10) : Option Spr :=
  match n.toNat with
  | 1 => some .xer
  | 8 => some .lr
  | 9 => some .ctr
  | 26 => some .srr0
  | 27 => some .srr1
  | 815 => some .tar
  | _ => none

/-- The registers confined to privileged state (R40, R321). -/
def sprPrivileged : Spr → Bool
  | .srr0 | .srr1 => true
  | .xer | .lr | .ctr | .tar => false

/-- `SPR(n)`. -/
def State.spr (s : State) : Spr → DWord
  | .xer => s.xer
  | .lr => s.lr
  | .ctr => s.ctr
  | .srr0 => s.srr0
  | .srr1 => s.srr1
  | .tar => s.tar

/-- `SPR(n) <- v`, all 64 bits. -/
def State.setSpr (s : State) (r : Spr) (v : DWord) : State :=
  match r with
  | .xer => { s with xer := v }
  | .lr => { s with lr := v }
  | .ctr => { s with ctr := v }
  | .srr0 => { s with srr0 := v }
  | .srr1 => { s with srr1 := v }
  | .tar => { s with tar := v }

end Sys2Proof.Machine
end

