-- ==== Sys2Proof/Machine/Flags.lean ====
section
/-!
DEFINITION. The Condition Register: its bits and fields, the record form, the compare result and the XER copy
(spec/10_state.md rules R25 to R27, spec/42_compare.md rule R170, spec/52_sysreg_cache_tlb.md rule R265).
-/
namespace Sys2Proof.Machine

/-- `CRf[n]`. -/
def State.crField (s : State) (n : CrFieldNum) : BitVec 4 := s.crf[n.toNat]'n.isLt

/-- `CRf[n] <- v`. -/
def State.setCrField (s : State) (n : CrFieldNum) (v : BitVec 4) : State :=
  { s with crf := s.crf.set n.toNat v n.isLt }

/-- The 32-bit image of the Condition Register: field n is bits 31-4n down to 28-4n (R25). -/
def State.cr (s : State) : BitVec 32 :=
  s.crField 0 ++ s.crField 1 ++ s.crField 2 ++ s.crField 3 ++ s.crField 4 ++ s.crField 5 ++ s.crField 6 ++ s.crField 7

/-- The field that holds a Condition Register bit: b div 4 (R25). -/
def crFieldOf (b : CrBitNum) : CrFieldNum := b.extractLsb' 2 3

/-- The place of a Condition Register bit within its field, from the least significant end: 3 - (b mod 4) (R25). -/
def crPlaceOf (b : CrBitNum) : Nat := 3 - b.toNat % 4

/-- `CRbit(b)` (R25). -/
def State.crBit (s : State) (b : CrBitNum) : Bool := (s.crField (crFieldOf b)).getLsbD (crPlaceOf b)

/-- A field with one bit changed. -/
def putBit4 (v : BitVec 4) (i : Nat) (x : Bool) : BitVec 4 :=
  if x then v ||| (1#4 <<< i) else v &&& ~~~(1#4 <<< i)

/-- `CRbit(b) <- x`; the other three bits of the field keep their values (R176). -/
def State.setCrBit (s : State) (b : CrBitNum) (x : Bool) : State :=
  s.setCrField (crFieldOf b) (putBit4 (s.crField (crFieldOf b)) (crPlaceOf b) x)

/-- `LT || GT || EQ || SO` from the outcome of a comparison (R26, R170): exactly one of the first three is set. -/
def compareField (lt gt so : Bool) : BitVec 4 :=
  (if lt then 0b100#3 else if gt then 0b010#3 else 0b001#3) ++ BitVec.ofBool so

/-- `SetCompare(BF, lt, gt)` (R170). -/
def State.setCompare (s : State) (bf : CrFieldNum) (lt gt : Bool) : State :=
  s.setCrField bf (compareField lt gt s.xerSO)

/-- A value read as the record form reads it: signed, all 64 bits in 64-bit mode, the low word in 32-bit mode (R27). -/
def State.recordValue (s : State) (v : DWord) : Int := if s.sf then v.toInt else (lowWord v).toInt

/-- "Record CR0 from v" (R27). -/
def State.recordCr0 (s : State) (v : DWord) : State :=
  s.setCompare 0 (decide (s.recordValue v < 0)) (decide (s.recordValue v > 0))

/-- "If Rc = 1 record CR0 from v". -/
def State.recordIf (s : State) (rc : Bool) (v : DWord) : State := if rc then s.recordCr0 v else s

/-- `XER.OV || XER.OV32 || XER.CA || XER.CA32` (R265). -/
def State.xerExtended (s : State) : BitVec 4 :=
  BitVec.ofBool s.xerOV ++ BitVec.ofBool s.xerOV32 ++ BitVec.ofBool s.xerCA ++ BitVec.ofBool s.xerCA32

end Sys2Proof.Machine
end

