-- ==== Sys2Proof/Machine/Ops.lean ====
section
/-!
DEFINITION. The operations the meanings share: the next address and branching (spec/10_state.md R31, R32;
spec/41_branch.md R151, R154, R159), taking an exception (spec/60_exceptions.md R305 to R312), the privilege and SPR checks
(R320; spec/52_sysreg_cache_tlb.md R264), storage access with its checks in order (spec/20_memory.md R62 to R65, R81), and
fetching an instruction word (R67), and the start states a user of the model supplies (spec/70_reset_and_hazards.md R351).

No instruction returns from an exception (R317), so there is no operation for it.
-/
namespace Sys2Proof.Machine

/-! ### Stops -/

/-- An end of the run: an event or a refusal. -/
inductive Stop where
  | fault (f : Fault)
  | refused (r : Refusal)
  deriving DecidableEq, Repr

/-- The outcome of a stop. -/
def stopOut : Stop → Out
  | .fault f => .fault f
  | .refused r => .refused r

/-! ### The program counter -/

/-- `NextPC(pc)` (R31). -/
def State.nextPc (s : State) : Addr := s.truncate (s.pc + 4)

/-- `pc <- NextPC(pc)`. -/
def State.advance (s : State) : State := { s with pc := s.nextPc }

/-- An address with its two low-order bits cleared (R151). -/
def wordAligned (a : Addr) : Addr := a &&& ~~~3#64

/-- `BranchTo(t)` (R151). -/
def State.branchTo (s : State) (t : Addr) : State := { s with pc := wordAligned (s.truncate t) }

/-- "If LK = 1, LR <- NextPC(pc)" (R159). -/
def State.linkIf (s : State) (lk : Bool) : State := if lk then { s with lr := s.nextPc } else s

/-- The target of a branch with displacement `d`: relative to the branch, or absolute (R152, R155). -/
def State.target (s : State) (aa : Bool) (d : DWord) : Addr := if aa then d else s.pc + d

/-! ### The BO field (R153, R154). BO[4] is the Power ISA's BO0, BO[0] its BO4 -/

/-- BO says to decrement CTR: `BO[2] = 0`. -/
def boDecrements (bo : BitVec 5) : Bool := !bo.getLsbD 2

/-- CTR as `BranchCond` leaves it: decremented modulo 2^64 in both modes when `BO[2] = 0`. -/
def State.ctrAfter (s : State) (bo : BitVec 5) : DWord := if boDecrements bo then s.ctr - 1 else s.ctr

/-- The decremented CTR is not zero, all of it in 64-bit mode and its low word in 32-bit mode. -/
def State.ctrNonzero (s : State) (c : DWord) : Bool := if s.sf then c != 0 else lowWord c != 0

/-- `ctr_ok`. -/
def State.ctrOk (s : State) (bo : BitVec 5) : Bool :=
  !boDecrements bo || (s.ctrNonzero (s.ctrAfter bo) ^^ bo.getLsbD 1)

/-- `cond_ok`. -/
def State.condOk (s : State) (bo : BitVec 5) (bi : CrBitNum) : Bool := bo.getLsbD 4 || (s.crBit bi == bo.getLsbD 3)

/-- What `BranchCond(BO, BI)` returns. -/
def State.branchOk (s : State) (bo : BitVec 5) (bi : CrBitNum) : Bool := s.ctrOk bo && s.condOk bo bi

/-- A conditional branch to `t`, the target as it was before LR and CTR are written: CTR is decremented if BO says so,
whether or not the branch is taken, and so is LR written (R154, R159). -/
def State.branchCond (s : State) (bo : BitVec 5) (bi : CrBitNum) (lk : Bool) (t : Addr) : State :=
  let s' := { s.linkIf lk with ctr := s.ctrAfter bo }
  if s.branchOk bo bi then s'.branchTo t else s'.advance

/-! ### Taking an exception -/

/-- The bits of `info` that SRR1 takes: 30:27 and 21:16 (R306). -/
def srr1InfoMask : DWord := fieldMask 30 27 ||| fieldMask 21 16

/-- The MSR bits that interrupt entry clears: VEC, VSX, EE, PR, FP, FE0, SE, BE, FE1, IR, DR, PMM and RI (R306). -/
def msrClearedByInterrupt : DWord := 0x000000000280EF36

/-- The MSR a handler starts with: those bits clear, SF set, LE as MSR0 has it, the rest as they were (R306). -/
def State.handlerMsr (s : State) : DWord :=
  setBit 0 (s.params.msr0.getLsbD 0) (setBit 63 true (s.msr &&& ~~~msrClearedByInterrupt))

/-- `Interrupt(vec, ret, info)`: interrupt entry (R306). -/
def State.interrupt (s : State) (vec ret : Addr) (info : DWord) : State :=
  { s with
    srr0 := wordAligned ret
    srr1 := merge srr1InfoMask s.msr info
    msr := s.handlerMsr
    pc := vec }

/-- The vector of the Program interrupt (R307). -/
def programVector : Addr := 0x700

/-- The vector of the System Call interrupt (R307). -/
def systemCallVector : Addr := 0xC00

/-- `raise Trap(pc)`: the end of the run, or a Program interrupt with SRR1 bit 17 (R305, R310). -/
def State.raiseTrap (s : State) : Out :=
  match s.params.trapMode with
  | .environment => .fault (.trap s.pc)
  | .architected => .next (s.interrupt programVector s.pc (fieldMask 17 17))

/-- `raise PrivilegedInstruction(pc)`: the end of the run, or a Program interrupt with SRR1 bit 18 (R305, R310). -/
def State.raisePrivileged (s : State) : Out :=
  match s.params.trapMode with
  | .environment => .fault (.privilegedInstruction s.pc)
  | .architected => .next (s.interrupt programVector s.pc (fieldMask 18 18))

/-- The state after a System Call interrupt: HV is set as well when LEV[0] is 1 (R311). -/
def State.systemCallEntry (s : State) (lev : BitVec 7) : State :=
  let t := s.interrupt systemCallVector s.nextPc 0
  if lev.getLsbD 0 then { t with msr := setBit 60 true t.msr } else t

/-- `raise SystemCall(LEV, NextPC(pc))`: the end of the run, or a System Call interrupt (R305, R311). -/
def State.raiseSystemCall (s : State) (lev : BitVec 7) : Out :=
  match s.params.trapMode with
  | .environment => .fault (.systemCall lev s.nextPc)
  | .architected => .next (s.systemCallEntry lev)

/-! ### Special purpose registers -/

/-- `SprCheck(n)`, then `k` on the register the number names: an undefined number refuses before the privilege check
(R264). -/
def State.withSpr (s : State) (n : BitVec 10) (k : Spr → Out) : Out :=
  match sprOf n with
  | none => .refused (.undefinedSpr s.pc)
  | some r => if sprPrivileged r && s.pr then s.raisePrivileged else k r

/-! ### Storage access -/

/-- Every one of the addresses exists (R64). -/
def State.admits (s : State) (addrs : List Nat) : Bool := addrs.all (admitted s.params.memMap)

/-- `ea mod n = 0`. -/
def isMultiple (ea : Addr) (n : Nat) : Bool := ea.toNat % n == 0

/-- `CheckAlign(ea, n)` passes (R65). -/
def State.alignOk (s : State) (ea : Addr) (n : Nat) : Bool :=
  decide (s.params.misalign = .split) || isMultiple ea n

/-- The first check of a storage access that fails, in the order of R81: translation, alignment, admission. `aligned` is
the instruction's own alignment check. -/
def State.accessStop (s : State) (dir : Access) (ea : Addr) (aligned : Bool) (addrs : List Nat) : Option Stop :=
  if s.dr then some (.refused (.translation s.pc))
  else if !aligned then some (.fault (.alignment ea s.pc))
  else if !s.admits addrs then some (.fault (.dataStorage ea dir s.pc))
  else none

/-- The bytes at the addresses, none where one of them is unwritten (R62). -/
def Memory.readAll (m : Memory) : List Nat → Option (List Byte)
  | [] => some []
  | a :: rest =>
    match Memory.read m a, Memory.readAll m rest with
    | some b, some bs => some (b :: bs)
    | _, _ => none

/-- A load of the bytes at `addrs`: the checks of R81, then `k` writes registers from the bytes in address order, then
the next instruction (R62). -/
def State.load (s : State) (ea : Addr) (aligned : Bool) (addrs : List Nat) (k : List Byte → State) : Out :=
  match s.accessStop .load ea aligned addrs with
  | some e => stopOut e
  | none =>
    match s.mem.readAll addrs with
    | none => .refused (.unwritten s.pc)
    | some bs => .next (k bs).advance

/-- The bytes written and their addresses marked (R63, R79). -/
def State.writeCells (s : State) (cells : List Host.Cell) : State :=
  { s with
    mem := s.mem.writeAll cells
    stored := cells.foldl (fun l c => addMark l c.1) s.stored }

/-- A store of the bytes `bs` at `addrs`: the checks of R81, then every byte, then the next instruction (R63). -/
def State.store (s : State) (ea : Addr) (aligned : Bool) (addrs : List Nat) (bs : List Byte) : Out :=
  match s.accessStop .store ea aligned addrs with
  | some e => stopOut e
  | none => .next (s.writeCells (addrs.zip bs)).advance

/-! ### Instruction fetch -/

/-- The addresses of the four bytes of the word at `pc`. -/
def State.fetchSpan (s : State) : List Nat := s.span s.pc 4

/-- `MemFetch(pc)` (R67): translation, admission, modified code, unwritten, in that order; then the word. -/
def State.fetch (s : State) : Except Stop IWord :=
  if s.ir then .error (.refused (.translation s.pc))
  else if !s.admits s.fetchSpan then .error (.fault (.instructionStorage s.pc))
  else if s.fetchSpan.any (s.stored.contains ·) then .error (.refused (.modifiedCode s.pc))
  else
    match s.mem.readAll s.fetchSpan with
    | some [b0, b1, b2, b3] => .ok (iwordOfBytes s.le b0 b1 b2 b3)
    | _ => .error (.refused (.unwritten s.pc))

/-- The bytes of an instruction word put where the fetch reads them, and all else the fetch needs and lacks: IR clear, the
addresses in MemMap and unmarked (State.withFetchWord in Step.lean). -/
def State.placeWord (s : State) (w : IWord) : State :=
  let addrs := s.fetchSpan
  { s with
    msr := if s.ir then setBit 5 false s.msr else s.msr
    mem := s.mem.writeAll (addrs.zip (iwordBytes s.le w))
    stored := s.stored.filter (fun a => !addrs.contains a)
    params := if s.admits addrs then s.params
      else { s.params with memMap := addrs.map (fun a => ⟨a, a⟩) ++ s.params.memMap } }

/-! ### Start states -/

/-- One entry of a start state's optional list of registers with their values (R351). -/
inductive RegisterValue where
  /-- `x[r]`. -/
  | x (r : RegNum) (v : DWord)
  /-- `CRf[n]`. -/
  | crf (n : CrFieldNum) (v : BitVec 4)
  /-- XER, LR, CTR, TAR, SRR0 or SRR1. -/
  | spr (r : Spr) (v : DWord)
  deriving DecidableEq, Repr

/-- The state with one listed register at its value. -/
def State.withRegister (s : State) : RegisterValue → State
  | .x r v => s.setX r v
  | .crf n v => s.setCrField n v
  | .spr r v => s.setSpr r v

/-- A start state of R351: the parameters, the listed registers and the listed storage bytes are the user's. A register that
is not listed is zero, and of two entries for one register the later counts (log entry 1). -/
def State.start (p : Params) (registers : List RegisterValue) (bytes : Memory) : State :=
  registers.foldl State.withRegister (State.startUnlisted p bytes)

end Sys2Proof.Machine
end

