-- ==== Sys2Proof/Machine/Arith.lean ====
section
/-!
DEFINITION. The fixed-point arithmetic instruction (spec/44_arith.md rules R181, R182).
-/
namespace Sys2Proof.Machine

/-- `addi` (R181): modulo 2^64 in both modes, no flag. -/
def execAddi (rt ra : RegNum) (si : BitVec 16) (s : State) : Out :=
  .next (s.setX rt (s.ra0 ra + sextImm si)).advance

end Sys2Proof.Machine
end

