-- ==== Sys2Proof/Machine/Bcd.lean ====
section
/-!
DEFINITION. The Binary Coded Decimal assist instructions (spec/40_bcd_assist.md rules R141 to R144).
-/
namespace Sys2Proof.Machine

/-- A BCD digit from its four bits, the most significant first (R141). -/
def bcdDigit (b3 b2 b1 b0 : Bool) : BitVec 4 :=
  BitVec.ofBool b3 ++ BitVec.ofBool b2 ++ BitVec.ofBool b1 ++ BitVec.ofBool b0

/-- `DPD_TO_BCD(declet)` (R141): the rows of the table, by v, then w x, then s t. Total on every declet. -/
def dpdToBcd (declet : BitVec 10) : BitVec 12 :=
  let p := declet.getLsbD 9
  let q := declet.getLsbD 8
  let r := declet.getLsbD 7
  let s := declet.getLsbD 6
  let t := declet.getLsbD 5
  let u := declet.getLsbD 4
  let v := declet.getLsbD 3
  let w := declet.getLsbD 2
  let x := declet.getLsbD 1
  let y := declet.getLsbD 0
  match v, w, x, s, t with
  | false, _, _, _, _ => bcdDigit false p q r ++ bcdDigit false s t u ++ bcdDigit false w x y
  | true, false, false, _, _ => bcdDigit false p q r ++ bcdDigit false s t u ++ bcdDigit true false false y
  | true, false, true, _, _ => bcdDigit false p q r ++ bcdDigit true false false u ++ bcdDigit false s t y
  | true, true, false, _, _ => bcdDigit true false false r ++ bcdDigit false s t u ++ bcdDigit false p q y
  | true, true, true, false, false => bcdDigit true false false r ++ bcdDigit true false false u ++ bcdDigit false p q y
  | true, true, true, false, true => bcdDigit true false false r ++ bcdDigit false p q u ++ bcdDigit true false false y
  | true, true, true, true, false => bcdDigit false p q r ++ bcdDigit true false false u ++ bcdDigit true false false y
  | true, true, true, true, true =>
    bcdDigit true false false r ++ bcdDigit true false false u ++ bcdDigit true false false y

/-- `BCD_TO_DPD(triple)` (R141), for a triple whose digits are 0 to 9. -/
def bcdToDpd (triple : BitVec 12) : BitVec 10 :=
  let a := triple.getLsbD 11
  let b := triple.getLsbD 10
  let c := triple.getLsbD 9
  let d := triple.getLsbD 8
  let e := triple.getLsbD 7
  let f := triple.getLsbD 6
  let g := triple.getLsbD 5
  let h := triple.getLsbD 4
  let i := triple.getLsbD 3
  let j := triple.getLsbD 2
  let k := triple.getLsbD 1
  let m := triple.getLsbD 0
  let p := (f && a && i && !e) || (j && a && !i) || (b && !a)
  let q := (g && a && i && !e) || (k && a && !i) || (c && !a)
  let s := (j && !a && e && !i) || (f && !i && !e) || (f && !a && !e) || (e && i)
  let t := (k && !a && e && !i) || (g && !i && !e) || (g && !a && !e) || (a && i)
  let v := a || e || i
  let w := (!e && j && !i) || (e && i) || a
  let x := (!a && k && !i) || (a && i) || e
  BitVec.ofBool p ++ BitVec.ofBool q ++ BitVec.ofBool d ++ BitVec.ofBool s ++ BitVec.ofBool t ++ BitVec.ofBool h ++
    BitVec.ofBool v ++ BitVec.ofBool w ++ BitVec.ofBool x ++ BitVec.ofBool m

/-- One half of `cdtbcd`: two declets as six digits (R142). -/
def wordToBcd (wd : BitVec 32) : BitVec 32 :=
  0#8 ++ dpdToBcd (wd.extractLsb' 10 10) ++ dpdToBcd (wd.extractLsb' 0 10)

/-- One half of `cbcdtd`: six digits as two declets (R143). -/
def wordToDpd (wd : BitVec 32) : BitVec 32 :=
  0#12 ++ bcdToDpd (wd.extractLsb' 12 12) ++ bcdToDpd (wd.extractLsb' 0 12)

/-- The six low-order digits of a word are each 0 to 9 (R143). -/
def digitsValid (wd : BitVec 32) : Bool :=
  (List.range 6).all fun k => decide ((wd.extractLsb' (4 * k) 4).toNat ≤ 9)

/-- `s[63:32]`. -/
def highWord (v : DWord) : BitVec 32 := v.extractLsb' 32 32

/-- The carry out of digit k of a sum, all lower carries propagated: bit 4k+4 of the sum of the low-order 4k+4 bits
(R144). -/
def digitCarry (a b : DWord) (k : Nat) : Bool :=
  (a.toNat % 2 ^ (4 * k + 4) + b.toNat % 2 ^ (4 * k + 4)).testBit (4 * k + 4)

/-- The sixes of `addg6s`: digit k is 0 where it carries and 6 where it does not (R144). -/
def sixes (a b : DWord) : DWord :=
  (List.range 16).foldr (fun k acc => (acc <<< 4) ||| (if digitCarry a b k then 0#64 else 6#64)) 0

/-- `cdtbcd` (R142). -/
def execCdtbcd (rs ra : RegNum) (s : State) : Out :=
  let v := s.x rs
  .next (s.setX ra (wordToBcd (highWord v) ++ wordToBcd (lowWord v))).advance

/-- `cbcdtd` (R143): a digit above 9 in either half refuses. -/
def execCbcdtd (rs ra : RegNum) (s : State) : Out :=
  let v := s.x rs
  if digitsValid (highWord v) && digitsValid (lowWord v) then
    .next (s.setX ra (wordToDpd (highWord v) ++ wordToDpd (lowWord v))).advance
  else .refused (.invalidBcdDigit s.pc)

/-- `addg6s` (R144). -/
def execAddg6s (rt ra rb : RegNum) (s : State) : Out :=
  .next (s.setX rt (sixes (s.x ra) (s.x rb))).advance

end Sys2Proof.Machine
end

