-- ==== Sys2Proof/Machine/Branch.lean ====
section
/-!
DEFINITION. The branch instructions (spec/41_branch.md rules R151 to R159).
-/
namespace Sys2Proof.Machine

/-- `b`, `ba`, `bl`, `bla` (R152). -/
def execB (li : BitVec 24) (aa lk : Bool) (s : State) : Out :=
  .next ((s.linkIf lk).branchTo (s.target aa (liImm li)))

/-- `bc` and its forms (R155). -/
def execBc (bo : BitVec 5) (bi : CrBitNum) (bd : BitVec 14) (aa lk : Bool) (s : State) : Out :=
  .next (s.branchCond bo bi lk (s.target aa (bdImm bd)))

/-- `bclr`, `bclrl` (R156): the old LR is the target. BH is a hint (R121). -/
def execBclr (bo : BitVec 5) (bi : CrBitNum) (_bh : BitVec 2) (lk : Bool) (s : State) : Out :=
  .next (s.branchCond bo bi lk s.lr)

/-- `bcctr`, `bcctrl` (R157): the options that decrement CTR are an invalid form (R120). -/
def execBcctr (bo : BitVec 5) (bi : CrBitNum) (_bh : BitVec 2) (lk : Bool) (s : State) : Out :=
  if boDecrements bo then .refused (.invalidForm s.pc) else .next (s.branchCond bo bi lk s.ctr)

/-- `bctar`, `bctarl` (R158). -/
def execBctar (bo : BitVec 5) (bi : CrBitNum) (_bh : BitVec 2) (lk : Bool) (s : State) : Out :=
  .next (s.branchCond bo bi lk s.tar)

end Sys2Proof.Machine
end

