-- ==== Sys2Proof/Machine/CacheTlb.lean ====
section
/-!
DEFINITION. The data cache and TLB instructions (spec/52_sysreg_cache_tlb.md rules R269, R271 to R273).
-/
namespace Sys2Proof.Machine

/-- `dcbz` (R269): zeros in every byte of the block; not privileged, no alignment check. -/
def execDcbz (ra rb : RegNum) (s : State) : Out :=
  let ea := s.eaX ra rb
  s.store ea true (s.blockSpan ea) (List.replicate s.params.dcbzBlock 0)

/-- `tlbie` (R271): privileged, and there is no TLB. -/
def execTlbie (_rs : RegNum) (_ric : BitVec 2) (_prs _r : Bool) (_rb : RegNum) (s : State) : Out :=
  if s.privileged then .refused (.noTlb s.pc) else s.raisePrivileged

/-- `tlbiel` (R272): privileged, and there is no TLB. -/
def execTlbiel (_rs : RegNum) (_ric : BitVec 2) (_prs _r : Bool) (_rb : RegNum) (s : State) : Out :=
  if s.privileged then .refused (.noTlb s.pc) else s.raisePrivileged

/-- `tlbsync` (R273): privileged, and there is no TLB. -/
def execTlbsync (s : State) : Out :=
  if s.privileged then .refused (.noTlb s.pc) else s.raisePrivileged

end Sys2Proof.Machine
end

