-- ==== Sys2Proof/Machine/Compare.lean ====
section
/-!
DEFINITION. The fixed-point compare instructions (spec/42_compare.md rules R166 to R170).
-/
namespace Sys2Proof.Machine

/-- A signed comparison into a field (R166, R167, R170). -/
def State.compareSigned (s : State) (bf : CrFieldNum) (a b : DWord) : Out :=
  .next (s.setCompare bf (a.slt b) (b.slt a)).advance

/-- An unsigned comparison into a field (R168, R169, R170). -/
def State.compareUnsigned (s : State) (bf : CrFieldNum) (a b : DWord) : Out :=
  .next (s.setCompare bf (a.ult b) (b.ult a)).advance

/-- `cmpi` (R166). -/
def execCmpi (bf : CrFieldNum) (l : Bool) (ra : RegNum) (si : BitVec 16) (s : State) : Out :=
  s.compareSigned bf (signedOperand l (s.x ra)) (sextImm si)

/-- `cmp` (R167). -/
def execCmp (bf : CrFieldNum) (l : Bool) (ra rb : RegNum) (s : State) : Out :=
  s.compareSigned bf (signedOperand l (s.x ra)) (signedOperand l (s.x rb))

/-- `cmpli` (R168). -/
def execCmpli (bf : CrFieldNum) (l : Bool) (ra : RegNum) (ui : BitVec 16) (s : State) : Out :=
  s.compareUnsigned bf (unsignedOperand l (s.x ra)) (zextImm ui)

/-- `cmpl` (R169). -/
def execCmpl (bf : CrFieldNum) (l : Bool) (ra rb : RegNum) (s : State) : Out :=
  s.compareUnsigned bf (unsignedOperand l (s.x ra)) (unsignedOperand l (s.x rb))

end Sys2Proof.Machine
end

