-- ==== Sys2Proof/Machine/CrLogical.lean ====
section
/-!
DEFINITION. The Condition Register logical instruction (spec/43_cr_logical.md rule R176).
-/
namespace Sys2Proof.Machine

/-- `crand` (R176). -/
def execCrand (bt ba bb : CrBitNum) (s : State) : Out :=
  .next (s.setCrBit bt (s.crBit ba && s.crBit bb)).advance

end Sys2Proof.Machine
end

