-- ==== Sys2Proof/Machine/Load.lean ====
section
/-!
DEFINITION. The loads and the caching-inhibited load (spec/45_ldst_cache_inhibited.md rule R186, spec/46_load.md rules
R192 to R200). Storage attributes have no effect (R71).
-/
namespace Sys2Proof.Machine

/-- `MemRead(ea, n)` into a register, zero-extended (R62, R68). -/
def State.loadZero (s : State) (rt : RegNum) (ea : Addr) (n : Nat) (aligned : Bool) : Out :=
  s.load ea aligned (s.span ea n) fun bs => s.setX rt (fromStorage s.le 64 bs)

/-- `Rev(MemRead(ea, n), n)` into a register, zero-extended, after `CheckAlign(ea, n)` (R195). -/
def State.loadReversed (s : State) (rt : RegNum) (ea : Addr) (n : Nat) : Out :=
  s.load ea (s.alignOk ea n) (s.span ea n) fun bs => s.setX rt (rev n (fromStorage s.le 64 bs))

/-- Words packed from a run of bytes into the registers from `rt` on, register numbers wrapping past 31 (R200, R286). -/
def State.setWords (s : State) (rt : RegNum) (count : Nat) (bs : List Byte) : State :=
  (List.range count).foldl (fun s k => s.setX (rt + BitVec.ofNat 5 k) (packWord bs k)) s

/-- `lbzcix` (R186): only in hypervisor state. -/
def execLbzcix (rt ra rb : RegNum) (s : State) : Out :=
  if s.hypervisor then s.loadZero rt (s.eaX ra rb) 1 true else s.raisePrivileged

/-- `lbz` (R192). -/
def execLbz (rt ra : RegNum) (d : BitVec 16) (s : State) : Out := s.loadZero rt (s.eaD ra d) 1 true

/-- `lq` (R194): an odd RTp, or RTp = RA, is an invalid form; the address is a multiple of 16 whatever MISALIGN is. -/
def execLq (rtp ra : RegNum) (dq : BitVec 12) (s : State) : Out :=
  if rtp.getLsbD 0 || rtp == ra then .refused (.invalidForm s.pc)
  else
    let ea := s.eaDQ ra dq
    s.load ea (isMultiple ea 16) (s.span ea 16) fun bs =>
      let q := fromStorage s.le 128 bs
      (s.setX rtp (q.extractLsb' 64 64)).setX (rtp + 1) (q.extractLsb' 0 64)

/-- `lhbrx` (R196). -/
def execLhbrx (rt ra rb : RegNum) (s : State) : Out := s.loadReversed rt (s.eaX ra rb) 2

/-- `lwbrx` (R197). -/
def execLwbrx (rt ra rb : RegNum) (s : State) : Out := s.loadReversed rt (s.eaX ra rb) 4

/-- `ldbrx` (R198). -/
def execLdbrx (rt ra rb : RegNum) (s : State) : Out := s.loadReversed rt (s.eaX ra rb) 8

/-- `lmw` (R200): RA among the registers loaded is an invalid form; Alignment in Little-Endian mode. -/
def execLmw (rt ra : RegNum) (d : BitVec 16) (s : State) : Out :=
  if rt.ule ra then .refused (.invalidForm s.pc)
  else
    let ea := s.eaD ra d
    let n := 32 - rt.toNat
    s.load ea (!s.le && s.alignOk ea 4) (s.span ea (4 * n)) fun bs => s.setWords rt n bs

end Sys2Proof.Machine
end

