-- ==== Sys2Proof/Machine/Logical.lean ====
section
/-!
DEFINITION. The fixed-point logical instructions (spec/47_logical.md rules R212, R213).
-/
namespace Sys2Proof.Machine

/-- `andi.` (R212). -/
def execAndiRc (rs ra : RegNum) (ui : BitVec 16) (s : State) : Out :=
  let v := s.x rs &&& zextImm ui
  .next ((s.setX ra v).recordCr0 v).advance

/-- `andis.` (R213). -/
def execAndisRc (rs ra : RegNum) (ui : BitVec 16) (s : State) : Out :=
  let v := s.x rs &&& zextImmShifted ui
  .next ((s.setX ra v).recordCr0 v).advance

end Sys2Proof.Machine
end

