-- ==== Sys2Proof/Machine/RotateShift.lean ====
section
/-!
DEFINITION. The rotate and shift instructions (spec/48_rotate_shift.md rules R223, R225).
-/
namespace Sys2Proof.Machine

/-- The result of `rlwinm`: the rotated word in both halves, under the mask (R223). -/
def rotateAndMask (v : DWord) (sh mb me : BitVec 5) : DWord :=
  let r32 := rotl32 (lowWord v) sh.toNat
  (r32 ++ r32 : BitVec 64) &&& ibmMask (mb.toNat + 32) (me.toNat + 32)

/-- The result of `slw`: the shift amount is the low six bits, and one above 31 leaves zero (R225). -/
def shiftLeftWord (v amount : DWord) : DWord :=
  let n := (amount.extractLsb' 0 6).toNat
  if n > 31 then 0 else (lowWord v <<< n).setWidth 64

/-- `rlwinm`, `rlwinm.` (R223). -/
def execRlwinm (rs ra : RegNum) (sh mb me : BitVec 5) (rc : Bool) (s : State) : Out :=
  let v := rotateAndMask (s.x rs) sh mb me
  .next ((s.setX ra v).recordIf rc v).advance

/-- `slw`, `slw.` (R225). -/
def execSlw (rs ra rb : RegNum) (rc : Bool) (s : State) : Out :=
  let v := shiftLeftWord (s.x rs) (s.x rb)
  .next ((s.setX ra v).recordIf rc v).advance

end Sys2Proof.Machine
end

