-- ==== Sys2Proof/Machine/SetVl.lean ====
section
/-!
DEFINITION. `setvl`, which the spec names and gives no encoding and no meaning (spec/51_setvl.md rule R256).
-/
namespace Sys2Proof.Machine

/-- `setvl`: "A model that is handed `setvl` by name … does raise Refused(setvl not specified)" (R256). -/
def execSetvl (s : State) : Out := .refused (.setvlNotSpecified s.pc)

end Sys2Proof.Machine
end

