-- ==== Sys2Proof/Machine/Store.lean ====
section
/-!
DEFINITION. The stores (spec/49_store.md rules R232 to R242).
-/
namespace Sys2Proof.Machine

/-- `MemWrite(ea, n, v)` (R63). -/
def State.storeValue {w : Nat} (s : State) (ea : Addr) (n : Nat) (aligned : Bool) (v : BitVec w) : Out :=
  s.store ea aligned (s.span ea n) (toStorage s.le n v)

/-- `MemWrite(ea, n, Rev(v, n))` after `CheckAlign(ea, n)` (R237). -/
def State.storeReversed (s : State) (ea : Addr) (n : Nat) (v : DWord) : Out :=
  s.storeValue ea n (s.alignOk ea n) (rev n v)

/-- The bytes of the low-order words of `x[rs]` to `x[31]`, each most significant first (R242). -/
def State.multipleBytes (s : State) (rs : RegNum) : List Byte :=
  (List.range (32 - rs.toNat)).flatMap fun k => bytesOf 4 (s.x (rs + BitVec.ofNat 5 k))

/-- `stb` (R232). -/
def execStb (rs ra : RegNum) (d : BitVec 16) (s : State) : Out := s.storeValue (s.eaD ra d) 1 true (s.x rs)

/-- `std` (R234). -/
def execStd (rs ra : RegNum) (ds : BitVec 14) (s : State) : Out :=
  s.storeValue (s.eaDS ra ds) 8 (s.alignOk (s.eaDS ra ds) 8) (s.x rs)

/-- `stq` (R236): an odd RSp is an invalid form; the address is a multiple of 16 whatever MISALIGN is. -/
def execStq (rsp ra : RegNum) (ds : BitVec 14) (s : State) : Out :=
  if rsp.getLsbD 0 then .refused (.invalidForm s.pc)
  else
    let ea := s.eaDS ra ds
    s.storeValue ea 16 (isMultiple ea 16) (s.x rsp ++ s.x (rsp + 1))

/-- `sthbrx` (R238). -/
def execSthbrx (rs ra rb : RegNum) (s : State) : Out := s.storeReversed (s.eaX ra rb) 2 (s.x rs)

/-- `stwbrx` (R239). -/
def execStwbrx (rs ra rb : RegNum) (s : State) : Out := s.storeReversed (s.eaX ra rb) 4 (s.x rs)

/-- `stdbrx` (R240). -/
def execStdbrx (rs ra rb : RegNum) (s : State) : Out := s.storeReversed (s.eaX ra rb) 8 (s.x rs)

/-- `stmw` (R242): Alignment in Little-Endian mode. -/
def execStmw (rs ra : RegNum) (d : BitVec 16) (s : State) : Out :=
  let ea := s.eaD ra d
  s.store ea (!s.le && s.alignOk ea 4) (s.span ea (4 * (32 - rs.toNat))) (s.multipleBytes rs)

end Sys2Proof.Machine
end

