-- ==== Sys2Proof/Machine/StringMove.lean ====
section
/-!
DEFINITION. The move assist instruction (spec/53_string.md rule R286).
-/
namespace Sys2Proof.Machine

/-- How many registers a string of n bytes fills: ceil(n / 4) (R286). -/
def stringRegs (n : Nat) : Nat := (n + 3) / 4

/-- RA is among the `count` registers from `rt` on, the numbers wrapping past 31 (R286). -/
def inWrappedRange (rt ra : RegNum) (count : Nat) : Bool := decide ((ra - rt).toNat < count)

/-- `lswi` (R286): RA among the registers loaded, RA = 0 included, is an invalid form; Alignment in Little-Endian mode,
and no alignment check otherwise. -/
def execLswi (rt ra : RegNum) (nb : BitVec 5) (s : State) : Out :=
  let n := nbCount nb
  if inWrappedRange rt ra (stringRegs n) then .refused (.invalidForm s.pc)
  else
    let ea := s.eaBase ra
    s.load ea (!s.le) (s.span ea n) fun bs => s.setWords rt (stringRegs n) bs

end Sys2Proof.Machine
end

