-- ==== Sys2Proof/Machine/SysReg.lean ====
section
/-!
DEFINITION. Moves to and from the system registers (spec/52_sysreg_cache_tlb.md rules R262 to R267).
-/
namespace Sys2Proof.Machine

/-- The MSR that `mtmsr` with L = 0 writes from `r`: the fields R267 lists, EE, IR and DR each set as well where PR is. -/
def mtmsrAll (msr r : DWord) : DWord :=
  setBit 4 (r.getLsbD 4 || r.getLsbD 14) <|
  setBit 5 (r.getLsbD 5 || r.getLsbD 14) <|
  setBit 15 (r.getLsbD 15 || r.getLsbD 14) <|
  copyField 3 1 r <| copyField 11 6 r <| copyField 14 13 r <| copyField 21 16 r <| copyField 31 23 r msr

/-- The MSR that `mtmsr` with L = 1 writes from `r`: EE and RI (R267). -/
def mtmsrEeRi (msr r : DWord) : DWord := setBit 1 (r.getLsbD 1) (setBit 15 (r.getLsbD 15) msr)

/-- `mtspr` (R262, R264). -/
def execMtspr (rs : RegNum) (n : BitVec 10) (s : State) : Out :=
  s.withSpr n fun r => .next (s.setSpr r (s.x rs)).advance

/-- `mfspr` (R263, R264). -/
def execMfspr (rt : RegNum) (n : BitVec 10) (s : State) : Out :=
  s.withSpr n fun r => .next (s.setX rt (s.spr r)).advance

/-- `mcrxrx` (R265). -/
def execMcrxrx (bf : CrFieldNum) (s : State) : Out := .next (s.setCrField bf s.xerExtended).advance

/-- `mtmsr` (R267): privileged. -/
def execMtmsr (rs : RegNum) (l : Bool) (s : State) : Out :=
  if s.privileged then
    .next { s with msr := if l then mtmsrEeRi s.msr (s.x rs) else mtmsrAll s.msr (s.x rs) }.advance
  else s.raisePrivileged

end Sys2Proof.Machine
end

