-- ==== Sys2Proof/Machine/SystemCall.lean ====
section
/-!
DEFINITION. The system linkage instruction (spec/54_system_call.md rule R291).
-/
namespace Sys2Proof.Machine

/-- `sc` (R291): not privileged. -/
def execSc (lev : BitVec 7) (s : State) : Out := s.raiseSystemCall lev

end Sys2Proof.Machine
end

