-- ==== Sys2Proof/Machine/Trap.lean ====
section
/-!
DEFINITION. The trap instruction (spec/50_trap.md rule R251).
-/
namespace Sys2Proof.Machine

/-- A condition selected by TO holds: TO[4] signed less, TO[3] signed greater, TO[2] equal, TO[1] unsigned less, TO[0]
unsigned greater (R251). -/
def trapCondition (trapOn : BitVec 5) (a b : DWord) : Bool :=
  (trapOn.getLsbD 4 && a.slt b) || (trapOn.getLsbD 3 && b.slt a) || (trapOn.getLsbD 2 && a == b) ||
    (trapOn.getLsbD 1 && a.ult b) || (trapOn.getLsbD 0 && b.ult a)

/-- `twi` (R251): the low-order word of RA, sign-extended, against SI. -/
def execTwi (trapOn : BitVec 5) (ra : RegNum) (si : BitVec 16) (s : State) : Out :=
  if trapCondition trapOn (signedOperand false (s.x ra)) (sextImm si) then s.raiseTrap else .next s.advance

end Sys2Proof.Machine
end

