-- ==== Sys2Proof/Machine/Dispatch.lean ====
section
/-!
DEFINITION. exec: one arm per constructor of Instr, each a call of the instruction's meaning.
-/
namespace Sys2Proof.Machine

def exec (i : Instr) (s : State) : Host.Outcome State Fault Refusal :=
  match i with
  | .cdtbcd rs ra => Sys2Proof.Machine.execCdtbcd rs ra s
  | .cbcdtd rs ra => Sys2Proof.Machine.execCbcdtd rs ra s
  | .addg6s rt ra rb => Sys2Proof.Machine.execAddg6s rt ra rb s
  | .b li aa lk => Sys2Proof.Machine.execB li aa lk s
  | .bc bo bi bd aa lk => Sys2Proof.Machine.execBc bo bi bd aa lk s
  | .bclr bo bi bh lk => Sys2Proof.Machine.execBclr bo bi bh lk s
  | .bcctr bo bi bh lk => Sys2Proof.Machine.execBcctr bo bi bh lk s
  | .bctar bo bi bh lk => Sys2Proof.Machine.execBctar bo bi bh lk s
  | .cmpi bf l ra si => Sys2Proof.Machine.execCmpi bf l ra si s
  | .cmp bf l ra rb => Sys2Proof.Machine.execCmp bf l ra rb s
  | .cmpli bf l ra ui => Sys2Proof.Machine.execCmpli bf l ra ui s
  | .cmpl bf l ra rb => Sys2Proof.Machine.execCmpl bf l ra rb s
  | .crand bt ba bb => Sys2Proof.Machine.execCrand bt ba bb s
  | .addi rt ra si => Sys2Proof.Machine.execAddi rt ra si s
  | .lbzcix rt ra rb => Sys2Proof.Machine.execLbzcix rt ra rb s
  | .lbz rt ra d => Sys2Proof.Machine.execLbz rt ra d s
  | .lq rtp ra dq => Sys2Proof.Machine.execLq rtp ra dq s
  | .lhbrx rt ra rb => Sys2Proof.Machine.execLhbrx rt ra rb s
  | .lwbrx rt ra rb => Sys2Proof.Machine.execLwbrx rt ra rb s
  | .ldbrx rt ra rb => Sys2Proof.Machine.execLdbrx rt ra rb s
  | .lmw rt ra d => Sys2Proof.Machine.execLmw rt ra d s
  | .andiRc rs ra ui => Sys2Proof.Machine.execAndiRc rs ra ui s
  | .andisRc rs ra ui => Sys2Proof.Machine.execAndisRc rs ra ui s
  | .rlwinm rs ra sh mb me rc => Sys2Proof.Machine.execRlwinm rs ra sh mb me rc s
  | .slw rs ra rb rc => Sys2Proof.Machine.execSlw rs ra rb rc s
  | .stb rs ra d => Sys2Proof.Machine.execStb rs ra d s
  | .std rs ra ds => Sys2Proof.Machine.execStd rs ra ds s
  | .stq rsp ra ds => Sys2Proof.Machine.execStq rsp ra ds s
  | .sthbrx rs ra rb => Sys2Proof.Machine.execSthbrx rs ra rb s
  | .stwbrx rs ra rb => Sys2Proof.Machine.execStwbrx rs ra rb s
  | .stdbrx rs ra rb => Sys2Proof.Machine.execStdbrx rs ra rb s
  | .stmw rs ra d => Sys2Proof.Machine.execStmw rs ra d s
  | .twi trapOn ra si => Sys2Proof.Machine.execTwi trapOn ra si s
  | .mtspr rs n => Sys2Proof.Machine.execMtspr rs n s
  | .mfspr rt n => Sys2Proof.Machine.execMfspr rt n s
  | .mcrxrx bf => Sys2Proof.Machine.execMcrxrx bf s
  | .mtmsr rs l => Sys2Proof.Machine.execMtmsr rs l s
  | .dcbz ra rb => Sys2Proof.Machine.execDcbz ra rb s
  | .tlbie rs ric prs r rb => Sys2Proof.Machine.execTlbie rs ric prs r rb s
  | .tlbiel rs ric prs r rb => Sys2Proof.Machine.execTlbiel rs ric prs r rb s
  | .tlbsync => Sys2Proof.Machine.execTlbsync s
  | .lswi rt ra nb => Sys2Proof.Machine.execLswi rt ra nb s
  | .sc lev => Sys2Proof.Machine.execSc lev s
  | .setvl => Sys2Proof.Machine.execSetvl s

end Sys2Proof.Machine
end

