-- ==== Sys2Proof/Machine/Step.lean ====
section
/-!
DEFINITION. One step of the machine (spec/00_scope.md rule R16) and the placing of one instruction for the next step.
-/
namespace Sys2Proof.Machine

/-- Fetch, decode, perform (R16). A word that matches no row is an illegal instruction (R118, R312). -/
def step (s : State) : Host.Outcome State Fault Refusal :=
  match s.fetch with
  | .error e => stopOut e
  | .ok w =>
    match decode w with
    | none => .fault (.illegalInstruction w s.pc)
    | some i => exec i s

/-- `s` with the instruction word of a table row's bits where the next step fetches, in the byte order of `s` (log entry
11). -/
def State.withFetchWord (s : State) (nbits w : Nat) : State := s.placeWord (tableWord nbits w)

end Sys2Proof.Machine
end

