-- ==== Sys2Proof/Safety.lean ====
section
/-!
DEFINITION. The terms the statements are written in: a safe run, the invariant of a state, what an instruction may
change and what stays (its frame), the opcode map of the spec as masks and patterns, and the conditions under which an
instruction is an invalid form, lacks privilege, or fails its alignment check. The tables here are
read from the spec apart from the meanings; addresses are computed by the functions of Machine/Operands.lean, which the
statement EffectiveAddresses pins to numbers.
-/
namespace Sys2Proof.Machine

/-! ### Runs -/

/-- A run of k steps that ends in no refusal: "A proof about a program must show that no step refuses" (R302). -/
def SafeRun (k : Nat) (s : State) : Prop := ∀ r, Host.Core.run Sys2Proof.core k s ≠ .refused r

/-! ### The invariant -/

/-- What holds of every start state of R351 and is kept by every step. -/
structure Inv (s : State) : Prop where
  /-- `pc[1:0]` is 0 (R32). -/
  pcAligned : s.pc.toNat % 4 = 0
  /-- In 32-bit mode the high-order half of `pc` is zero (R32). -/
  pcInMode : s.sf = false → s.pc.toNat < 2 ^ 32
  /-- Storage is in canonical form. -/
  memWf : s.mem.wf
  /-- Every byte that has a value exists (R351). -/
  memExists : ∀ a, (s.mem.read a).isSome → admitted s.params.memMap a = true
  /-- The marks are in canonical form. -/
  marksOrdered : marksWf s.stored
  /-- Every marked byte has a value (R79). -/
  marksWritten : ∀ a ∈ s.stored, (s.mem.read a).isSome

/-! ### Frames -/

/-- Between s and t nothing changes but the listed general registers, Condition Register bits, special purpose registers
and bytes of storage, the MSR and `pc`. The marks grow by the bytes of storage listed (R79). -/
structure Untouched (s t : State) (gprs : List RegNum) (crBits : List CrBitNum) (sprs : List Spr) (bytes : List Nat) :
    Prop where
  gpr : ∀ r, r ∉ gprs → t.x r = s.x r
  cr : ∀ b, b ∉ crBits → t.crBit b = s.crBit b
  spr : ∀ r, r ∉ sprs → t.spr r = s.spr r
  mem : ∀ a, a ∉ bytes → t.mem.read a = s.mem.read a
  marks : ∀ a, a ∈ t.stored ↔ a ∈ s.stored ∨ a ∈ bytes
  params : t.params = s.params

/-- As Untouched, and the MSR does not change either. `pc` alone is left open. -/
structure Frame (s t : State) (gprs : List RegNum) (crBits : List CrBitNum) (sprs : List Spr) (bytes : List Nat) :
    Prop extends Untouched s t gprs crBits sprs bytes where
  msr : t.msr = s.msr

/-- The four bits of a Condition Register field (R25). -/
def fieldBits (f : CrFieldNum) : List CrBitNum := [f ++ 0#2, f ++ 1#2, f ++ 2#2, f ++ 3#2]

/-- `count` register numbers from r on, wrapping past 31. -/
def regsFrom (r : RegNum) (count : Nat) : List RegNum := (List.range count).map fun k => r + BitVec.ofNat 5 k

/-- The bits a record form writes: field 0 when it records (R27). -/
def recordBits (rc : Bool) : List CrBitNum := if rc then fieldBits 0 else []

/-- LR, when LK is 1 (R159). -/
def linkSpr (lk : Bool) : List Spr := if lk then [.lr] else []

/-- CTR, when `BO[2]` is 0 (R154). -/
def ctrSpr (bo : BitVec 5) : List Spr := if bo.getLsbD 2 then [] else [.ctr]

/-- The general registers an instruction writes (R23). -/
def gprTargets : Instr → List RegNum
  | .cdtbcd _ ra | .cbcdtd _ ra => [ra]
  | .addg6s rt _ _ | .addi rt _ _ | .lbzcix rt _ _ | .lbz rt _ _ => [rt]
  | .lhbrx rt _ _ | .lwbrx rt _ _ | .ldbrx rt _ _ | .mfspr rt _ => [rt]
  | .lq rtp _ _ => [rtp, rtp + 1]
  | .lmw rt _ _ => regsFrom rt (32 - rt.toNat)
  | .lswi rt _ nb => regsFrom rt (((if nb = 0 then 32 else nb.toNat) + 3) / 4)
  | .andiRc _ ra _ | .andisRc _ ra _ | .rlwinm _ ra _ _ _ _ | .slw _ ra _ _ => [ra]
  | .b _ _ _ | .bc _ _ _ _ _ | .bclr _ _ _ _ | .bcctr _ _ _ _ | .bctar _ _ _ _ => []
  | .cmpi _ _ _ _ | .cmp _ _ _ _ | .cmpli _ _ _ _ | .cmpl _ _ _ _ | .crand _ _ _ => []
  | .stb _ _ _ | .std _ _ _ | .stq _ _ _ | .sthbrx _ _ _ | .stwbrx _ _ _ | .stdbrx _ _ _ | .stmw _ _ _ => []
  | .twi _ _ _ | .mtspr _ _ | .mcrxrx _ | .mtmsr _ _ | .dcbz _ _ => []
  | .tlbie _ _ _ _ _ | .tlbiel _ _ _ _ _ | .tlbsync | .sc _ | .setvl => []

/-- The Condition Register bits an instruction writes (R28). -/
def crTargets : Instr → List CrBitNum
  | .cmpi bf _ _ _ | .cmp bf _ _ _ | .cmpli bf _ _ _ | .cmpl bf _ _ _ | .mcrxrx bf => fieldBits bf
  | .crand bt _ _ => [bt]
  | .andiRc _ _ _ | .andisRc _ _ _ => fieldBits 0
  | .rlwinm _ _ _ _ _ rc | .slw _ _ _ rc => recordBits rc
  | .cdtbcd _ _ | .cbcdtd _ _ | .addg6s _ _ _ | .addi _ _ _ => []
  | .b _ _ _ | .bc _ _ _ _ _ | .bclr _ _ _ _ | .bcctr _ _ _ _ | .bctar _ _ _ _ => []
  | .lbzcix _ _ _ | .lbz _ _ _ | .lq _ _ _ | .lhbrx _ _ _ | .lwbrx _ _ _ | .ldbrx _ _ _ | .lmw _ _ _ | .lswi _ _ _ => []
  | .stb _ _ _ | .std _ _ _ | .stq _ _ _ | .sthbrx _ _ _ | .stwbrx _ _ _ | .stdbrx _ _ _ | .stmw _ _ _ => []
  | .twi _ _ _ | .mtspr _ _ | .mfspr _ _ | .mtmsr _ _ | .dcbz _ _ => []
  | .tlbie _ _ _ _ _ | .tlbiel _ _ _ _ _ | .tlbsync | .sc _ | .setvl => []

/-- The special purpose registers an instruction writes when it raises nothing (R33 to R35, R38, R41). -/
def sprTargets : Instr → List Spr
  | .b _ _ lk | .bcctr _ _ _ lk => linkSpr lk
  | .bc bo _ _ _ lk | .bclr bo _ _ lk | .bctar bo _ _ lk => ctrSpr bo ++ linkSpr lk
  | .mtspr _ n => (sprOf n).toList
  | .cdtbcd _ _ | .cbcdtd _ _ | .addg6s _ _ _ | .addi _ _ _ | .mfspr _ _ => []
  | .lbzcix _ _ _ | .lbz _ _ _ | .lq _ _ _ | .lhbrx _ _ _ | .lwbrx _ _ _ | .ldbrx _ _ _ | .lmw _ _ _ | .lswi _ _ _ => []
  | .andiRc _ _ _ | .andisRc _ _ _ | .rlwinm _ _ _ _ _ _ | .slw _ _ _ _ => []
  | .cmpi _ _ _ _ | .cmp _ _ _ _ | .cmpli _ _ _ _ | .cmpl _ _ _ _ | .crand _ _ _ | .mcrxrx _ => []
  | .stb _ _ _ | .std _ _ _ | .stq _ _ _ | .sthbrx _ _ _ | .stwbrx _ _ _ | .stdbrx _ _ _ | .stmw _ _ _ => []
  | .twi _ _ _ | .mtmsr _ _ | .dcbz _ _ | .tlbie _ _ _ _ _ | .tlbiel _ _ _ _ _ | .tlbsync | .sc _ | .setvl => []

/-- The addresses of the bytes an instruction stores to, from the registers as they are before it (R61, R63, R269). -/
def storeTargets : Instr → State → List Nat
  | .stb _ ra d, s => s.span (s.eaD ra d) 1
  | .std _ ra ds, s => s.span (s.eaDS ra ds) 8
  | .stq _ ra ds, s => s.span (s.eaDS ra ds) 16
  | .sthbrx _ ra rb, s => s.span (s.eaX ra rb) 2
  | .stwbrx _ ra rb, s => s.span (s.eaX ra rb) 4
  | .stdbrx _ ra rb, s => s.span (s.eaX ra rb) 8
  | .stmw rs ra d, s => s.span (s.eaD ra d) (4 * (32 - rs.toNat))
  | .dcbz ra rb, s => s.blockSpan (s.eaX ra rb)
  | .cdtbcd _ _, _ | .cbcdtd _ _, _ | .addg6s _ _ _, _ | .addi _ _ _, _ | .mfspr _ _, _ | .mtspr _ _, _ => []
  | .lbzcix _ _ _, _ | .lbz _ _ _, _ | .lq _ _ _, _ | .lhbrx _ _ _, _ | .lwbrx _ _ _, _ | .ldbrx _ _ _, _ => []
  | .lmw _ _ _, _ | .lswi _ _ _, _ | .andiRc _ _ _, _ | .andisRc _ _ _, _ => []
  | .rlwinm _ _ _ _ _ _, _ | .slw _ _ _ _, _ => []
  | .b _ _ _, _ | .bc _ _ _ _ _, _ | .bclr _ _ _ _, _ | .bcctr _ _ _ _, _ | .bctar _ _ _ _, _ => []
  | .cmpi _ _ _ _, _ | .cmp _ _ _ _, _ | .cmpli _ _ _ _, _ | .cmpl _ _ _ _, _ | .crand _ _ _, _ | .mcrxrx _, _ => []
  | .twi _ _ _, _ | .mtmsr _ _, _ | .tlbie _ _ _ _ _, _ | .tlbiel _ _ _ _ _, _ => []
  | .tlbsync, _ | .sc _, _ | .setvl, _ => []

/-! ### Results bit by bit -/

/-- The four bits of a Condition Register field, the first (LT) to the fourth (SO) (R25, R26). -/
abbrev FieldIs (t : State) (f : CrFieldNum) (b0 b1 b2 b3 : Bool) : Prop :=
  t.crBit (f ++ 0#2) = b0 ∧ t.crBit (f ++ 1#2) = b1 ∧ t.crBit (f ++ 2#2) = b2 ∧ t.crBit (f ++ 3#2) = b3

/-- CR0 is recorded from the value left in `x[ra]`: read as a signed number, all of it in 64-bit mode and its low-order
word in 32-bit mode, and XER.SO (R27). -/
def RecordsCr0 (s t : State) (ra : RegNum) : Prop :=
  ∀ v : Int, v = (if s.sf then (t.x ra).toInt else ((t.x ra).setWidth 32).toInt) →
    FieldIs t 0 (decide (v < 0)) (decide (0 < v)) (decide (v = 0)) (s.xer.getLsbD 31)

/-- A register operand of a compare as a signed number: all of it, or its low-order word (R170). -/
def signedView (l : Bool) (v : DWord) : Int := if l then v.toInt else (v.setWidth 32).toInt

/-- A register operand of a compare as an unsigned number: all of it, or its low-order word (R170). -/
def unsignedView (l : Bool) (v : DWord) : Nat := if l then v.toNat else v.toNat % 2 ^ 32

/-- The byte of v at place k, counted from the least significant. -/
def byteOf (v : DWord) (k : Nat) : Byte := v.extractLsb' (8 * k) 8

/-! ### Landing of a branch -/

/-- A conditional branch is taken, `ctr` being CTR as the instruction leaves it: the two tests of R154, each left out where
its BO bit says so. -/
abbrev BranchTaken (s : State) (bo : BitVec 5) (bi : CrBitNum) (ctr : DWord) : Prop :=
  (bo.getLsbD 2 = true ∨ (ctr.toNat % (if s.sf then 2 ^ 64 else 2 ^ 32) ≠ 0 ↔ bo.getLsbD 1 = false)) ∧
    (bo.getLsbD 4 = true ∨ s.crBit bi = bo.getLsbD 3)

/-- `pc` after a branch to the address `target` taken in the mode of s: modulo 2^64 or 2^32, the two low-order bits
ignored (R151). -/
abbrev LandsAt (s t : State) (target : Int) : Prop :=
  (t.pc.toNat : Int) = target % (if s.sf then 2 ^ 64 else 2 ^ 32) / 4 * 4

/-! ### Data accesses (R61, R65, R68) -/

/-- One data access: its direction, its effective address, its bytes, the n of its CheckAlign (1 where there is none),
whether that check is made whatever MISALIGN is, and whether the access is confined to Big-Endian mode. -/
structure DataAccess where
  dir : Access
  ea : Addr
  bytes : List Nat
  unit : Nat
  always : Bool
  bigEndianOnly : Bool

/-- The data access an instruction makes: the tables of R61, R65 and R68. -/
def dataAccess : Instr → State → Option DataAccess
  | .lbzcix _ ra rb, s => some ⟨.load, s.eaX ra rb, s.span (s.eaX ra rb) 1, 1, false, false⟩
  | .lbz _ ra d, s => some ⟨.load, s.eaD ra d, s.span (s.eaD ra d) 1, 1, false, false⟩
  | .lq _ ra dq, s => some ⟨.load, s.eaDQ ra dq, s.span (s.eaDQ ra dq) 16, 16, true, false⟩
  | .lhbrx _ ra rb, s => some ⟨.load, s.eaX ra rb, s.span (s.eaX ra rb) 2, 2, false, false⟩
  | .lwbrx _ ra rb, s => some ⟨.load, s.eaX ra rb, s.span (s.eaX ra rb) 4, 4, false, false⟩
  | .ldbrx _ ra rb, s => some ⟨.load, s.eaX ra rb, s.span (s.eaX ra rb) 8, 8, false, false⟩
  | .lmw rt ra d, s => some ⟨.load, s.eaD ra d, s.span (s.eaD ra d) (4 * (32 - rt.toNat)), 4, false, true⟩
  | .lswi _ ra nb, s =>
    some ⟨.load, s.eaBase ra, s.span (s.eaBase ra) (if nb = 0 then 32 else nb.toNat), 1, false, true⟩
  | .stb _ ra d, s => some ⟨.store, s.eaD ra d, s.span (s.eaD ra d) 1, 1, false, false⟩
  | .std _ ra ds, s => some ⟨.store, s.eaDS ra ds, s.span (s.eaDS ra ds) 8, 8, false, false⟩
  | .stq _ ra ds, s => some ⟨.store, s.eaDS ra ds, s.span (s.eaDS ra ds) 16, 16, true, false⟩
  | .sthbrx _ ra rb, s => some ⟨.store, s.eaX ra rb, s.span (s.eaX ra rb) 2, 2, false, false⟩
  | .stwbrx _ ra rb, s => some ⟨.store, s.eaX ra rb, s.span (s.eaX ra rb) 4, 4, false, false⟩
  | .stdbrx _ ra rb, s => some ⟨.store, s.eaX ra rb, s.span (s.eaX ra rb) 8, 8, false, false⟩
  | .stmw rs ra d, s => some ⟨.store, s.eaD ra d, s.span (s.eaD ra d) (4 * (32 - rs.toNat)), 4, false, true⟩
  | .dcbz ra rb, s => some ⟨.store, s.eaX ra rb, s.blockSpan (s.eaX ra rb), 1, false, false⟩
  | .cdtbcd _ _, _ | .cbcdtd _ _, _ | .addg6s _ _ _, _ | .addi _ _ _, _ | .mfspr _ _, _ | .mtspr _ _, _ => none
  | .andiRc _ _ _, _ | .andisRc _ _ _, _ | .rlwinm _ _ _ _ _ _, _ | .slw _ _ _ _, _ => none
  | .b _ _ _, _ | .bc _ _ _ _ _, _ | .bclr _ _ _ _, _ | .bcctr _ _ _ _, _ | .bctar _ _ _ _, _ => none
  | .cmpi _ _ _ _, _ | .cmp _ _ _ _, _ | .cmpli _ _ _ _, _ | .cmpl _ _ _ _, _ | .crand _ _ _, _ | .mcrxrx _, _ => none
  | .twi _ _ _, _ | .mtmsr _ _, _ | .tlbie _ _ _ _ _, _ | .tlbiel _ _ _ _ _, _ => none
  | .tlbsync, _ | .sc _, _ | .setvl, _ => none

/-- The access raises Alignment: an address that is no multiple of n where the check is made, or Little-Endian mode where
the access is confined to Big-Endian mode (R65, R194, R200, R236, R242, R286). -/
abbrev DataAccess.misaligned (a : DataAccess) (s : State) : Prop :=
  (a.ea.toNat % a.unit ≠ 0 ∧ (a.always = true ∨ s.params.misalign = .fault)) ∨ (a.bigEndianOnly = true ∧ s.le = true)

/-- The checks of R81 that a data access makes before anything is read or written, all passed. -/
abbrev DataAccess.permitted (a : DataAccess) (s : State) : Prop :=
  s.dr = false ∧ ¬ a.misaligned s ∧ ∀ b ∈ a.bytes, admitted s.params.memMap b = true

/-! ### Invalid forms and privilege -/

/-- The invalid forms of R120, register numbers compared as numbers. -/
def InvalidForm : Instr → Prop
  | .bcctr bo _ _ _ => bo.getLsbD 2 = false
  | .lq rtp ra _ => rtp.toNat % 2 = 1 ∨ rtp = ra
  | .stq rsp _ _ => rsp.toNat % 2 = 1
  | .lmw rt ra _ => rt.toNat ≤ ra.toNat
  | .lswi rt ra nb => ∃ k, k < ((if nb = 0 then 32 else nb.toNat) + 3) / 4 ∧ (rt.toNat + k) % 32 = ra.toNat
  | .cdtbcd _ _ | .cbcdtd _ _ | .addg6s _ _ _ | .addi _ _ _ | .mfspr _ _ | .mtspr _ _ | .mcrxrx _ | .mtmsr _ _ => False
  | .lbzcix _ _ _ | .lbz _ _ _ | .lhbrx _ _ _ | .lwbrx _ _ _ | .ldbrx _ _ _ | .dcbz _ _ | .twi _ _ _ | .sc _ => False
  | .stb _ _ _ | .std _ _ _ | .sthbrx _ _ _ | .stwbrx _ _ _ | .stdbrx _ _ _ | .stmw _ _ _ => False
  | .andiRc _ _ _ | .andisRc _ _ _ | .rlwinm _ _ _ _ _ _ | .slw _ _ _ _ | .crand _ _ _ => False
  | .b _ _ _ | .bc _ _ _ _ _ | .bclr _ _ _ _ | .bctar _ _ _ _ => False
  | .cmpi _ _ _ _ | .cmp _ _ _ _ | .cmpli _ _ _ _ | .cmpl _ _ _ _ => False
  | .tlbie _ _ _ _ _ | .tlbiel _ _ _ _ _ | .tlbsync | .setvl => False

/-- The instruction is executed outside the privilege state it needs (R320, R321). -/
def LacksPrivilege : Instr → State → Prop
  | .lbzcix _ _ _, s => ¬ (s.hv = true ∧ s.pr = false)
  | .mtmsr _ _, s | .tlbie _ _ _ _ _, s | .tlbiel _ _ _ _ _, s | .tlbsync, s => s.pr = true
  | .mtspr _ n, s | .mfspr _ n, s => (n = 26 ∨ n = 27) ∧ s.pr = true
  | .cdtbcd _ _, _ | .cbcdtd _ _, _ | .addg6s _ _ _, _ | .addi _ _ _, _ | .mcrxrx _, _ | .dcbz _ _, _ => False
  | .lbz _ _ _, _ | .lq _ _ _, _ | .lhbrx _ _ _, _ | .lwbrx _ _ _, _ | .ldbrx _ _ _, _ | .lmw _ _ _, _ => False
  | .lswi _ _ _, _ | .andiRc _ _ _, _ | .andisRc _ _ _, _ | .rlwinm _ _ _ _ _ _, _ | .slw _ _ _ _, _ => False
  | .stb _ _ _, _ | .std _ _ _, _ | .stq _ _ _, _ | .sthbrx _ _ _, _ | .stwbrx _ _ _, _ | .stdbrx _ _ _, _ => False
  | .stmw _ _ _, _ | .twi _ _ _, _ | .sc _, _ | .crand _ _ _, _ | .setvl, _ => False
  | .b _ _ _, _ | .bc _ _ _ _ _, _ | .bclr _ _ _ _, _ | .bcctr _ _ _ _, _ | .bctar _ _ _ _, _ => False
  | .cmpi _ _ _ _, _ | .cmp _ _ _ _, _ | .cmpli _ _ _ _, _ | .cmpl _ _ _ _, _ => False

/-- The instruction transfers control (R152 to R158). -/
def IsBranch : Instr → Prop
  | .b _ _ _ | .bc _ _ _ _ _ | .bclr _ _ _ _ | .bcctr _ _ _ _ | .bctar _ _ _ _ => True
  | .cdtbcd _ _ | .cbcdtd _ _ | .addg6s _ _ _ | .addi _ _ _ | .mfspr _ _ | .mtspr _ _ | .mcrxrx _ | .mtmsr _ _ => False
  | .lbzcix _ _ _ | .lbz _ _ _ | .lq _ _ _ | .lhbrx _ _ _ | .lwbrx _ _ _ | .ldbrx _ _ _ => False
  | .lmw _ _ _ | .lswi _ _ _ => False
  | .stb _ _ _ | .std _ _ _ | .stq _ _ _ | .sthbrx _ _ _ | .stwbrx _ _ _ | .stdbrx _ _ _ | .stmw _ _ _ => False
  | .andiRc _ _ _ | .andisRc _ _ _ | .rlwinm _ _ _ _ _ _ | .slw _ _ _ _ | .crand _ _ _ | .dcbz _ _ => False
  | .cmpi _ _ _ _ | .cmp _ _ _ _ | .cmpli _ _ _ _ | .cmpl _ _ _ _ | .twi _ _ _ | .sc _ => False
  | .tlbie _ _ _ _ _ | .tlbiel _ _ _ _ _ | .tlbsync | .setvl => False

/-! ### Interrupt entry, bit by bit -/

/-- The MSR bits that interrupt entry clears (R306). -/
def clearedBits : List Nat := [25, 23, 15, 14, 13, 11, 10, 9, 8, 5, 4, 2, 1]

/-- t is s after `Interrupt(vec, ret, info)` (R306), HV set as well where `setHv` says so (R311): SRR0, SRR1, the MSR and
`pc` bit by bit, and nothing else changed. -/
structure Interrupted (s t : State) (vec ret : Addr) (info : Nat → Bool) (setHv : Bool) : Prop where
  pc : t.pc = vec
  srr0 : t.srr0.toNat = ret.toNat / 4 * 4
  srr1 : ∀ i, i < 64 → t.srr1.getLsbD i =
    if (27 ≤ i ∧ i ≤ 30) ∨ (16 ≤ i ∧ i ≤ 21) then info i else s.msr.getLsbD i
  msr : ∀ i, i < 64 → t.msr.getLsbD i =
    if i = 63 then true
    else if i = 0 then s.params.msr0.getLsbD 0
    else if i = 60 then (setHv || s.msr.getLsbD 60)
    else if i ∈ clearedBits then false
    else s.msr.getLsbD i
  rest : Untouched s t [] [] [.srr0, .srr1] []

/-- The instruction takes an interrupt in s, and t is the state after its entry: under TRAP_MODE = architected, a trap by
`twi` (R251, R310), a system call by `sc` (R291, R311), or an instruction outside the privilege state it needs (R310, R320). -/
inductive TakesInterrupt (i : Instr) (s t : State) : Prop where
  | trap (trapOn : BitVec 5) (ra : RegNum) (si : BitVec 16) (h : i = .twi trapOn ra si)
    (mode : s.params.trapMode = .architected) (entry : Interrupted s t 0x700 s.pc (fun k => k = 17) false)
  | systemCall (lev : BitVec 7) (h : i = .sc lev) (mode : s.params.trapMode = .architected)
    (entry : Interrupted s t 0xC00 s.nextPc (fun _ => false) (lev.getLsbD 0))
  | privilege (h : LacksPrivilege i s) (mode : s.params.trapMode = .architected)
    (entry : Interrupted s t 0x700 s.pc (fun k => k = 18) false)

/-! ### The opcode map (R116) -/

/-- A row of the opcode map: a word w selects it when `w & mask = match`. -/
structure OpcodeRow where
  mask : IWord
  pattern : IWord
  deriving DecidableEq, Repr

/-- The word selects the row. -/
abbrev OpcodeRow.selects (r : OpcodeRow) (w : IWord) : Prop := w &&& r.mask = r.pattern

/-- The row of an instruction; `setvl` has none (R114). -/
def rowOf : Instr → Option OpcodeRow
  | .cdtbcd _ _ => some ⟨0xFC00FFFF, 0x7C000234⟩
  | .cbcdtd _ _ => some ⟨0xFC00FFFF, 0x7C000274⟩
  | .addg6s _ _ _ => some ⟨0xFC0007FF, 0x7C000094⟩
  | .b _ _ _ => some ⟨0xFC000000, 0x48000000⟩
  | .bc _ _ _ _ _ => some ⟨0xFC000000, 0x40000000⟩
  | .bclr _ _ _ _ => some ⟨0xFC00E7FE, 0x4C000020⟩
  | .bcctr _ _ _ _ => some ⟨0xFC00E7FE, 0x4C000420⟩
  | .bctar _ _ _ _ => some ⟨0xFC00E7FE, 0x4C000460⟩
  | .cmpi _ _ _ _ => some ⟨0xFC400000, 0x2C000000⟩
  | .cmp _ _ _ _ => some ⟨0xFC4007FF, 0x7C000000⟩
  | .cmpli _ _ _ _ => some ⟨0xFC400000, 0x28000000⟩
  | .cmpl _ _ _ _ => some ⟨0xFC4007FF, 0x7C000040⟩
  | .crand _ _ _ => some ⟨0xFC0007FF, 0x4C000202⟩
  | .addi _ _ _ => some ⟨0xFC000000, 0x38000000⟩
  | .lbzcix _ _ _ => some ⟨0xFC0007FF, 0x7C0006AA⟩
  | .lbz _ _ _ => some ⟨0xFC000000, 0x88000000⟩
  | .lq _ _ _ => some ⟨0xFC00000F, 0xE0000000⟩
  | .lhbrx _ _ _ => some ⟨0xFC0007FF, 0x7C00062C⟩
  | .lwbrx _ _ _ => some ⟨0xFC0007FF, 0x7C00042C⟩
  | .ldbrx _ _ _ => some ⟨0xFC0007FF, 0x7C000428⟩
  | .lmw _ _ _ => some ⟨0xFC000000, 0xB8000000⟩
  | .andiRc _ _ _ => some ⟨0xFC000000, 0x70000000⟩
  | .andisRc _ _ _ => some ⟨0xFC000000, 0x74000000⟩
  | .rlwinm _ _ _ _ _ _ => some ⟨0xFC000000, 0x54000000⟩
  | .slw _ _ _ _ => some ⟨0xFC0007FE, 0x7C000030⟩
  | .stb _ _ _ => some ⟨0xFC000000, 0x98000000⟩
  | .std _ _ _ => some ⟨0xFC000003, 0xF8000000⟩
  | .stq _ _ _ => some ⟨0xFC000003, 0xF8000002⟩
  | .sthbrx _ _ _ => some ⟨0xFC0007FF, 0x7C00072C⟩
  | .stwbrx _ _ _ => some ⟨0xFC0007FF, 0x7C00052C⟩
  | .stdbrx _ _ _ => some ⟨0xFC0007FF, 0x7C000528⟩
  | .stmw _ _ _ => some ⟨0xFC000000, 0xBC000000⟩
  | .twi _ _ _ => some ⟨0xFC000000, 0x0C000000⟩
  | .mtspr _ _ => some ⟨0xFC0007FF, 0x7C0003A6⟩
  | .mfspr _ _ => some ⟨0xFC0007FF, 0x7C0002A6⟩
  | .mcrxrx _ => some ⟨0xFC7FFFFF, 0x7C000480⟩
  | .mtmsr _ _ => some ⟨0xFC1EFFFF, 0x7C000124⟩
  | .dcbz _ _ => some ⟨0xFFE007FF, 0x7C0007EC⟩
  | .tlbie _ _ _ _ _ => some ⟨0xFC1007FF, 0x7C000264⟩
  | .tlbiel _ _ _ _ _ => some ⟨0xFC1007FF, 0x7C000224⟩
  | .tlbsync => some ⟨0xFFFFFFFF, 0x7C00046C⟩
  | .lswi _ _ _ => some ⟨0xFC0007FF, 0x7C0004AA⟩
  | .sc _ => some ⟨0xFFFFF01F, 0x44000002⟩
  | .setvl => none

/-- The 43 rows of R116, in its order. -/
def opcodeRows : List OpcodeRow :=
  [⟨0xFC00FFFF, 0x7C000234⟩, ⟨0xFC00FFFF, 0x7C000274⟩, ⟨0xFC0007FF, 0x7C000094⟩, ⟨0xFC000000, 0x48000000⟩,
   ⟨0xFC000000, 0x40000000⟩, ⟨0xFC00E7FE, 0x4C000020⟩, ⟨0xFC00E7FE, 0x4C000420⟩, ⟨0xFC00E7FE, 0x4C000460⟩,
   ⟨0xFC400000, 0x2C000000⟩, ⟨0xFC4007FF, 0x7C000000⟩, ⟨0xFC400000, 0x28000000⟩, ⟨0xFC4007FF, 0x7C000040⟩,
   ⟨0xFC0007FF, 0x4C000202⟩, ⟨0xFC000000, 0x38000000⟩, ⟨0xFC0007FF, 0x7C0006AA⟩, ⟨0xFC000000, 0x88000000⟩,
   ⟨0xFC00000F, 0xE0000000⟩, ⟨0xFC0007FF, 0x7C00062C⟩, ⟨0xFC0007FF, 0x7C00042C⟩, ⟨0xFC0007FF, 0x7C000428⟩,
   ⟨0xFC000000, 0xB8000000⟩, ⟨0xFC000000, 0x70000000⟩, ⟨0xFC000000, 0x74000000⟩, ⟨0xFC000000, 0x54000000⟩,
   ⟨0xFC0007FE, 0x7C000030⟩, ⟨0xFC000000, 0x98000000⟩, ⟨0xFC000003, 0xF8000000⟩, ⟨0xFC000003, 0xF8000002⟩,
   ⟨0xFC0007FF, 0x7C00072C⟩, ⟨0xFC0007FF, 0x7C00052C⟩, ⟨0xFC0007FF, 0x7C000528⟩, ⟨0xFC000000, 0xBC000000⟩,
   ⟨0xFC000000, 0x0C000000⟩, ⟨0xFC0007FF, 0x7C0003A6⟩, ⟨0xFC0007FF, 0x7C0002A6⟩, ⟨0xFC7FFFFF, 0x7C000480⟩,
   ⟨0xFC1EFFFF, 0x7C000124⟩, ⟨0xFFE007FF, 0x7C0007EC⟩, ⟨0xFC1007FF, 0x7C000264⟩, ⟨0xFC1007FF, 0x7C000224⟩,
   ⟨0xFFFFFFFF, 0x7C00046C⟩, ⟨0xFC0007FF, 0x7C0004AA⟩, ⟨0xFFFFF01F, 0x44000002⟩]

end Sys2Proof.Machine
end

