-- ==== Sys2Proof/Certificates/Slice0/Obligations.lean ====
section
/-!
DEFINITION. The statements for the provers. Each says what a numbered rule of spec/ gives an instruction or the machine;
a clause that rests on a choice of the model names its log entry (notes/assumptions).
-/
open Sys2Proof Sys2Proof.Machine

/-! ### Encoding -/

/-- Words of spec/95_test_vectors.md and of the instruction rules decode to the instructions they stand for, at least one of
every family. Two words with a reserved bit set, the word of the lost instruction `ori 0,0,0` and the word 0, whose primary
opcode no row has, decode to nothing (R116, R118, R119). -/
def Obligations.SpecWordsDecode : Prop :=
  decode 0x7C640234 = some (.cdtbcd 3 4) ∧ decode 0x7CA32094 = some (.addg6s 5 3 4) ∧
  decode 0x4BFFFFF1 = some (.b 0xFFFFFC false true) ∧ decode 0x41820010 = some (.bc 12 2 4 false false) ∧
  decode 0x4E800421 = some (.bcctr 20 0 0 true) ∧ decode 0x2FA30005 = some (.cmpi 7 true 3 5) ∧
  decode 0x7D232040 = some (.cmpl 2 true 3 4) ∧ decode 0x4FE02202 = some (.crand 31 0 4) ∧
  decode 0x38648000 = some (.addi 3 4 0x8000) ∧ decode 0x7C6116AA = some (.lbzcix 3 1 2) ∧
  decode 0xE081FFF0 = some (.lq 4 1 0xFFF) ∧ decode 0x74648000 = some (.andisRc 3 4 0x8000) ∧
  decode 0x54640706 = some (.rlwinm 3 4 0 28 3 false) ∧ decode 0x7C652031 = some (.slw 3 5 4 true) ∧
  decode 0xF8610008 = some (.std 3 1 2) ∧ decode 0xF8810012 = some (.stq 4 1 4) ∧
  decode 0x0C830005 = some (.twi 4 3 5) ∧ decode 0x7C6FCBA6 = some (.mtspr 3 815) ∧
  decode 0x7C610124 = some (.mtmsr 3 true) ∧ decode 0x7C0117EC = some (.dcbz 1 2) ∧
  decode 0x7C001A64 = some (.tlbie 0 0 false false 3) ∧ decode 0x7FC13CAA = some (.lswi 30 1 7) ∧
  decode 0x44000FE2 = some (.sc 127) ∧ decode 0x44000003 = none ∧ decode 0x7C640235 = none ∧
  decode 0x60000000 = none ∧ decode 0 = none

/-- Decoding the encoded word of a well-formed instruction gives the instruction back, every operand at every value. -/
def Obligations.DecodeOfEncode : Prop := ∀ i : Instr, i.WellFormed → decode (encode i) = some i

/-- A word that decodes is the encoded word of the instruction it decodes to: no bit is dropped, and a word with a nonzero
reserved bit decodes to nothing (R116, R119). -/
def Obligations.EncodeOfDecode : Prop := ∀ (w : IWord) (i : Instr), decode w = some i → i.WellFormed ∧ encode i = w

/-- The decoder is the opcode map: a word decodes to an instruction exactly of the row it selects by `w & mask = match`, and
every word that selects a row decodes (R116, R118). -/
def Obligations.DecodeFollowsOpcodeMap : Prop :=
  (∀ w i, decode w = some i → ∃ r ∈ opcodeRows, rowOf i = some r ∧ r.selects w) ∧
  (∀ w, ∀ r ∈ opcodeRows, r.selects w → ∃ i, decode w = some i ∧ rowOf i = some r)

/-! ### The step -/

/-- Where the fetch of R67 gives a word that decodes, the step is the instruction's own meaning and nothing more: `pc` is a
multiple of 4 (R32, kept by the invariant), translation is off, the four bytes at `pc` exist, none was stored to in this run, and the word they make in the byte order of the mode
decodes. -/
def Obligations.StepRunsDecodedInstruction : Prop :=
  ∀ (s : State) (b0 b1 b2 b3 : Byte) (i : Instr),
    s.pc.toNat % 4 = 0 → s.ir = false →
    (∀ a ∈ s.span s.pc 4, admitted s.params.memMap a = true ∧ a ∉ s.stored) →
    s.mem.readAll (s.span s.pc 4) = some [b0, b1, b2, b3] →
    decode (if s.le then b3 ++ b2 ++ b1 ++ b0 else b0 ++ b1 ++ b2 ++ b3) = some i →
    step s = exec i s

/-- The stops of a fetch and of decoding, in the order of R315: translation, a byte that does not exist, modified code, an
unwritten byte, an illegal word. -/
def Obligations.StepStopsInOrder : Prop :=
  ∀ s : State, s.pc.toNat % 4 = 0 →
    (s.ir = true → step s = .refused (.translation s.pc)) ∧
    (s.ir = false →
      ((∃ a ∈ s.span s.pc 4, admitted s.params.memMap a = false) → step s = .fault (.instructionStorage s.pc)) ∧
      ((∀ a ∈ s.span s.pc 4, admitted s.params.memMap a = true) →
        ((∃ a ∈ s.span s.pc 4, a ∈ s.stored) → step s = .refused (.modifiedCode s.pc)) ∧
        ((∀ a ∈ s.span s.pc 4, a ∉ s.stored) →
          ((∃ a ∈ s.span s.pc 4, s.mem.read a = none) → step s = .refused (.unwritten s.pc)) ∧
          (∀ b0 b1 b2 b3, s.mem.readAll (s.span s.pc 4) = some [b0, b1, b2, b3] →
            decode (if s.le then b3 ++ b2 ++ b1 ++ b0 else b0 ++ b1 ++ b2 ++ b3) = none →
            step s = .fault (.illegalInstruction (if s.le then b3 ++ b2 ++ b1 ++ b0 else b0 ++ b1 ++ b2 ++ b3) s.pc)))))

/-- An instruction placed by State.withFetchWord is the one the next step runs. Placing it changes no general register, no
Condition Register bit, no special purpose register and no byte outside the four at `pc`. Of the MSR it clears bit 5 (IR) and
keeps every other bit; it takes the marks off the four bytes and no other mark; of the parameters it changes at most MemMap,
which gains those of the four addresses it lacks and nothing else. The placing is the model's own (log entry 11). -/
def Obligations.PlacedInstructionRuns : Prop :=
  ∀ (s : State) (nbits w : Nat) (i : Instr), decodeTableWord nbits w = some i →
    step (s.withFetchWord nbits w) = exec i (s.withFetchWord nbits w) ∧
    (s.withFetchWord nbits w).pc = s.pc ∧
    (∀ r, (s.withFetchWord nbits w).x r = s.x r) ∧
    (∀ b, (s.withFetchWord nbits w).crBit b = s.crBit b) ∧
    (∀ r, (s.withFetchWord nbits w).spr r = s.spr r) ∧
    (∀ a, a ∉ s.span s.pc 4 → (s.withFetchWord nbits w).mem.read a = s.mem.read a) ∧
    (∀ k, k < 64 → (s.withFetchWord nbits w).msr.getLsbD k = if k = 5 then false else s.msr.getLsbD k) ∧
    (∀ a, a ∈ (s.withFetchWord nbits w).stored ↔ a ∈ s.stored ∧ a ∉ s.span s.pc 4) ∧
    (∃ memMap, (s.withFetchWord nbits w).params = { s.params with memMap := memMap } ∧
      (∀ a, admitted memMap a = true ↔ admitted s.params.memMap a = true ∨ a ∈ s.span s.pc 4) ∧
      ((∀ a ∈ s.span s.pc 4, admitted s.params.memMap a = true) → memMap = s.params.memMap))

/-! ### Start and invariants -/

/-- The state after reset: `pc` is ENTRY, the MSR is MSR0 and nothing is marked (R46, R351). That every register is zero is
the model's choice (log entry 1), as are the values of ENTRY and MSR0 (log entries 2, 3) and that no byte of storage is listed
(log entry 11). -/
def Obligations.ResetState : Prop :=
  State.reset.pc = State.reset.params.entry ∧ State.reset.msr = State.reset.params.msr0 ∧
  State.reset.pc = 0x1000 ∧ State.reset.msr = 0x9000000000000000 ∧
  (∀ a, State.reset.mem.read a = none) ∧ State.reset.stored = [] ∧
  (∀ r, State.reset.x r = 0) ∧ State.reset.cr = 0 ∧ (∀ r, State.reset.spr r = 0)

/-- The invariant holds after reset. -/
def Obligations.ResetInvariant : Prop := Inv State.reset

/-- The invariant holds of every start state R351 allows: parameters as it requires them, any list of registers, the listed
bytes in canonical form and inside MemMap. `pc` is ENTRY, the MSR is MSR0, storage is what is listed, nothing is marked, and
a register listed with one value holds it. That a register that is not listed is zero is the model's choice (log entry 1);
the invariant does not rest on it. -/
def Obligations.StartInvariant : Prop :=
  ∀ (p : Params) (registers : List RegisterValue) (bytes : Memory) (s : State), s = State.start p registers bytes →
    p.wf = true → bytes.wf → (∀ a, (bytes.read a).isSome → admitted p.memMap a = true) →
    Inv s ∧ s.pc = p.entry ∧ s.msr = p.msr0 ∧ s.mem = bytes ∧ s.stored = [] ∧ s.params = p ∧
    (∀ r v, .x r v ∈ registers → (∀ w, .x r w ∈ registers → w = v) → s.x r = v) ∧
    (∀ n v, .crf n v ∈ registers → (∀ w, .crf n w ∈ registers → w = v) → s.crField n = v) ∧
    (∀ r v, .spr r v ∈ registers → (∀ w, .spr r w ∈ registers → w = v) → s.spr r = v) ∧
    (∀ r, (∀ v, .x r v ∉ registers) → s.x r = 0) ∧
    (∀ n, (∀ v, .crf n v ∉ registers) → s.crField n = 0) ∧
    (∀ r, (∀ v, .spr r v ∉ registers) → s.spr r = 0)

/-- Every step that answers a next state keeps the invariant: `pc` stays a multiple of 4, below 2^32 in 32-bit mode (R32),
storage stays in canonical form and inside MemMap, and every marked byte has a value (R79). -/
def Obligations.StepKeepsInvariant : Prop := ∀ s t : State, Inv s → step s = .next t → Inv t

/-- A byte of storage that a step changes is marked afterwards; no mark is ever taken away, no byte loses its value, and a
byte newly marked has a value (R63, R79). -/
def Obligations.StepMarksWhatItWrites : Prop :=
  ∀ s t : State, step s = .next t → ∀ a,
    (t.mem.read a ≠ s.mem.read a → a ∈ t.stored) ∧ (a ∈ s.stored → a ∈ t.stored) ∧
    ((s.mem.read a).isSome → (t.mem.read a).isSome) ∧ (a ∈ t.stored → a ∈ s.stored ∨ (t.mem.read a).isSome)

/-- NextPC is `pc + 4` modulo 2^64, or modulo 2^32 in 32-bit mode, and every instruction but a branch ends there (R31), unless
it takes an interrupt: under TRAP_MODE = architected, the Program interrupt of `twi` or of an instruction that lacks
privilege, and the System Call interrupt of `sc` (R306, R307, R310, R311). -/
def Obligations.NextInstructionFollows : Prop :=
  (∀ s : State, s.nextPc.toNat = (s.pc.toNat + 4) % (if s.sf then 2 ^ 64 else 2 ^ 32)) ∧
  (∀ (i : Instr) (s t : State), ¬ IsBranch i → exec i s = .next t →
    t.pc = s.nextPc ∨ TakesInterrupt i s t)

/-- What may change the modes. The parameters never change. HV is never cleared. SF changes only to 1 and LE only to the byte
order of MSR0, and both only in an interrupt, at its vector; PR is cleared only there. The high-order word of the MSR is
otherwise never written (R60, R267, R306, R320). -/
def Obligations.StepKeepsModes : Prop :=
  ∀ s t : State, step s = .next t →
    t.params = s.params ∧ (s.hv = true → t.hv = true) ∧
    ((t.sf = s.sf ∧ t.le = s.le ∧ (s.pr = true → t.pr = true) ∧
        t.msr.extractLsb' 32 32 = s.msr.extractLsb' 32 32) ∨
      (s.params.trapMode = .architected ∧ (t.pc = 0x700 ∨ t.pc = 0xC00) ∧
        t.sf = true ∧ t.le = s.params.msr0.getLsbD 0 ∧ t.pr = false ∧ t.ir = false ∧ t.dr = false))

/-- Problem state is confined: a step taken in it either leaves the MSR, SRR0 and SRR1 as they were, or is an interrupt to
a fixed vector that keeps every general register, every Condition Register bit, every unprivileged special purpose register
and every byte of storage, and saves the MSR's bits in SRR1 outside bits 30:27 and 21:16 (R306, R307, R320). -/
def Obligations.ProblemStateConfined : Prop :=
  ∀ s t : State, s.pr = true → step s = .next t →
    (t.msr = s.msr ∧ t.srr0 = s.srr0 ∧ t.srr1 = s.srr1) ∨
    (s.params.trapMode = .architected ∧ (t.pc = 0x700 ∨ t.pc = 0xC00) ∧ t.pr = false ∧
      Untouched s t [] [] [.srr0, .srr1] [] ∧
      ∀ i, i < 64 → ¬ ((27 ≤ i ∧ i ≤ 30) ∨ (16 ≤ i ∧ i ≤ 21)) → t.srr1.getLsbD i = s.msr.getLsbD i)

/-- A program cannot drop to problem state and go on: the step that enters problem state leaves IR set, and the next fetch
is refused (R70, R267). -/
def Obligations.NoEntryToProblemState : Prop :=
  ∀ s t : State, s.pr = false → step s = .next t → t.pr = true → step t = .refused (.translation t.pc)

/-- The special purpose registers have these writers only: XER and TAR `mtspr`; LR `mtspr` and a branch with LK = 1; CTR
`mtspr` and a conditional branch with `BO[2] = 0`; SRR0 and SRR1 `mtspr` in privileged state and an interrupt, which `twi`,
`sc` and an instruction that lacks privilege take under TRAP_MODE = architected (R33, R34, R35, R38, R41, R306, R310,
R311). -/
def Obligations.SprWriters : Prop :=
  ∀ (i : Instr) (s t : State), exec i s = .next t →
    (t.xer ≠ s.xer → ∃ rs, i = .mtspr rs 1) ∧
    (t.tar ≠ s.tar → ∃ rs, i = .mtspr rs 815) ∧
    (t.lr ≠ s.lr → (∃ rs, i = .mtspr rs 8) ∨ (∃ li aa, i = .b li aa true) ∨ (∃ bo bi bd aa, i = .bc bo bi bd aa true) ∨
      (∃ bo bi bh, i = .bclr bo bi bh true ∨ i = .bcctr bo bi bh true ∨ i = .bctar bo bi bh true)) ∧
    (t.ctr ≠ s.ctr → (∃ rs, i = .mtspr rs 9) ∨ (∃ bo bi bd aa lk, bo.getLsbD 2 = false ∧ i = .bc bo bi bd aa lk) ∨
      (∃ bo bi bh lk, bo.getLsbD 2 = false ∧ (i = .bclr bo bi bh lk ∨ i = .bctar bo bi bh lk))) ∧
    (t.srr0 ≠ s.srr0 ∨ t.srr1 ≠ s.srr1 →
      (s.pr = false ∧ ∃ rs, i = .mtspr rs 26 ∨ i = .mtspr rs 27) ∨
      TakesInterrupt i s t)

/-- The frame of every instruction: it changes no general register, no Condition Register bit, no special purpose register
and no byte of storage but its own targets, the MSR only if it is `mtmsr`, or else it is `twi`, `sc` or an instruction that
lacks privilege and has taken its interrupt, which changes only SRR0, SRR1, the MSR and `pc` (R15, R306; the lists of writers are those R23 and R28 mark as derived from the
instruction rules). -/
def Obligations.InstructionFrames : Prop :=
  ∀ (i : Instr) (s t : State), exec i s = .next t →
    (Untouched s t (gprTargets i) (crTargets i) (sprTargets i) (storeTargets i s) ∧
      (t.msr = s.msr ∨ ∃ rs l, i = .mtmsr rs l)) ∨
    TakesInterrupt i s t

/-! ### Binary Coded Decimal -/

/-- The table of R141 row by row, and the two conversions as inverses (which R141 marks as derived, by a script): every declet gives three digits of 0 to 9, a triple
of digits 0 to 9 goes to a declet and back, and a declet comes back unless it is one of the 24 non-canonical ones. -/
def Obligations.DecletCoding : Prop :=
  (∀ p q r s t u v w x y : Bool,
    dpdToBcd (bit p ++ bit q ++ bit r ++ bit s ++ bit t ++ bit u ++ bit v ++ bit w ++ bit x ++ bit y) =
      if v = false then bcdDigit false p q r ++ bcdDigit false s t u ++ bcdDigit false w x y
      else if w = false ∧ x = false then bcdDigit false p q r ++ bcdDigit false s t u ++ bcdDigit true false false y
      else if w = false ∧ x = true then bcdDigit false p q r ++ bcdDigit true false false u ++ bcdDigit false s t y
      else if w = true ∧ x = false then bcdDigit true false false r ++ bcdDigit false s t u ++ bcdDigit false p q y
      else if s = false ∧ t = false then
        bcdDigit true false false r ++ bcdDigit true false false u ++ bcdDigit false p q y
      else if s = false ∧ t = true then
        bcdDigit true false false r ++ bcdDigit false p q u ++ bcdDigit true false false y
      else if s = true ∧ t = false then
        bcdDigit false p q r ++ bcdDigit true false false u ++ bcdDigit true false false y
      else bcdDigit true false false r ++ bcdDigit true false false u ++ bcdDigit true false false y) ∧
  (∀ (d : BitVec 10) (k : Nat), k < 3 → ((dpdToBcd d).extractLsb' (4 * k) 4).toNat ≤ 9) ∧
  (∀ t : BitVec 12, (∀ k, k < 3 → (t.extractLsb' (4 * k) 4).toNat ≤ 9) → dpdToBcd (bcdToDpd t) = t) ∧
  (∀ d : BitVec 10, bcdToDpd (dpdToBcd d) = d ↔ ¬ (d &&& 0x06E = 0x06E ∧ d &&& 0x300 ≠ 0))

/-- `cdtbcd` completes in every state: in each half of the register two declets become six digits, and the high-order byte
of each half of the result is zero (R142). -/
def Obligations.CdtbcdConverts : Prop :=
  ∀ (rs ra : RegNum) (s : State), ∃ t, exec (.cdtbcd rs ra) s = .next t ∧ t.pc = s.nextPc ∧ Frame s t [ra] [] [] [] ∧
    ∀ h, h < 2 →
      (t.x ra).extractLsb' (32 * h + 24) 8 = 0 ∧
      (t.x ra).extractLsb' (32 * h + 12) 12 = dpdToBcd ((s.x rs).extractLsb' (32 * h + 10) 10) ∧
      (t.x ra).extractLsb' (32 * h) 12 = dpdToBcd ((s.x rs).extractLsb' (32 * h) 10)

/-- `cbcdtd` completes when the twelve digits are 0 to 9: in each half of the register six digits become two declets, and the
high-order 12 bits of each half of the result are zero. With a digit above 9 it is refused (R143, R141). -/
def Obligations.CbcdtdConverts : Prop :=
  ∀ (rs ra : RegNum) (s : State),
    ((∀ h k, h < 2 → k < 6 → ((s.x rs).extractLsb' (32 * h + 4 * k) 4).toNat ≤ 9) →
      ∃ t, exec (.cbcdtd rs ra) s = .next t ∧ t.pc = s.nextPc ∧ Frame s t [ra] [] [] [] ∧
        ∀ h, h < 2 →
          (t.x ra).extractLsb' (32 * h + 20) 12 = 0 ∧
          (t.x ra).extractLsb' (32 * h + 10) 10 = bcdToDpd ((s.x rs).extractLsb' (32 * h + 12) 12) ∧
          (t.x ra).extractLsb' (32 * h) 10 = bcdToDpd ((s.x rs).extractLsb' (32 * h) 12)) ∧
    ((∃ h k, h < 2 ∧ k < 6 ∧ 9 < ((s.x rs).extractLsb' (32 * h + 4 * k) 4).toNat) →
      exec (.cbcdtd rs ra) s = .refused (.invalidBcdDigit s.pc))

/-- `cdtbcd` applied to what `cbcdtd` gives returns the source with bits 63:56 and 31:24 cleared: an inference
that R143 marks as derived from R141. -/
def Obligations.BcdRoundTrip : Prop :=
  ∀ (rs ra rb : RegNum) (s t : State), exec (.cbcdtd rs ra) s = .next t →
    ∃ u, exec (.cdtbcd ra rb) t = .next u ∧ u.x rb = s.x rs &&& 0x00FFFFFF00FFFFFF

/-- `addg6s` completes in every state: digit k of the result is 0 where the sum of the low-order 4k+4 bits carries out and 6
where it does not (R144). -/
def Obligations.AddSixesDigits : Prop :=
  ∀ (rt ra rb : RegNum) (s : State), ∃ t, exec (.addg6s rt ra rb) s = .next t ∧ t.pc = s.nextPc ∧
    Frame s t [rt] [] [] [] ∧
    ∀ k, k < 16 → (t.x rt).extractLsb' (4 * k) 4 =
      if 16 ^ (k + 1) ≤ (s.x ra).toNat % 16 ^ (k + 1) + (s.x rb).toNat % 16 ^ (k + 1) then 0 else 6

/-- The use R144 gives `addg6s`: for 16-digit BCD numbers u and v, with `t = u + 0x6666666666666666`, the difference
`t + v - addg6s(t, v)` is a BCD number whose value is the sum of the two values modulo 10^16. -/
def Obligations.BcdAddition : Prop :=
  ∀ (rt ra rb : RegNum) (s s' : State) (u : DWord),
    (∀ k, k < 16 → (u.extractLsb' (4 * k) 4).toNat ≤ 9) →
    (∀ k, k < 16 → ((s.x rb).extractLsb' (4 * k) 4).toNat ≤ 9) →
    s.x ra = u + 0x6666666666666666 → exec (.addg6s rt ra rb) s = .next s' →
    ∀ (value : DWord → Nat), (∀ d, value d = ((List.range 16).map fun k => (d.extractLsb' (4 * k) 4).toNat * 10 ^ k).sum) →
      (∀ k, k < 16 → ((s.x ra + s.x rb - s'.x rt).extractLsb' (4 * k) 4).toNat ≤ 9) ∧
      value (s.x ra + s.x rb - s'.x rt) = (value u + value (s.x rb)) % 10 ^ 16

/-! ### Branches -/

/-- `b` and its forms complete in every state: they land at the branch's address plus the displacement, or at the
displacement, and write LR when LK is 1 (R151, R152, R159). -/
def Obligations.BranchLands : Prop :=
  ∀ (li : BitVec 24) (aa lk : Bool) (s : State), ∃ t, exec (.b li aa lk) s = .next t ∧
    LandsAt s t ((if aa then 0 else (s.pc.toNat : Int)) + 4 * li.toInt) ∧ (lk = true → t.lr = s.nextPc) ∧
    Frame s t [] [] (linkSpr lk) []

/-- `bc`, `bclr` and `bctar` complete in every state, with every BO: CTR is decremented when `BO[2]` is 0, taken or not; LR is
written when LK is 1, taken or not; a taken branch lands at its target, which for `bclr` is the old LR (R151, R154 to R156,
R158, R159). -/
def Obligations.ConditionalBranches : Prop :=
  ∀ (bo : BitVec 5) (bi : CrBitNum) (lk : Bool) (s : State) (i : Instr) (target : Int),
    ((∃ bd aa, i = .bc bo bi bd aa lk ∧ target = (if aa then 0 else (s.pc.toNat : Int)) + 4 * bd.toInt) ∨
      (∃ bh, i = .bclr bo bi bh lk ∧ target = s.lr.toNat) ∨ (∃ bh, i = .bctar bo bi bh lk ∧ target = s.tar.toNat)) →
    ∃ t, exec i s = .next t ∧
      t.ctr = (if bo.getLsbD 2 then s.ctr else s.ctr - 1) ∧ (lk = true → t.lr = s.nextPc) ∧
      (BranchTaken s bo bi t.ctr → LandsAt s t target) ∧ (¬ BranchTaken s bo bi t.ctr → t.pc = s.nextPc) ∧
      Frame s t [] [] (ctrSpr bo ++ linkSpr lk) []

/-- `bcctr` with `BO[2] = 1` completes in every state and never writes CTR (R157). -/
def Obligations.CountRegisterBranches : Prop :=
  ∀ (bo : BitVec 5) (bi : CrBitNum) (bh : BitVec 2) (lk : Bool) (s : State), bo.getLsbD 2 = true →
    ∃ t, exec (.bcctr bo bi bh lk) s = .next t ∧ (lk = true → t.lr = s.nextPc) ∧
      (bo.getLsbD 4 = true ∨ s.crBit bi = bo.getLsbD 3 → LandsAt s t s.ctr.toNat) ∧
      (bo.getLsbD 4 = false → s.crBit bi ≠ bo.getLsbD 3 → t.pc = s.nextPc) ∧ Frame s t [] [] (linkSpr lk) []

/-- The nine rows of R153, as masks and patterns of BO with the test of the decremented CTR (some true: it is not zero) and
the value of the Condition Register bit each asks for: `bclr` lands at LR when both hold and goes on when one fails. Every
BO is in exactly one row. -/
def Obligations.BranchOptionTable : Prop :=
  ∀ rows : List (BitVec 5 × BitVec 5 × Option Bool × Option Bool),
    rows = [(0b11110, 0b00000, some true, some false), (0b11110, 0b00010, some false, some false),
      (0b11100, 0b00100, none, some false), (0b11110, 0b01000, some true, some true),
      (0b11110, 0b01010, some false, some true), (0b11100, 0b01100, none, some true),
      (0b10110, 0b10000, some true, none), (0b10110, 0b10010, some false, none), (0b10100, 0b10100, none, none)] →
    (∀ bo : BitVec 5, (rows.filter fun r => bo &&& r.1 == r.2.1).length = 1) ∧
    ∀ r ∈ rows, ∀ (bo : BitVec 5) (bi : CrBitNum) (bh : BitVec 2) (lk : Bool) (s t : State),
      bo &&& r.1 = r.2.1 → exec (.bclr bo bi bh lk) s = .next t →
      (((∀ z, r.2.2.1 = some z → (z = true ↔ (s.ctr - 1).toNat % (if s.sf then 2 ^ 64 else 2 ^ 32) ≠ 0)) ∧
          (∀ c, r.2.2.2 = some c → s.crBit bi = c)) → LandsAt s t s.lr.toNat) ∧
      (((∃ z, r.2.2.1 = some z ∧ ¬ (z = true ↔ (s.ctr - 1).toNat % (if s.sf then 2 ^ 64 else 2 ^ 32) ≠ 0)) ∨
          (∃ c, r.2.2.2 = some c ∧ s.crBit bi ≠ c)) → t.pc = s.nextPc)

/-! ### The Condition Register -/

/-- `cmpi` and `cmp` complete in every state: LT, GT and EQ of field BF say how the operands stand as signed numbers, all 64
bits or the low-order word by L, and SO is XER.SO (R166, R167, R170). -/
def Obligations.SignedCompares : Prop :=
  ∀ (bf : CrFieldNum) (l : Bool) (ra : RegNum) (s : State) (i : Instr) (b : Int),
    ((∃ si : BitVec 16, i = .cmpi bf l ra si ∧ b = si.toInt) ∨ (∃ rb, i = .cmp bf l ra rb ∧ b = signedView l (s.x rb))) →
    ∃ t, exec i s = .next t ∧ t.pc = s.nextPc ∧ Frame s t [] (fieldBits bf) [] [] ∧
      FieldIs t bf (decide (signedView l (s.x ra) < b)) (decide (b < signedView l (s.x ra)))
        (decide (signedView l (s.x ra) = b)) (s.xer.getLsbD 31)

/-- `cmpli` and `cmpl` complete in every state: as the signed compares, on unsigned numbers (R168, R169, R170). -/
def Obligations.UnsignedCompares : Prop :=
  ∀ (bf : CrFieldNum) (l : Bool) (ra : RegNum) (s : State) (i : Instr) (b : Nat),
    ((∃ ui : BitVec 16, i = .cmpli bf l ra ui ∧ b = ui.toNat) ∨
      (∃ rb, i = .cmpl bf l ra rb ∧ b = unsignedView l (s.x rb))) →
    ∃ t, exec i s = .next t ∧ t.pc = s.nextPc ∧ Frame s t [] (fieldBits bf) [] [] ∧
      FieldIs t bf (decide (unsignedView l (s.x ra) < b)) (decide (b < unsignedView l (s.x ra)))
        (decide (unsignedView l (s.x ra) = b)) (s.xer.getLsbD 31)

/-- `crand` completes in every state: bit BT is the AND of the old bits BA and BB, and every other bit of the Condition
Register keeps its value (R176). -/
def Obligations.CrandWritesOneBit : Prop :=
  ∀ (bt ba bb : CrBitNum) (s : State), ∃ t, exec (.crand bt ba bb) s = .next t ∧ t.pc = s.nextPc ∧
    t.crBit bt = (s.crBit ba && s.crBit bb) ∧ Frame s t [] [bt] [] []

/-- The 32-bit image of the Condition Register: field n is bits 31-4n to 28-4n, and bit number b, which is bit 3 - (b mod 4)
of field b div 4, is bit 31-b of the image (R25). -/
def Obligations.ConditionRegisterImage : Prop :=
  ∀ s : State, (∀ n : CrFieldNum, s.cr.extractLsb' (28 - 4 * n.toNat) 4 = s.crField n) ∧
    ∀ b : CrBitNum, s.crBit b = s.cr.getLsbD (31 - b.toNat) ∧
      ∀ n : CrFieldNum, n.toNat = b.toNat / 4 → s.crBit b = (s.crField n).getLsbD (3 - b.toNat % 4)

/-! ### Arithmetic, logic, rotation -/

/-- `addi` completes in every state: RT receives the sum modulo 2^64 of the signed immediate and `x[RA]`, or zero when the
field RA is 0; no flag changes (R12, R181). -/
def Obligations.AddImmediate : Prop :=
  ∀ (rt ra : RegNum) (si : BitVec 16) (s : State), ∃ t, exec (.addi rt ra si) s = .next t ∧ t.pc = s.nextPc ∧
    ((t.x rt).toNat : Int) = ((if ra = 0 then 0 else ((s.x ra).toNat : Int)) + si.toInt) % 2 ^ 64 ∧ Frame s t [rt] [] [] []

/-- `andi.` and `andis.` complete in every state: the AND of RS with the immediate in bits 15:0, or in bits 31:16, zeros
elsewhere, and CR0 recorded from the result (R27, R212, R213). -/
def Obligations.LogicalImmediates : Prop :=
  ∀ (rs ra : RegNum) (ui : BitVec 16) (s : State) (i : Instr) (shift : Nat),
    ((i = .andiRc rs ra ui ∧ shift = 0) ∨ (i = .andisRc rs ra ui ∧ shift = 16)) →
    ∃ t, exec i s = .next t ∧ t.pc = s.nextPc ∧ Frame s t [ra] (fieldBits 0) [] [] ∧ RecordsCr0 s t ra ∧
      ∀ k, k < 64 → (t.x ra).getLsbD k =
        (decide (shift ≤ k) && decide (k < shift + 16) && (s.x rs).getLsbD k && ui.getLsbD (k - shift))

/-- `rlwinm` completes in every state: bit k of the low-order word is bit k - SH, counted round, of RS's low-order word where
the mask from MB to ME, which wraps when MB > ME, covers it; the high-order word is the rotated word when the mask wraps and
zero when it does not; CR0 is recorded when Rc is 1 (R11, R27, R223). -/
def Obligations.RotateUnderMask : Prop :=
  ∀ (rs ra : RegNum) (sh mb me : BitVec 5) (rc : Bool) (s : State),
    ∃ t, exec (.rlwinm rs ra sh mb me rc) s = .next t ∧ t.pc = s.nextPc ∧
      Frame s t [ra] (if rc then fieldBits 0 else []) [] [] ∧ (rc = true → RecordsCr0 s t ra) ∧
      ∀ k, k < 32 →
        (t.x ra).getLsbD k = ((s.x rs).getLsbD ((k + 32 - sh.toNat) % 32) &&
          (if mb.toNat ≤ me.toNat then decide (mb.toNat ≤ 31 - k) && decide (31 - k ≤ me.toNat)
            else decide (mb.toNat ≤ 31 - k) || decide (31 - k ≤ me.toNat))) ∧
        (t.x ra).getLsbD (32 + k) =
          ((s.x rs).getLsbD ((k + 32 - sh.toNat) % 32) && decide (me.toNat < mb.toNat))

/-- `slw` completes in every state: the low-order word times 2^n modulo 2^32, n being RB's low six bits, and zero when n is
above 31; CR0 is recorded when Rc is 1 (R27, R225). -/
def Obligations.ShiftLeftWord : Prop :=
  ∀ (rs ra rb : RegNum) (rc : Bool) (s : State),
    ∃ t, exec (.slw rs ra rb rc) s = .next t ∧ t.pc = s.nextPc ∧
      Frame s t [ra] (if rc then fieldBits 0 else []) [] [] ∧ (rc = true → RecordsCr0 s t ra) ∧
      (t.x ra).toNat = if 31 < (s.x rb).toNat % 64 then 0
        else (s.x rs).toNat % 2 ^ 32 * 2 ^ ((s.x rb).toNat % 64) % 2 ^ 32

/-! ### Storage -/

/-- Effective addresses of every form and the addresses of an access's bytes, as numbers: sums modulo 2^64, or modulo 2^32 in
32-bit mode (R61). -/
def Obligations.EffectiveAddresses : Prop :=
  ∀ (s : State) (ra rb : RegNum) (m base : Int), m = (if s.sf then 2 ^ 64 else 2 ^ 32) →
    base = (if ra = 0 then 0 else ((s.x ra).toNat : Int)) →
    (∀ d : BitVec 16, ((s.eaD ra d).toNat : Int) = (base + d.toInt) % m) ∧
    (∀ ds : BitVec 14, ((s.eaDS ra ds).toNat : Int) = (base + 4 * ds.toInt) % m) ∧
    (∀ dq : BitVec 12, ((s.eaDQ ra dq).toNat : Int) = (base + 16 * dq.toInt) % m) ∧
    ((s.eaX ra rb).toNat : Int) = (base + (s.x rb).toNat) % m ∧
    ((s.eaBase ra).toNat : Int) = base % m ∧
    ∀ (ea : Addr) (k : Nat), ((s.byteAddr ea k).toNat : Int) = (ea.toNat + k) % m

/-- `lbz` and, in hypervisor state, `lbzcix` complete when translation is off and the addressed byte exists and has a value:
RT receives it, zeros above (R186, R192). -/
def Obligations.ByteLoads : Prop :=
  ∀ (rt ra : RegNum) (s : State) (i : Instr) (ea : Addr) (b : Byte),
    ((∃ d, i = .lbz rt ra d ∧ ea = s.eaD ra d) ∨
      (∃ rb, i = .lbzcix rt ra rb ∧ ea = s.eaX ra rb ∧ s.hv = true ∧ s.pr = false)) →
    s.dr = false → admitted s.params.memMap ea.toNat = true → s.mem.read ea.toNat = some b →
    ∃ t, exec i s = .next t ∧ t.pc = s.nextPc ∧ (t.x rt).toNat = b.toNat ∧ Frame s t [rt] [] [] []

/-- `lhbrx`, `lwbrx` and `ldbrx` complete when the checks of the access pass and its bytes have values: in Big-Endian mode the
byte at EA is the least significant of RT, in Little-Endian mode the most significant of the element, zeros above (R195 to
R198). -/
def Obligations.ByteReverseLoads : Prop :=
  ∀ (rt ra rb : RegNum) (s : State) (i : Instr) (n : Nat) (a : DataAccess) (bs : List Byte),
    ((i = .lhbrx rt ra rb ∧ n = 2) ∨ (i = .lwbrx rt ra rb ∧ n = 4) ∨ (i = .ldbrx rt ra rb ∧ n = 8)) →
    dataAccess i s = some a → a.permitted s → s.mem.readAll a.bytes = some bs →
    ∃ t, exec i s = .next t ∧ t.pc = s.nextPc ∧ Frame s t [rt] [] [] [] ∧ (t.x rt).toNat < 2 ^ (8 * n) ∧
      ∀ k, k < n → byteOf (t.x rt) (if s.le then n - 1 - k else k) = bs.getD k 0

/-- `lq` completes when it is no invalid form, the checks pass and the sixteen bytes have values. In Big-Endian mode the even
register is the doubleword at EA and the odd one that at EA+8; in Little-Endian mode the even register is the byte-reversed
doubleword at EA+8 and the odd one that at EA (R194). -/
def Obligations.LoadQuadword : Prop :=
  ∀ (rtp ra : RegNum) (dq : BitVec 12) (s : State) (a : DataAccess) (bs : List Byte),
    rtp.toNat % 2 = 0 → rtp ≠ ra → dataAccess (.lq rtp ra dq) s = some a → a.permitted s →
    s.mem.readAll a.bytes = some bs →
    ∃ t, exec (.lq rtp ra dq) s = .next t ∧ t.pc = s.nextPc ∧ Frame s t [rtp, rtp + 1] [] [] [] ∧
      ∀ k, k < 8 →
        byteOf (t.x rtp) (if s.le then k else 7 - k) = bs.getD (if s.le then 8 + k else k) 0 ∧
        byteOf (t.x (rtp + 1)) (if s.le then k else 7 - k) = bs.getD (if s.le then k else 8 + k) 0

/-- `lmw` completes when it is no invalid form, the checks pass (so the mode is Big-Endian) and the bytes have values: word
k goes to the low half of `x[RT+k]`, zeros above, up to `x[31]` (R200). -/
def Obligations.LoadMultiple : Prop :=
  ∀ (rt ra : RegNum) (d : BitVec 16) (s : State) (a : DataAccess) (bs : List Byte),
    ra.toNat < rt.toNat → dataAccess (.lmw rt ra d) s = some a → a.permitted s → s.mem.readAll a.bytes = some bs →
    ∃ t, exec (.lmw rt ra d) s = .next t ∧ t.pc = s.nextPc ∧
      Frame s t (gprTargets (.lmw rt ra d)) [] [] [] ∧ (∀ r, r ∈ gprTargets (.lmw rt ra d) ↔ rt.toNat ≤ r.toNat) ∧
      ∀ r : RegNum, rt.toNat ≤ r.toNat → (t.x r).toNat < 2 ^ 32 ∧
        ∀ j, j < 4 → byteOf (t.x r) (3 - j) = bs.getD (4 * (r.toNat - rt.toNat) + j) 0

/-- `lswi` completes when it is no invalid form, the checks pass (so the mode is Big-Endian) and the bytes have values: the n
bytes, 32 when NB is 0, fill the low halves of successive registers from RT on, the first of each four the most significant,
the numbers wrapping past 31, with zeros where the string has ended and above (R286). -/
def Obligations.LoadString : Prop :=
  ∀ (rt ra : RegNum) (nb : BitVec 5) (s : State) (a : DataAccess) (bs : List Byte) (n : Nat),
    n = (if nb = 0 then 32 else nb.toNat) → ¬ InvalidForm (.lswi rt ra nb) →
    dataAccess (.lswi rt ra nb) s = some a → a.permitted s → s.mem.readAll a.bytes = some bs →
    ∃ t, exec (.lswi rt ra nb) s = .next t ∧ t.pc = s.nextPc ∧ Frame s t (regsFrom rt ((n + 3) / 4)) [] [] [] ∧
      ∀ k, 4 * k < n → (t.x (rt + BitVec.ofNat 5 k)).toNat < 2 ^ 32 ∧
        ∀ j, j < 4 → byteOf (t.x (rt + BitVec.ofNat 5 k)) (3 - j) = if 4 * k + j < n then bs.getD (4 * k + j) 0 else 0

/-- `stb` and `std` complete when the checks of the access pass: the bytes at EA are RS's low-order byte, or RS's eight bytes,
the most significant first in Big-Endian mode and last in Little-Endian mode (R63, R232, R234). -/
def Obligations.PlainStores : Prop :=
  ∀ (rs ra : RegNum) (s : State) (i : Instr) (ea : Addr) (n : Nat) (a : DataAccess),
    ((∃ d, i = .stb rs ra d ∧ ea = s.eaD ra d ∧ n = 1) ∨ (∃ ds, i = .std rs ra ds ∧ ea = s.eaDS ra ds ∧ n = 8)) →
    dataAccess i s = some a → a.permitted s →
    ∃ t, exec i s = .next t ∧ t.pc = s.nextPc ∧ Frame s t [] [] [] (s.span ea n) ∧
      ∀ k, k < n → t.mem.read (s.byteAddr ea k).toNat = some (byteOf (s.x rs) (if s.le then k else n - 1 - k))

/-- `sthbrx`, `stwbrx` and `stdbrx` complete when the checks of the access pass: in Big-Endian mode RS's least significant byte
goes to EA, in Little-Endian mode the most significant byte of the element does (R237 to R240). -/
def Obligations.ByteReverseStores : Prop :=
  ∀ (rs ra rb : RegNum) (s : State) (i : Instr) (n : Nat) (a : DataAccess),
    ((i = .sthbrx rs ra rb ∧ n = 2) ∨ (i = .stwbrx rs ra rb ∧ n = 4) ∨ (i = .stdbrx rs ra rb ∧ n = 8)) →
    dataAccess i s = some a → a.permitted s →
    ∃ t, exec i s = .next t ∧ t.pc = s.nextPc ∧ Frame s t [] [] [] (s.span (s.eaX ra rb) n) ∧
      ∀ k, k < n →
        t.mem.read (s.byteAddr (s.eaX ra rb) k).toNat = some (byteOf (s.x rs) (if s.le then n - 1 - k else k))

/-- `stq` completes when RSp is even and the checks pass. In Big-Endian mode the even register goes to EA and the odd one to
EA+8; in Little-Endian mode the even register goes byte-reversed to EA+8 and the odd one byte-reversed to EA (R236). -/
def Obligations.StoreQuadword : Prop :=
  ∀ (rsp ra : RegNum) (ds : BitVec 14) (s : State) (a : DataAccess),
    rsp.toNat % 2 = 0 → dataAccess (.stq rsp ra ds) s = some a → a.permitted s →
    ∃ t, exec (.stq rsp ra ds) s = .next t ∧ t.pc = s.nextPc ∧ Frame s t [] [] [] (s.span (s.eaDS ra ds) 16) ∧
      ∀ k, k < 8 →
        t.mem.read (s.byteAddr (s.eaDS ra ds) (if s.le then 8 + k else k)).toNat =
          some (byteOf (s.x rsp) (if s.le then k else 7 - k)) ∧
        t.mem.read (s.byteAddr (s.eaDS ra ds) (if s.le then k else 8 + k)).toNat =
          some (byteOf (s.x (rsp + 1)) (if s.le then k else 7 - k))

/-- `stmw` completes when the checks pass (so the mode is Big-Endian): the low-order words of `x[RS]` to `x[31]` go to
consecutive words from EA on, each most significant byte first (R242). -/
def Obligations.StoreMultiple : Prop :=
  ∀ (rs ra : RegNum) (d : BitVec 16) (s : State) (a : DataAccess),
    dataAccess (.stmw rs ra d) s = some a → a.permitted s →
    ∃ t, exec (.stmw rs ra d) s = .next t ∧ t.pc = s.nextPc ∧
      Frame s t [] [] [] (s.span (s.eaD ra d) (4 * (32 - rs.toNat))) ∧
      ∀ r : RegNum, rs.toNat ≤ r.toNat → ∀ j, j < 4 →
        t.mem.read (s.byteAddr (s.eaD ra d) (4 * (r.toNat - rs.toNat) + j)).toNat = some (byteOf (s.x r) (3 - j))

/-- `dcbz` completes when translation is off and every byte of the block that holds EA exists: each of them is zero
afterwards, whatever EA's alignment and whatever the privilege state (R269). -/
def Obligations.DcbzZeroesBlock : Prop :=
  ∀ (ra rb : RegNum) (s : State) (block : Nat), block = s.params.dcbzBlock → s.dr = false →
    (∀ a, a / block = (s.eaX ra rb).toNat / block → admitted s.params.memMap a = true) →
    ∃ t, exec (.dcbz ra rb) s = .next t ∧ t.pc = s.nextPc ∧ Frame s t [] [] [] (s.blockSpan (s.eaX ra rb)) ∧
      ∀ a, (a ∈ s.blockSpan (s.eaX ra rb) ↔ a / block = (s.eaX ra rb).toNat / block) ∧
        (a / block = (s.eaX ra rb).toNat / block → t.mem.read a = some 0)

/-- The checks of every instruction that accesses storage, past privilege and invalid forms, in the order of R81: translation,
alignment by the table of R65, existence of every byte, and for a load a value in every byte; where all pass it completes. -/
def Obligations.AccessChecksInOrder : Prop :=
  ∀ (i : Instr) (s : State) (a : DataAccess), dataAccess i s = some a → ¬ LacksPrivilege i s → ¬ InvalidForm i →
    (s.dr = true → exec i s = .refused (.translation s.pc)) ∧
    (s.dr = false → a.misaligned s → exec i s = .fault (.alignment a.ea s.pc)) ∧
    (s.dr = false → ¬ a.misaligned s → (∃ b ∈ a.bytes, admitted s.params.memMap b = false) →
      exec i s = .fault (.dataStorage a.ea a.dir s.pc)) ∧
    (a.permitted s → a.dir = .load → (∃ b ∈ a.bytes, s.mem.read b = none) → exec i s = .refused (.unwritten s.pc)) ∧
    (a.permitted s → (a.dir = .load → ∀ b ∈ a.bytes, (s.mem.read b).isSome) → ∃ t, exec i s = .next t)

/-- A store followed by the load of the same width at the same address in the same mode completes and gives the value stored:
`stdbrx` and `ldbrx`, `stwbrx` and `lwbrx`, `sthbrx` and `lhbrx` (the low-order bytes), `stq` and `lq` (the pair). An
inference that R63 and R236 mark as derived, from R62, R63 and R194. -/
def Obligations.StoreThenLoad : Prop :=
  (∀ (rs ra rb rt : RegNum) (s t : State) (n : Nat) (st ld : Instr),
    ((st = .sthbrx rs ra rb ∧ ld = .lhbrx rt ra rb ∧ n = 2) ∨ (st = .stwbrx rs ra rb ∧ ld = .lwbrx rt ra rb ∧ n = 4) ∨
      (st = .stdbrx rs ra rb ∧ ld = .ldbrx rt ra rb ∧ n = 8)) →
    exec st s = .next t → ∃ u, exec ld t = .next u ∧ (u.x rt).toNat = (s.x rs).toNat % 2 ^ (8 * n)) ∧
  (∀ (rsp ra rtp : RegNum) (ds : BitVec 14) (dq : BitVec 12) (s t : State),
    rtp.toNat % 2 = 0 → rtp ≠ ra → s.eaDS ra ds = s.eaDQ ra dq → exec (.stq rsp ra ds) s = .next t →
    ∃ u, exec (.lq rtp ra dq) t = .next u ∧ u.x rtp = s.x rsp ∧ u.x (rtp + 1) = s.x (rsp + 1))

/-- A doubleword stored and read otherwise: `ldbrx` at the same address gives its eight bytes in the opposite order, and `lbz`
at its k-th byte gives byte 7-k of it in Big-Endian mode and byte k in Little-Endian mode: an inference that R66 marks as
derived from R62 and R63. -/
def Obligations.MixedWidths : Prop :=
  ∀ (rs ra rb rt : RegNum) (ds : BitVec 14) (d : BitVec 16) (k : Nat) (s t : State), exec (.std rs ra ds) s = .next t →
    (s.eaX ra rb = s.eaDS ra ds →
      ∃ u, exec (.ldbrx rt ra rb) t = .next u ∧ ∀ j, j < 8 → byteOf (u.x rt) j = byteOf (s.x rs) (7 - j)) ∧
    (k < 8 → s.eaD ra d = s.byteAddr (s.eaDS ra ds) k →
      ∃ u, exec (.lbz rt ra d) t = .next u ∧ (u.x rt).toNat = (byteOf (s.x rs) (if s.le then k else 7 - k)).toNat)

/-! ### Invalid forms, privilege, exceptions -/

/-- An instruction is refused as an invalid form exactly when its fields are a combination R120 lists. -/
def Obligations.InvalidFormsRefused : Prop :=
  ∀ (i : Instr) (s : State), exec i s = .refused (.invalidForm s.pc) ↔ InvalidForm i

/-- Outside the privilege state it needs an instruction does nothing but raise PrivilegedInstruction: the end of the run under
TRAP_MODE = environment, the Program interrupt with SRR1 bit 18 under architected; and under environment no instruction
raises it otherwise (R305, R310, R320, R321). -/
def Obligations.PrivilegeChecked : Prop :=
  ∀ (i : Instr) (s : State),
    (LacksPrivilege i s → s.params.trapMode = .architected →
      ∃ t, exec i s = .next t ∧ Interrupted s t 0x700 s.pc (fun k => k = 18) false) ∧
    (s.params.trapMode = .environment →
      (exec i s = .fault (.privilegedInstruction s.pc) ↔ LacksPrivilege i s))

/-- `twi`: with a the low-order word of RA and b the immediate as signed numbers, and both again as the unsigned 64-bit numbers
their sign extensions are, it goes on when no condition its TO selects holds; when one holds it traps, which ends the run
under TRAP_MODE = environment and is the Program interrupt with SRR1 bit 17 under architected (R251, R305, R310). -/
def Obligations.TrapWordImmediate : Prop :=
  ∀ (trapOn : BitVec 5) (ra : RegNum) (si : BitVec 16) (s : State) (a b : Int) (met : Prop),
    a = ((s.x ra).setWidth 32).toInt → b = si.toInt →
    (met ↔ (trapOn.getLsbD 4 = true ∧ a < b) ∨ (trapOn.getLsbD 3 = true ∧ b < a) ∨ (trapOn.getLsbD 2 = true ∧ a = b) ∨
      (trapOn.getLsbD 1 = true ∧ a % 2 ^ 64 < b % 2 ^ 64) ∨ (trapOn.getLsbD 0 = true ∧ b % 2 ^ 64 < a % 2 ^ 64)) →
    (¬ met → ∃ t, exec (.twi trapOn ra si) s = .next t ∧ t.pc = s.nextPc ∧ Frame s t [] [] [] []) ∧
    (met → s.params.trapMode = .environment → exec (.twi trapOn ra si) s = .fault (.trap s.pc)) ∧
    (met → s.params.trapMode = .architected →
      ∃ t, exec (.twi trapOn ra si) s = .next t ∧ Interrupted s t 0x700 s.pc (fun k => k = 17) false)

/-- `sc` in every state: under TRAP_MODE = environment the run ends with LEV and the address of the next instruction; under
architected the System Call interrupt is taken, with that address in SRR0, and HV set when `LEV[0]` is 1 (R291, R305, R306,
R311). -/
def Obligations.SystemCallEnters : Prop :=
  ∀ (lev : BitVec 7) (s : State),
    (s.params.trapMode = .environment → exec (.sc lev) s = .fault (.systemCall lev s.nextPc)) ∧
    (s.params.trapMode = .architected →
      ∃ t, exec (.sc lev) s = .next t ∧ Interrupted s t 0xC00 s.nextPc (fun _ => false) (lev.getLsbD 0))

/-! ### System registers -/

/-- `mtspr` and `mfspr` complete for each of the six numbers of R40, in every state for XER, LR, CTR and TAR and in privileged
state for SRR0 and SRR1: all 64 bits move, and reading changes no special purpose register (R262, R263). -/
def Obligations.SprMoves : Prop :=
  ∀ (n : BitVec 10) (r : Spr) (x : RegNum) (s : State),
    (n, r) ∈ ([(1, .xer), (8, .lr), (9, .ctr), (26, .srr0), (27, .srr1), (815, .tar)] : List (BitVec 10 × Spr)) →
    ((r = .srr0 ∨ r = .srr1) → s.pr = false) →
    (∃ t, exec (.mtspr x n) s = .next t ∧ t.pc = s.nextPc ∧ t.spr r = s.x x ∧ Frame s t [] [] [r] []) ∧
    (∃ t, exec (.mfspr x n) s = .next t ∧ t.pc = s.nextPc ∧ t.x x = s.spr r ∧ Frame s t [x] [] [] [])

/-- The check of an SPR number, the same for `mtspr` and `mfspr`: a number outside the six is refused, in problem state as
well; SRR0 and SRR1 in problem state raise PrivilegedInstruction (R264). -/
def Obligations.SprNumberChecked : Prop :=
  ∀ (n : BitVec 10) (x : RegNum) (s : State) (i : Instr), (i = .mtspr x n ∨ i = .mfspr x n) →
    (n.toNat ∉ [1, 8, 9, 26, 27, 815] → exec i s = .refused (.undefinedSpr s.pc)) ∧
    (n.toNat ∈ [26, 27] → s.pr = true →
      (s.params.trapMode = .environment → exec i s = .fault (.privilegedInstruction s.pc)) ∧
      (s.params.trapMode = .architected →
        ∃ t, exec i s = .next t ∧ Interrupted s t 0x700 s.pc (fun k => k = 18) false))

/-- `mcrxrx` completes in every state: field BF becomes OV, OV32, CA, CA32 of the XER, which does not change (R38, R265). -/
def Obligations.XerFlagsCopied : Prop :=
  ∀ (bf : CrFieldNum) (s : State), ∃ t, exec (.mcrxrx bf) s = .next t ∧ t.pc = s.nextPc ∧
    FieldIs t bf (s.xer.getLsbD 30) (s.xer.getLsbD 19) (s.xer.getLsbD 29) (s.xer.getLsbD 18) ∧
    Frame s t [] (fieldBits bf) [] []

/-- `mtmsr` completes in privileged state, in which alone it may run. With L = 0 bits 31:23, 21:16, 14:13, 11:6 and 3:1 come from RS, and EE, IR and DR
from RS or PR; with L = 1 only EE and RI come from RS. Every other MSR bit keeps its value (R267). -/
def Obligations.MoveToMsr : Prop :=
  ∀ (rs : RegNum) (l : Bool) (s : State), s.pr = false →
    ∃ t, exec (.mtmsr rs l) s = .next t ∧ t.pc = s.nextPc ∧ Untouched s t [] [] [] [] ∧
      ∀ k, k < 64 → t.msr.getLsbD k =
        if l then (if k = 15 ∨ k = 1 then (s.x rs).getLsbD k else s.msr.getLsbD k)
        else if (23 ≤ k ∧ k ≤ 31) ∨ (16 ≤ k ∧ k ≤ 21) ∨ (13 ≤ k ∧ k ≤ 14) ∨ (6 ≤ k ∧ k ≤ 11) ∨ (1 ≤ k ∧ k ≤ 3) then
          (s.x rs).getLsbD k
        else if k = 15 ∨ k = 5 ∨ k = 4 then ((s.x rs).getLsbD k || (s.x rs).getLsbD 14)
        else s.msr.getLsbD k

/-- `tlbie`, `tlbiel` and `tlbsync` in privileged state stop at the spec's refusal "no TLB"; in problem state they raise
PrivilegedInstruction (R271 to R273), which under TRAP_MODE = environment ends the run (R305) and under architected is the
Program interrupt with SRR1 bit 18 (R306, R310). -/
def Obligations.TlbInstructionsStop : Prop :=
  ∀ (rs rb : RegNum) (ric : BitVec 2) (prs r : Bool) (i : Instr) (s : State),
    (i = .tlbie rs ric prs r rb ∨ i = .tlbiel rs ric prs r rb ∨ i = .tlbsync) →
    (s.pr = false → exec i s = .refused (.noTlb s.pc)) ∧
    (s.pr = true → s.params.trapMode = .environment → exec i s = .fault (.privilegedInstruction s.pc)) ∧
    (s.pr = true → s.params.trapMode = .architected →
      ∃ t, exec i s = .next t ∧ Interrupted s t 0x700 s.pc (fun k => k = 18) false)

/-- `setvl`, handed to the machine by name, stops at the spec's refusal in every state, and no word decodes to it (R256). -/
def Obligations.SetvlStops : Prop :=
  (∀ s : State, exec .setvl s = .refused (.setvlNotSpecified s.pc)) ∧ ∀ w, decode w ≠ some .setvl
end

