-- ==== Sys2Proof/Laws/Bits.lean ====
section
/-!
SUPPORT. What each bit of a mask, a merge, a copied field and a set bit is, and the lengths of byte strings.
-/
namespace Sys2Proof.Machine

theorem getLsbD_fieldMask {hi : Nat} (lo i : Nat) (h : hi < 64) :
    (fieldMask hi lo).getLsbD i = decide (lo ≤ i ∧ i ≤ hi) := by
  simp only [fieldMask, BitVec.getLsbD_shiftLeft, BitVec.getLsbD_setWidth, BitVec.getLsbD_allOnes]
  rw [Bool.eq_iff_iff]
  simp
  omega

theorem getLsbD_merge (mask old new : DWord) (i : Nat) (h : i < 64) :
    (merge mask old new).getLsbD i = if mask.getLsbD i then new.getLsbD i else old.getLsbD i := by
  simp only [merge, BitVec.getLsbD_or, BitVec.getLsbD_and, BitVec.getLsbD_not, h]
  cases mask.getLsbD i <;> simp

theorem getLsbD_copyField {hi : Nat} (lo : Nat) (src dst : DWord) (i : Nat) (hh : hi < 64) (h : i < 64) :
    (copyField hi lo src dst).getLsbD i = if lo ≤ i ∧ i ≤ hi then src.getLsbD i else dst.getLsbD i := by
  rw [copyField, getLsbD_merge _ _ _ _ h, getLsbD_fieldMask _ _ hh]
  simp

theorem getLsbD_setBit {j : Nat} (x : Bool) (v : DWord) (i : Nat) (hj : j < 64) (h : i < 64) :
    (setBit j x v).getLsbD i = if i = j then x else v.getLsbD i := by
  have e : (fieldMask j j).getLsbD i = decide (i = j) := by
    rw [getLsbD_fieldMask _ _ hj]
    congr 1
    exact propext ⟨fun h => by omega, fun h => by omega⟩
  cases x <;> simp only [setBit, Bool.false_eq_true, if_false, if_true, BitVec.getLsbD_or, BitVec.getLsbD_and,
    BitVec.getLsbD_not, e, h] <;> by_cases hij : i = j <;> simp [hij]

@[simp] theorem bytesOf_length {w : Nat} (n : Nat) (v : BitVec w) : (bytesOf n v).length = n := by simp [bytesOf]

@[simp] theorem toStorage_length {w : Nat} (le : Bool) (n : Nat) (v : BitVec w) : (toStorage le n v).length = n := by
  cases le <;> simp [toStorage]

/-- Reversing twice is the identity, so storing reversed bytes and loading them reversed cancel. -/
theorem fromStorage_reversed (le : Bool) (w : Nat) (bs : List Byte) :
    fromStorage le w bs.reverse = fromStorage (!le) w bs := by
  cases le <;> simp [fromStorage]

/-- Joining one more byte at the low end. -/
theorem joinBytes_concat (w : Nat) (bs : List Byte) (b : Byte) :
    joinBytes w (bs ++ [b]) = (joinBytes w bs <<< 8) ||| b.setWidth w := by
  simp [joinBytes]

/-- The low-order bytes of a value, joined again, are its low-order 8n bits. -/
theorem getLsbD_joinBytes_bytesOf {u : Nat} (w n : Nat) (v : BitVec u) (i : Nat) (hi : i < w) :
    (joinBytes w (bytesOf n v)).getLsbD i = (decide (i < 8 * n) && v.getLsbD i) := by
  induction n generalizing v i with
  | zero => simp [bytesOf, joinBytes]
  | succ n ih =>
    have e : bytesOf (n + 1) v = bytesOf n (v >>> 8) ++ [v.extractLsb' 0 8] := by
      simp only [bytesOf, List.range_succ, List.map_append, List.map_cons, List.map_nil]
      congr 1
      · apply List.map_congr_left
        intro k hk
        rw [List.mem_range] at hk
        apply BitVec.eq_of_getLsbD_eq
        intro j hj
        simp only [BitVec.getLsbD_extractLsb', hj, BitVec.getLsbD_ushiftRight]
        congr 2
        omega
      · simp
    rw [e, joinBytes_concat, BitVec.getLsbD_or, BitVec.getLsbD_shiftLeft, BitVec.getLsbD_setWidth]
    by_cases h8 : i < 8
    · simp [hi, h8]
      intro _
      omega
    · rw [ih _ _ (by omega)]
      have h3 : 8 + (i - 8) = i := by omega
      have h4 : decide (i - 8 < 8 * n) = decide (i < 8 * (n + 1)) := by
        apply decide_eq_decide.mpr
        omega
      simp [hi, h8, h3, h4, BitVec.getLsbD_ushiftRight]

/-- An 8n-bit value laid out and read back in the same byte order is its low-order 8n bits (R63). -/
theorem getLsbD_fromStorage_toStorage {u : Nat} (le : Bool) (w n : Nat) (v : BitVec u) (i : Nat) (hi : i < w) :
    (fromStorage le w (toStorage le n v)).getLsbD i = (decide (i < 8 * n) && v.getLsbD i) := by
  cases le
  · exact getLsbD_joinBytes_bytesOf w n v i hi
  · simp only [fromStorage, toStorage, if_true, List.reverse_reverse]
    exact getLsbD_joinBytes_bytesOf w n v i hi

end Sys2Proof.Machine
end

