-- ==== Sys2Proof/Laws/Encoding.lean ====
section
/-!
SUPPORT. What each slice of an encoded word is, form by form, and that a word is the joining of its slices. The lemmas
about decoding and encoding rest on these and unfold no form again.
-/
namespace Sys2Proof

theorem slice_append_high {n m k : Nat} (x : BitVec n) (y : BitVec m) (start : Nat) (h : m ≤ start) :
    (x ++ y).extractLsb' start k = x.extractLsb' (start - m) k :=
  BitVec.extractLsb'_append_eq_of_le h

theorem slice_append_low {n m k : Nat} (x : BitVec n) (y : BitVec m) (start : Nat) (h : start + k ≤ m) :
    (x ++ y).extractLsb' start k = y.extractLsb' start k :=
  BitVec.extractLsb'_append_eq_of_add_le h

theorem slice_whole {n : Nat} (x : BitVec n) : x.extractLsb' 0 n = x := by simp

theorem getLsbD_append_high {n m : Nat} (x : BitVec n) (y : BitVec m) (i : Nat) (h : m ≤ i) :
    (x ++ y).getLsbD i = x.getLsbD (i - m) := by
  rw [BitVec.getLsbD_append, if_neg (by omega)]

theorem getLsbD_append_low {n m : Nat} (x : BitVec n) (y : BitVec m) (i : Nat) (h : i < m) :
    (x ++ y).getLsbD i = y.getLsbD i := by
  rw [BitVec.getLsbD_append, if_pos h]

theorem getLsbD_bit (v : Bool) : (bit v).getLsbD 0 = v := by cases v <;> rfl

theorem bit_getLsbD {n : Nat} (w : BitVec n) (i : Nat) : bit (w.getLsbD i) = w.extractLsb' i 1 := by
  apply BitVec.eq_of_getLsbD_eq
  intro j hj
  obtain rfl : j = 0 := by omega
  rw [getLsbD_bit]
  simp

/-! ### Slices of each form -/

theorem formX_po (po a b c xo r) : (formX po a b c xo r).po = po := by
  unfold formX IWord.po
  exact (slice_append_high _ _ _ (by omega)).trans <|
    (slice_append_high _ _ _ (by omega)).trans <|
    (slice_append_high _ _ _ (by omega)).trans <|
    (slice_append_high _ _ _ (by omega)).trans <|
    (slice_append_high _ _ _ (by omega)).trans <|
    (slice_whole _)

theorem formX_f6 (po a b c xo r) : (formX po a b c xo r).f6 = a := by
  unfold formX IWord.f6
  exact (slice_append_high _ _ _ (by omega)).trans <|
    (slice_append_high _ _ _ (by omega)).trans <|
    (slice_append_high _ _ _ (by omega)).trans <|
    (slice_append_high _ _ _ (by omega)).trans <|
    (slice_append_low _ _ _ (by omega)).trans <|
    (slice_whole _)

theorem formX_f11 (po a b c xo r) : (formX po a b c xo r).f11 = b := by
  unfold formX IWord.f11
  exact (slice_append_high _ _ _ (by omega)).trans <|
    (slice_append_high _ _ _ (by omega)).trans <|
    (slice_append_high _ _ _ (by omega)).trans <|
    (slice_append_low _ _ _ (by omega)).trans <|
    (slice_whole _)

theorem formX_f16 (po a b c xo r) : (formX po a b c xo r).f16 = c := by
  unfold formX IWord.f16
  exact (slice_append_high _ _ _ (by omega)).trans <|
    (slice_append_high _ _ _ (by omega)).trans <|
    (slice_append_low _ _ _ (by omega)).trans <|
    (slice_whole _)

theorem formX_xo (po a b c xo r) : (formX po a b c xo r).xo = xo := by
  unfold formX IWord.xo
  exact (slice_append_high _ _ _ (by omega)).trans <|
    (slice_append_low _ _ _ (by omega)).trans <|
    (slice_whole _)

theorem formX_b31 (po a b c xo r) : (formX po a b c xo r).b31 = r := by
  unfold formX IWord.b31
  exact (getLsbD_append_low _ _ _ (by omega)).trans <|
    (getLsbD_bit _)

theorem formX_of_slices (w : IWord)  : formX w.po w.f6 w.f11 w.f16 w.xo w.b31 = w := by
  have e : formX w.po w.f6 w.f11 w.f16 w.xo w.b31 =
      (w.extractLsb' 26 6 ++ w.extractLsb' 21 5 ++ w.extractLsb' 16 5 ++ w.extractLsb' 11 5 ++ w.extractLsb' 1 10 ++ w.extractLsb' 0 1 : BitVec 32) := by
    simp only [formX, IWord.po, IWord.f6, IWord.f11, IWord.f16, IWord.xo, IWord.b31, bit_getLsbD]
  rw [e]
  apply BitVec.eq_of_getLsbD_eq
  intro i hi
  simp only [BitVec.getLsbD_append, BitVec.getLsbD_extractLsb']
  interval_cases i <;> simp

theorem formD_po (po a b imm) : (formD po a b imm).po = po := by
  unfold formD IWord.po
  exact (slice_append_high _ _ _ (by omega)).trans <|
    (slice_append_high _ _ _ (by omega)).trans <|
    (slice_append_high _ _ _ (by omega)).trans <|
    (slice_whole _)

theorem formD_f6 (po a b imm) : (formD po a b imm).f6 = a := by
  unfold formD IWord.f6
  exact (slice_append_high _ _ _ (by omega)).trans <|
    (slice_append_high _ _ _ (by omega)).trans <|
    (slice_append_low _ _ _ (by omega)).trans <|
    (slice_whole _)

theorem formD_f11 (po a b imm) : (formD po a b imm).f11 = b := by
  unfold formD IWord.f11
  exact (slice_append_high _ _ _ (by omega)).trans <|
    (slice_append_low _ _ _ (by omega)).trans <|
    (slice_whole _)

theorem formD_imm16 (po a b imm) : (formD po a b imm).imm16 = imm := by
  unfold formD IWord.imm16
  exact (slice_append_low _ _ _ (by omega)).trans <|
    (slice_whole _)

theorem formD_of_slices (w : IWord)  : formD w.po w.f6 w.f11 w.imm16 = w := by
  have e : formD w.po w.f6 w.f11 w.imm16 =
      (w.extractLsb' 26 6 ++ w.extractLsb' 21 5 ++ w.extractLsb' 16 5 ++ w.extractLsb' 0 16 : BitVec 32) := by
    simp only [formD, IWord.po, IWord.f6, IWord.f11, IWord.imm16]
  rw [e]
  apply BitVec.eq_of_getLsbD_eq
  intro i hi
  simp only [BitVec.getLsbD_append, BitVec.getLsbD_extractLsb']
  interval_cases i <;> simp

theorem formDS_po (po a b ds xo) : (formDS po a b ds xo).po = po := by
  unfold formDS IWord.po
  exact (slice_append_high _ _ _ (by omega)).trans <|
    (slice_append_high _ _ _ (by omega)).trans <|
    (slice_append_high _ _ _ (by omega)).trans <|
    (slice_append_high _ _ _ (by omega)).trans <|
    (slice_whole _)

theorem formDS_f6 (po a b ds xo) : (formDS po a b ds xo).f6 = a := by
  unfold formDS IWord.f6
  exact (slice_append_high _ _ _ (by omega)).trans <|
    (slice_append_high _ _ _ (by omega)).trans <|
    (slice_append_high _ _ _ (by omega)).trans <|
    (slice_append_low _ _ _ (by omega)).trans <|
    (slice_whole _)

theorem formDS_f11 (po a b ds xo) : (formDS po a b ds xo).f11 = b := by
  unfold formDS IWord.f11
  exact (slice_append_high _ _ _ (by omega)).trans <|
    (slice_append_high _ _ _ (by omega)).trans <|
    (slice_append_low _ _ _ (by omega)).trans <|
    (slice_whole _)

theorem formDS_imm14 (po a b ds xo) : (formDS po a b ds xo).imm14 = ds := by
  unfold formDS IWord.imm14
  exact (slice_append_high _ _ _ (by omega)).trans <|
    (slice_append_low _ _ _ (by omega)).trans <|
    (slice_whole _)

theorem formDS_xo2 (po a b ds xo) : (formDS po a b ds xo).xo2 = xo := by
  unfold formDS IWord.xo2
  exact (slice_append_low _ _ _ (by omega)).trans <|
    (slice_whole _)

theorem formDS_of_slices (w : IWord)  : formDS w.po w.f6 w.f11 w.imm14 w.xo2 = w := by
  have e : formDS w.po w.f6 w.f11 w.imm14 w.xo2 =
      (w.extractLsb' 26 6 ++ w.extractLsb' 21 5 ++ w.extractLsb' 16 5 ++ w.extractLsb' 2 14 ++ w.extractLsb' 0 2 : BitVec 32) := by
    simp only [formDS, IWord.po, IWord.f6, IWord.f11, IWord.imm14, IWord.xo2]
  rw [e]
  apply BitVec.eq_of_getLsbD_eq
  intro i hi
  simp only [BitVec.getLsbD_append, BitVec.getLsbD_extractLsb']
  interval_cases i <;> simp

theorem formDQ_po (po a b dq) : (formDQ po a b dq).po = po := by
  unfold formDQ IWord.po
  exact (slice_append_high _ _ _ (by omega)).trans <|
    (slice_append_high _ _ _ (by omega)).trans <|
    (slice_append_high _ _ _ (by omega)).trans <|
    (slice_append_high _ _ _ (by omega)).trans <|
    (slice_whole _)

theorem formDQ_f6 (po a b dq) : (formDQ po a b dq).f6 = a := by
  unfold formDQ IWord.f6
  exact (slice_append_high _ _ _ (by omega)).trans <|
    (slice_append_high _ _ _ (by omega)).trans <|
    (slice_append_high _ _ _ (by omega)).trans <|
    (slice_append_low _ _ _ (by omega)).trans <|
    (slice_whole _)

theorem formDQ_f11 (po a b dq) : (formDQ po a b dq).f11 = b := by
  unfold formDQ IWord.f11
  exact (slice_append_high _ _ _ (by omega)).trans <|
    (slice_append_high _ _ _ (by omega)).trans <|
    (slice_append_low _ _ _ (by omega)).trans <|
    (slice_whole _)

theorem formDQ_imm12 (po a b dq) : (formDQ po a b dq).imm12 = dq := by
  unfold formDQ IWord.imm12
  exact (slice_append_high _ _ _ (by omega)).trans <|
    (slice_append_low _ _ _ (by omega)).trans <|
    (slice_whole _)

theorem formDQ_low4 (po a b dq) : (formDQ po a b dq).low4 = 0 := by
  unfold formDQ IWord.low4
  exact (slice_append_low _ _ _ (by omega)).trans <|
    (slice_whole _)

theorem formDQ_of_slices (w : IWord) (h4 : w.low4 = 0#4) : formDQ w.po w.f6 w.f11 w.imm12 = w := by
  have e : formDQ w.po w.f6 w.f11 w.imm12 =
      (w.extractLsb' 26 6 ++ w.extractLsb' 21 5 ++ w.extractLsb' 16 5 ++ w.extractLsb' 4 12 ++ w.extractLsb' 0 4 : BitVec 32) := by
    simp only [IWord.po, IWord.f6, IWord.f11, IWord.imm12, IWord.low4] at *
    simp only [formDQ, h4]
  rw [e]
  apply BitVec.eq_of_getLsbD_eq
  intro i hi
  simp only [BitVec.getLsbD_append, BitVec.getLsbD_extractLsb']
  interval_cases i <;> simp

theorem formI_po (po li aa lk) : (formI po li aa lk).po = po := by
  unfold formI IWord.po
  exact (slice_append_high _ _ _ (by omega)).trans <|
    (slice_append_high _ _ _ (by omega)).trans <|
    (slice_append_high _ _ _ (by omega)).trans <|
    (slice_whole _)

theorem formI_imm24 (po li aa lk) : (formI po li aa lk).imm24 = li := by
  unfold formI IWord.imm24
  exact (slice_append_high _ _ _ (by omega)).trans <|
    (slice_append_high _ _ _ (by omega)).trans <|
    (slice_append_low _ _ _ (by omega)).trans <|
    (slice_whole _)

theorem formI_b30 (po li aa lk) : (formI po li aa lk).b30 = aa := by
  unfold formI IWord.b30
  exact (getLsbD_append_high _ _ _ (by omega)).trans <|
    (getLsbD_append_low _ _ _ (by omega)).trans <|
    (getLsbD_bit _)

theorem formI_b31 (po li aa lk) : (formI po li aa lk).b31 = lk := by
  unfold formI IWord.b31
  exact (getLsbD_append_low _ _ _ (by omega)).trans <|
    (getLsbD_bit _)

theorem formI_of_slices (w : IWord)  : formI w.po w.imm24 w.b30 w.b31 = w := by
  have e : formI w.po w.imm24 w.b30 w.b31 =
      (w.extractLsb' 26 6 ++ w.extractLsb' 2 24 ++ w.extractLsb' 1 1 ++ w.extractLsb' 0 1 : BitVec 32) := by
    simp only [formI, IWord.po, IWord.imm24, IWord.b30, IWord.b31, bit_getLsbD]
  rw [e]
  apply BitVec.eq_of_getLsbD_eq
  intro i hi
  simp only [BitVec.getLsbD_append, BitVec.getLsbD_extractLsb']
  interval_cases i <;> simp

theorem formB_po (po bo bi bd aa lk) : (formB po bo bi bd aa lk).po = po := by
  unfold formB IWord.po
  exact (slice_append_high _ _ _ (by omega)).trans <|
    (slice_append_high _ _ _ (by omega)).trans <|
    (slice_append_high _ _ _ (by omega)).trans <|
    (slice_append_high _ _ _ (by omega)).trans <|
    (slice_append_high _ _ _ (by omega)).trans <|
    (slice_whole _)

theorem formB_f6 (po bo bi bd aa lk) : (formB po bo bi bd aa lk).f6 = bo := by
  unfold formB IWord.f6
  exact (slice_append_high _ _ _ (by omega)).trans <|
    (slice_append_high _ _ _ (by omega)).trans <|
    (slice_append_high _ _ _ (by omega)).trans <|
    (slice_append_high _ _ _ (by omega)).trans <|
    (slice_append_low _ _ _ (by omega)).trans <|
    (slice_whole _)

theorem formB_f11 (po bo bi bd aa lk) : (formB po bo bi bd aa lk).f11 = bi := by
  unfold formB IWord.f11
  exact (slice_append_high _ _ _ (by omega)).trans <|
    (slice_append_high _ _ _ (by omega)).trans <|
    (slice_append_high _ _ _ (by omega)).trans <|
    (slice_append_low _ _ _ (by omega)).trans <|
    (slice_whole _)

theorem formB_imm14 (po bo bi bd aa lk) : (formB po bo bi bd aa lk).imm14 = bd := by
  unfold formB IWord.imm14
  exact (slice_append_high _ _ _ (by omega)).trans <|
    (slice_append_high _ _ _ (by omega)).trans <|
    (slice_append_low _ _ _ (by omega)).trans <|
    (slice_whole _)

theorem formB_b30 (po bo bi bd aa lk) : (formB po bo bi bd aa lk).b30 = aa := by
  unfold formB IWord.b30
  exact (getLsbD_append_high _ _ _ (by omega)).trans <|
    (getLsbD_append_low _ _ _ (by omega)).trans <|
    (getLsbD_bit _)

theorem formB_b31 (po bo bi bd aa lk) : (formB po bo bi bd aa lk).b31 = lk := by
  unfold formB IWord.b31
  exact (getLsbD_append_low _ _ _ (by omega)).trans <|
    (getLsbD_bit _)

theorem formB_of_slices (w : IWord)  : formB w.po w.f6 w.f11 w.imm14 w.b30 w.b31 = w := by
  have e : formB w.po w.f6 w.f11 w.imm14 w.b30 w.b31 =
      (w.extractLsb' 26 6 ++ w.extractLsb' 21 5 ++ w.extractLsb' 16 5 ++ w.extractLsb' 2 14 ++ w.extractLsb' 1 1 ++ w.extractLsb' 0 1 : BitVec 32) := by
    simp only [formB, IWord.po, IWord.f6, IWord.f11, IWord.imm14, IWord.b30, IWord.b31, bit_getLsbD]
  rw [e]
  apply BitVec.eq_of_getLsbD_eq
  intro i hi
  simp only [BitVec.getLsbD_append, BitVec.getLsbD_extractLsb']
  interval_cases i <;> simp

theorem formM_po (po rs ra sh mb me rc) : (formM po rs ra sh mb me rc).po = po := by
  unfold formM IWord.po
  exact (slice_append_high _ _ _ (by omega)).trans <|
    (slice_append_high _ _ _ (by omega)).trans <|
    (slice_append_high _ _ _ (by omega)).trans <|
    (slice_append_high _ _ _ (by omega)).trans <|
    (slice_append_high _ _ _ (by omega)).trans <|
    (slice_append_high _ _ _ (by omega)).trans <|
    (slice_whole _)

theorem formM_f6 (po rs ra sh mb me rc) : (formM po rs ra sh mb me rc).f6 = rs := by
  unfold formM IWord.f6
  exact (slice_append_high _ _ _ (by omega)).trans <|
    (slice_append_high _ _ _ (by omega)).trans <|
    (slice_append_high _ _ _ (by omega)).trans <|
    (slice_append_high _ _ _ (by omega)).trans <|
    (slice_append_high _ _ _ (by omega)).trans <|
    (slice_append_low _ _ _ (by omega)).trans <|
    (slice_whole _)

theorem formM_f11 (po rs ra sh mb me rc) : (formM po rs ra sh mb me rc).f11 = ra := by
  unfold formM IWord.f11
  exact (slice_append_high _ _ _ (by omega)).trans <|
    (slice_append_high _ _ _ (by omega)).trans <|
    (slice_append_high _ _ _ (by omega)).trans <|
    (slice_append_high _ _ _ (by omega)).trans <|
    (slice_append_low _ _ _ (by omega)).trans <|
    (slice_whole _)

theorem formM_f16 (po rs ra sh mb me rc) : (formM po rs ra sh mb me rc).f16 = sh := by
  unfold formM IWord.f16
  exact (slice_append_high _ _ _ (by omega)).trans <|
    (slice_append_high _ _ _ (by omega)).trans <|
    (slice_append_high _ _ _ (by omega)).trans <|
    (slice_append_low _ _ _ (by omega)).trans <|
    (slice_whole _)

theorem formM_mb (po rs ra sh mb me rc) : (formM po rs ra sh mb me rc).mb = mb := by
  unfold formM IWord.mb
  exact (slice_append_high _ _ _ (by omega)).trans <|
    (slice_append_high _ _ _ (by omega)).trans <|
    (slice_append_low _ _ _ (by omega)).trans <|
    (slice_whole _)

theorem formM_me (po rs ra sh mb me rc) : (formM po rs ra sh mb me rc).me = me := by
  unfold formM IWord.me
  exact (slice_append_high _ _ _ (by omega)).trans <|
    (slice_append_low _ _ _ (by omega)).trans <|
    (slice_whole _)

theorem formM_b31 (po rs ra sh mb me rc) : (formM po rs ra sh mb me rc).b31 = rc := by
  unfold formM IWord.b31
  exact (getLsbD_append_low _ _ _ (by omega)).trans <|
    (getLsbD_bit _)

theorem formM_of_slices (w : IWord)  : formM w.po w.f6 w.f11 w.f16 w.mb w.me w.b31 = w := by
  have e : formM w.po w.f6 w.f11 w.f16 w.mb w.me w.b31 =
      (w.extractLsb' 26 6 ++ w.extractLsb' 21 5 ++ w.extractLsb' 16 5 ++ w.extractLsb' 11 5 ++ w.extractLsb' 6 5 ++ w.extractLsb' 1 5 ++ w.extractLsb' 0 1 : BitVec 32) := by
    simp only [formM, IWord.po, IWord.f6, IWord.f11, IWord.f16, IWord.mb, IWord.me, IWord.b31, bit_getLsbD]
  rw [e]
  apply BitVec.eq_of_getLsbD_eq
  intro i hi
  simp only [BitVec.getLsbD_append, BitVec.getLsbD_extractLsb']
  interval_cases i <;> simp

theorem formSC_po (po lev) : (formSC po lev).po = po := by
  unfold formSC IWord.po
  exact (slice_append_high _ _ _ (by omega)).trans <|
    (slice_append_high _ _ _ (by omega)).trans <|
    (slice_append_high _ _ _ (by omega)).trans <|
    (slice_whole _)

theorem formSC_sc6 (po lev) : (formSC po lev).sc6 = 0 := by
  unfold formSC IWord.sc6
  exact (slice_append_high _ _ _ (by omega)).trans <|
    (slice_append_high _ _ _ (by omega)).trans <|
    (slice_append_low _ _ _ (by omega)).trans <|
    (slice_whole _)

theorem formSC_lev (po lev) : (formSC po lev).lev = lev := by
  unfold formSC IWord.lev
  exact (slice_append_high _ _ _ (by omega)).trans <|
    (slice_append_low _ _ _ (by omega)).trans <|
    (slice_whole _)

theorem formSC_sc27 (po lev) : (formSC po lev).sc27 = 2 := by
  unfold formSC IWord.sc27
  exact (slice_append_low _ _ _ (by omega)).trans <|
    (slice_whole _)

theorem formSC_of_slices (w : IWord) (h1 : w.sc6 = 0#14) (h3 : w.sc27 = 2#5) : formSC w.po w.lev = w := by
  have e : formSC w.po w.lev =
      (w.extractLsb' 26 6 ++ w.extractLsb' 12 14 ++ w.extractLsb' 5 7 ++ w.extractLsb' 0 5 : BitVec 32) := by
    simp only [IWord.po, IWord.sc6, IWord.lev, IWord.sc27] at *
    simp only [formSC, h1, h3]
  rw [e]
  apply BitVec.eq_of_getLsbD_eq
  intro i hi
  simp only [BitVec.getLsbD_append, BitVec.getLsbD_extractLsb']
  interval_cases i <;> simp


/-! ### The split five-bit places -/

theorem bfOf_cmpPlace (bf l) : bfOf (cmpPlace bf l) = bf := by revert bf l; decide
theorem bit9Of_cmpPlace (bf l) : bit9Of (cmpPlace bf l) = false := by revert bf l; decide
theorem lOf_cmpPlace (bf l) : lOf (cmpPlace bf l) = l := by revert bf l; decide
theorem cmpPlace_of_fields (f : BitVec 5) (h : bit9Of f = false) : cmpPlace (bfOf f) (lOf f) = f := by
  revert f; decide
theorem bfOf_bfPlace (bf) : bfOf (bfPlace bf) = bf := by revert bf; decide
theorem bits9to10Of_bfPlace (bf) : bits9to10Of (bfPlace bf) = 0 := by revert bf; decide
theorem bfPlace_of_fields (f : BitVec 5) (h : bits9to10Of f = 0) : bfPlace (bfOf f) = f := by revert f; decide
theorem bhOf_bhPlace (bh) : bhOf (bhPlace bh) = bh := by revert bh; decide
theorem bhResOf_bhPlace (bh) : bhResOf (bhPlace bh) = 0 := by revert bh; decide
theorem bhPlace_of_fields (f : BitVec 5) (h : bhResOf f = 0) : bhPlace (bhOf f) = f := by revert f; decide
theorem bit15Of_lPlace (l) : bit15Of (lPlace l) = l := by revert l; decide
theorem bits11to14Of_lPlace (l) : bits11to14Of (lPlace l) = 0 := by revert l; decide
theorem lPlace_of_fields (f : BitVec 5) (h : bits11to14Of f = 0) : lPlace (bit15Of f) = f := by revert f; decide
theorem bit11Of_tlbPlace (ric prs r) : bit11Of (tlbPlace ric prs r) = false := by revert ric prs r; decide
theorem ricOf_tlbPlace (ric prs r) : ricOf (tlbPlace ric prs r) = ric := by revert ric prs r; decide
theorem prsOf_tlbPlace (ric prs r) : prsOf (tlbPlace ric prs r) = prs := by revert ric prs r; decide
theorem rOf_tlbPlace (ric prs r) : rOf (tlbPlace ric prs r) = r := by revert ric prs r; decide
theorem tlbPlace_of_fields (f : BitVec 5) (h : bit11Of f = false) : tlbPlace (ricOf f) (prsOf f) (rOf f) = f := by
  revert f; decide

theorem sprNum_of_halves (n : BitVec 10) : sprNum (sprLow n) (sprHigh n) = n :=
  BitVec.extractLsb'_append_extractLsb'_eq_extractLsb' (x := n) (start₁ := 0) (start₂ := 5) (len₁ := 5) (len₂ := 5) rfl
    |>.trans (slice_whole n)
theorem sprLow_sprNum (a b : BitVec 5) : sprLow (sprNum a b) = a :=
  (slice_append_low _ _ _ (by omega)).trans (slice_whole _)
theorem sprHigh_sprNum (a b : BitVec 5) : sprHigh (sprNum a b) = b :=
  (slice_append_high _ _ _ (by omega)).trans (slice_whole _)

/-! ### Bytes of a word -/

/-- Laid out and joined again in one byte order, a word is itself (R67). -/
theorem iwordOfBytes_iwordBytes (le : Bool) (w : IWord) :
    ∃ b0 b1 b2 b3, iwordBytes le w = [b0, b1, b2, b3] ∧ iwordOfBytes le b0 b1 b2 b3 = w := by
  have e : (w.extractLsb' 24 8 ++ w.extractLsb' 16 8 ++ w.extractLsb' 8 8 ++ w.extractLsb' 0 8 : BitVec 32) = w := by
    apply BitVec.eq_of_getLsbD_eq
    intro i hi
    simp only [BitVec.getLsbD_append, BitVec.getLsbD_extractLsb']
    interval_cases i <;> simp
  cases le
  · exact ⟨_, _, _, _, rfl, e⟩
  · exact ⟨_, _, _, _, rfl, e⟩

end Sys2Proof
end

