-- ==== Sys2Proof/Laws/State.lean ====
section
/-!
SUPPORT. One lemma per field of the state per named update of it, so that no later proof unfolds an update; and what a start
state holds.
-/
namespace Sys2Proof.Machine

/-! ### setX -/

@[simp] theorem setX_pc (s : State) (r : RegNum) (v : DWord) : (s.setX r v).pc = s.pc := rfl
@[simp] theorem setX_crf (s : State) (r : RegNum) (v : DWord) : (s.setX r v).crf = s.crf := rfl
@[simp] theorem setX_xer (s : State) (r : RegNum) (v : DWord) : (s.setX r v).xer = s.xer := rfl
@[simp] theorem setX_lr (s : State) (r : RegNum) (v : DWord) : (s.setX r v).lr = s.lr := rfl
@[simp] theorem setX_ctr (s : State) (r : RegNum) (v : DWord) : (s.setX r v).ctr = s.ctr := rfl
@[simp] theorem setX_tar (s : State) (r : RegNum) (v : DWord) : (s.setX r v).tar = s.tar := rfl
@[simp] theorem setX_msr (s : State) (r : RegNum) (v : DWord) : (s.setX r v).msr = s.msr := rfl
@[simp] theorem setX_srr0 (s : State) (r : RegNum) (v : DWord) : (s.setX r v).srr0 = s.srr0 := rfl
@[simp] theorem setX_srr1 (s : State) (r : RegNum) (v : DWord) : (s.setX r v).srr1 = s.srr1 := rfl
@[simp] theorem setX_mem (s : State) (r : RegNum) (v : DWord) : (s.setX r v).mem = s.mem := rfl
@[simp] theorem setX_stored (s : State) (r : RegNum) (v : DWord) : (s.setX r v).stored = s.stored := rfl
@[simp] theorem setX_params (s : State) (r : RegNum) (v : DWord) : (s.setX r v).params = s.params := rfl

/-! ### setCrField -/

@[simp] theorem setCrField_pc (s : State) (n : CrFieldNum) (v : BitVec 4) : (s.setCrField n v).pc = s.pc := rfl
@[simp] theorem setCrField_gpr (s : State) (n : CrFieldNum) (v : BitVec 4) : (s.setCrField n v).gpr = s.gpr := rfl
@[simp] theorem setCrField_xer (s : State) (n : CrFieldNum) (v : BitVec 4) : (s.setCrField n v).xer = s.xer := rfl
@[simp] theorem setCrField_lr (s : State) (n : CrFieldNum) (v : BitVec 4) : (s.setCrField n v).lr = s.lr := rfl
@[simp] theorem setCrField_ctr (s : State) (n : CrFieldNum) (v : BitVec 4) : (s.setCrField n v).ctr = s.ctr := rfl
@[simp] theorem setCrField_tar (s : State) (n : CrFieldNum) (v : BitVec 4) : (s.setCrField n v).tar = s.tar := rfl
@[simp] theorem setCrField_msr (s : State) (n : CrFieldNum) (v : BitVec 4) : (s.setCrField n v).msr = s.msr := rfl
@[simp] theorem setCrField_srr0 (s : State) (n : CrFieldNum) (v : BitVec 4) : (s.setCrField n v).srr0 = s.srr0 := rfl
@[simp] theorem setCrField_srr1 (s : State) (n : CrFieldNum) (v : BitVec 4) : (s.setCrField n v).srr1 = s.srr1 := rfl
@[simp] theorem setCrField_mem (s : State) (n : CrFieldNum) (v : BitVec 4) : (s.setCrField n v).mem = s.mem := rfl
@[simp] theorem setCrField_stored (s : State) (n : CrFieldNum) (v : BitVec 4) : (s.setCrField n v).stored = s.stored := rfl
@[simp] theorem setCrField_params (s : State) (n : CrFieldNum) (v : BitVec 4) : (s.setCrField n v).params = s.params := rfl

/-! ### setCrBit -/

@[simp] theorem setCrBit_pc (s : State) (b : CrBitNum) (v : Bool) : (s.setCrBit b v).pc = s.pc := rfl
@[simp] theorem setCrBit_gpr (s : State) (b : CrBitNum) (v : Bool) : (s.setCrBit b v).gpr = s.gpr := rfl
@[simp] theorem setCrBit_xer (s : State) (b : CrBitNum) (v : Bool) : (s.setCrBit b v).xer = s.xer := rfl
@[simp] theorem setCrBit_lr (s : State) (b : CrBitNum) (v : Bool) : (s.setCrBit b v).lr = s.lr := rfl
@[simp] theorem setCrBit_ctr (s : State) (b : CrBitNum) (v : Bool) : (s.setCrBit b v).ctr = s.ctr := rfl
@[simp] theorem setCrBit_tar (s : State) (b : CrBitNum) (v : Bool) : (s.setCrBit b v).tar = s.tar := rfl
@[simp] theorem setCrBit_msr (s : State) (b : CrBitNum) (v : Bool) : (s.setCrBit b v).msr = s.msr := rfl
@[simp] theorem setCrBit_srr0 (s : State) (b : CrBitNum) (v : Bool) : (s.setCrBit b v).srr0 = s.srr0 := rfl
@[simp] theorem setCrBit_srr1 (s : State) (b : CrBitNum) (v : Bool) : (s.setCrBit b v).srr1 = s.srr1 := rfl
@[simp] theorem setCrBit_mem (s : State) (b : CrBitNum) (v : Bool) : (s.setCrBit b v).mem = s.mem := rfl
@[simp] theorem setCrBit_stored (s : State) (b : CrBitNum) (v : Bool) : (s.setCrBit b v).stored = s.stored := rfl
@[simp] theorem setCrBit_params (s : State) (b : CrBitNum) (v : Bool) : (s.setCrBit b v).params = s.params := rfl

/-! ### setCompare -/

@[simp] theorem setCompare_pc (s : State) (n : CrFieldNum) (lt gt : Bool) : (s.setCompare n lt gt).pc = s.pc := rfl
@[simp] theorem setCompare_gpr (s : State) (n : CrFieldNum) (lt gt : Bool) : (s.setCompare n lt gt).gpr = s.gpr := rfl
@[simp] theorem setCompare_xer (s : State) (n : CrFieldNum) (lt gt : Bool) : (s.setCompare n lt gt).xer = s.xer := rfl
@[simp] theorem setCompare_lr (s : State) (n : CrFieldNum) (lt gt : Bool) : (s.setCompare n lt gt).lr = s.lr := rfl
@[simp] theorem setCompare_ctr (s : State) (n : CrFieldNum) (lt gt : Bool) : (s.setCompare n lt gt).ctr = s.ctr := rfl
@[simp] theorem setCompare_tar (s : State) (n : CrFieldNum) (lt gt : Bool) : (s.setCompare n lt gt).tar = s.tar := rfl
@[simp] theorem setCompare_msr (s : State) (n : CrFieldNum) (lt gt : Bool) : (s.setCompare n lt gt).msr = s.msr := rfl
@[simp] theorem setCompare_srr0 (s : State) (n : CrFieldNum) (lt gt : Bool) : (s.setCompare n lt gt).srr0 = s.srr0 := rfl
@[simp] theorem setCompare_srr1 (s : State) (n : CrFieldNum) (lt gt : Bool) : (s.setCompare n lt gt).srr1 = s.srr1 := rfl
@[simp] theorem setCompare_mem (s : State) (n : CrFieldNum) (lt gt : Bool) : (s.setCompare n lt gt).mem = s.mem := rfl
@[simp] theorem setCompare_stored (s : State) (n : CrFieldNum) (lt gt : Bool) : (s.setCompare n lt gt).stored = s.stored := rfl
@[simp] theorem setCompare_params (s : State) (n : CrFieldNum) (lt gt : Bool) : (s.setCompare n lt gt).params = s.params := rfl

/-! ### recordCr0 -/

@[simp] theorem recordCr0_pc (s : State) (v : DWord) : (s.recordCr0 v).pc = s.pc := rfl
@[simp] theorem recordCr0_gpr (s : State) (v : DWord) : (s.recordCr0 v).gpr = s.gpr := rfl
@[simp] theorem recordCr0_xer (s : State) (v : DWord) : (s.recordCr0 v).xer = s.xer := rfl
@[simp] theorem recordCr0_lr (s : State) (v : DWord) : (s.recordCr0 v).lr = s.lr := rfl
@[simp] theorem recordCr0_ctr (s : State) (v : DWord) : (s.recordCr0 v).ctr = s.ctr := rfl
@[simp] theorem recordCr0_tar (s : State) (v : DWord) : (s.recordCr0 v).tar = s.tar := rfl
@[simp] theorem recordCr0_msr (s : State) (v : DWord) : (s.recordCr0 v).msr = s.msr := rfl
@[simp] theorem recordCr0_srr0 (s : State) (v : DWord) : (s.recordCr0 v).srr0 = s.srr0 := rfl
@[simp] theorem recordCr0_srr1 (s : State) (v : DWord) : (s.recordCr0 v).srr1 = s.srr1 := rfl
@[simp] theorem recordCr0_mem (s : State) (v : DWord) : (s.recordCr0 v).mem = s.mem := rfl
@[simp] theorem recordCr0_stored (s : State) (v : DWord) : (s.recordCr0 v).stored = s.stored := rfl
@[simp] theorem recordCr0_params (s : State) (v : DWord) : (s.recordCr0 v).params = s.params := rfl

/-! ### recordIf -/

@[simp] theorem recordIf_pc (s : State) (rc : Bool) (v : DWord) : (s.recordIf rc v).pc = s.pc := by cases rc <;> rfl
@[simp] theorem recordIf_gpr (s : State) (rc : Bool) (v : DWord) : (s.recordIf rc v).gpr = s.gpr := by cases rc <;> rfl
@[simp] theorem recordIf_xer (s : State) (rc : Bool) (v : DWord) : (s.recordIf rc v).xer = s.xer := by cases rc <;> rfl
@[simp] theorem recordIf_lr (s : State) (rc : Bool) (v : DWord) : (s.recordIf rc v).lr = s.lr := by cases rc <;> rfl
@[simp] theorem recordIf_ctr (s : State) (rc : Bool) (v : DWord) : (s.recordIf rc v).ctr = s.ctr := by cases rc <;> rfl
@[simp] theorem recordIf_tar (s : State) (rc : Bool) (v : DWord) : (s.recordIf rc v).tar = s.tar := by cases rc <;> rfl
@[simp] theorem recordIf_msr (s : State) (rc : Bool) (v : DWord) : (s.recordIf rc v).msr = s.msr := by cases rc <;> rfl
@[simp] theorem recordIf_srr0 (s : State) (rc : Bool) (v : DWord) : (s.recordIf rc v).srr0 = s.srr0 := by cases rc <;> rfl
@[simp] theorem recordIf_srr1 (s : State) (rc : Bool) (v : DWord) : (s.recordIf rc v).srr1 = s.srr1 := by cases rc <;> rfl
@[simp] theorem recordIf_mem (s : State) (rc : Bool) (v : DWord) : (s.recordIf rc v).mem = s.mem := by cases rc <;> rfl
@[simp] theorem recordIf_stored (s : State) (rc : Bool) (v : DWord) : (s.recordIf rc v).stored = s.stored := by cases rc <;> rfl
@[simp] theorem recordIf_params (s : State) (rc : Bool) (v : DWord) : (s.recordIf rc v).params = s.params := by cases rc <;> rfl

/-! ### advance -/

@[simp] theorem advance_pc (s : State) : s.advance.pc = s.nextPc := rfl
@[simp] theorem advance_gpr (s : State) : s.advance.gpr = s.gpr := rfl
@[simp] theorem advance_crf (s : State) : s.advance.crf = s.crf := rfl
@[simp] theorem advance_xer (s : State) : s.advance.xer = s.xer := rfl
@[simp] theorem advance_lr (s : State) : s.advance.lr = s.lr := rfl
@[simp] theorem advance_ctr (s : State) : s.advance.ctr = s.ctr := rfl
@[simp] theorem advance_tar (s : State) : s.advance.tar = s.tar := rfl
@[simp] theorem advance_msr (s : State) : s.advance.msr = s.msr := rfl
@[simp] theorem advance_srr0 (s : State) : s.advance.srr0 = s.srr0 := rfl
@[simp] theorem advance_srr1 (s : State) : s.advance.srr1 = s.srr1 := rfl
@[simp] theorem advance_mem (s : State) : s.advance.mem = s.mem := rfl
@[simp] theorem advance_stored (s : State) : s.advance.stored = s.stored := rfl
@[simp] theorem advance_params (s : State) : s.advance.params = s.params := rfl

/-! ### branchTo -/

@[simp] theorem branchTo_pc (s : State) (t : Addr) : (s.branchTo t).pc = wordAligned (s.truncate t) := rfl
@[simp] theorem branchTo_gpr (s : State) (t : Addr) : (s.branchTo t).gpr = s.gpr := rfl
@[simp] theorem branchTo_crf (s : State) (t : Addr) : (s.branchTo t).crf = s.crf := rfl
@[simp] theorem branchTo_xer (s : State) (t : Addr) : (s.branchTo t).xer = s.xer := rfl
@[simp] theorem branchTo_lr (s : State) (t : Addr) : (s.branchTo t).lr = s.lr := rfl
@[simp] theorem branchTo_ctr (s : State) (t : Addr) : (s.branchTo t).ctr = s.ctr := rfl
@[simp] theorem branchTo_tar (s : State) (t : Addr) : (s.branchTo t).tar = s.tar := rfl
@[simp] theorem branchTo_msr (s : State) (t : Addr) : (s.branchTo t).msr = s.msr := rfl
@[simp] theorem branchTo_srr0 (s : State) (t : Addr) : (s.branchTo t).srr0 = s.srr0 := rfl
@[simp] theorem branchTo_srr1 (s : State) (t : Addr) : (s.branchTo t).srr1 = s.srr1 := rfl
@[simp] theorem branchTo_mem (s : State) (t : Addr) : (s.branchTo t).mem = s.mem := rfl
@[simp] theorem branchTo_stored (s : State) (t : Addr) : (s.branchTo t).stored = s.stored := rfl
@[simp] theorem branchTo_params (s : State) (t : Addr) : (s.branchTo t).params = s.params := rfl

/-! ### linkIf -/

@[simp] theorem linkIf_pc (s : State) (lk : Bool) : (s.linkIf lk).pc = s.pc := by cases lk <;> rfl
@[simp] theorem linkIf_gpr (s : State) (lk : Bool) : (s.linkIf lk).gpr = s.gpr := by cases lk <;> rfl
@[simp] theorem linkIf_crf (s : State) (lk : Bool) : (s.linkIf lk).crf = s.crf := by cases lk <;> rfl
@[simp] theorem linkIf_xer (s : State) (lk : Bool) : (s.linkIf lk).xer = s.xer := by cases lk <;> rfl
@[simp] theorem linkIf_lr (s : State) (lk : Bool) : (s.linkIf lk).lr = if lk then s.nextPc else s.lr := by cases lk <;> rfl
@[simp] theorem linkIf_ctr (s : State) (lk : Bool) : (s.linkIf lk).ctr = s.ctr := by cases lk <;> rfl
@[simp] theorem linkIf_tar (s : State) (lk : Bool) : (s.linkIf lk).tar = s.tar := by cases lk <;> rfl
@[simp] theorem linkIf_msr (s : State) (lk : Bool) : (s.linkIf lk).msr = s.msr := by cases lk <;> rfl
@[simp] theorem linkIf_srr0 (s : State) (lk : Bool) : (s.linkIf lk).srr0 = s.srr0 := by cases lk <;> rfl
@[simp] theorem linkIf_srr1 (s : State) (lk : Bool) : (s.linkIf lk).srr1 = s.srr1 := by cases lk <;> rfl
@[simp] theorem linkIf_mem (s : State) (lk : Bool) : (s.linkIf lk).mem = s.mem := by cases lk <;> rfl
@[simp] theorem linkIf_stored (s : State) (lk : Bool) : (s.linkIf lk).stored = s.stored := by cases lk <;> rfl
@[simp] theorem linkIf_params (s : State) (lk : Bool) : (s.linkIf lk).params = s.params := by cases lk <;> rfl

/-! ### interrupt -/

@[simp] theorem interrupt_pc (s : State) (vec ret : Addr) (info : DWord) : (s.interrupt vec ret info).pc = vec := rfl
@[simp] theorem interrupt_gpr (s : State) (vec ret : Addr) (info : DWord) : (s.interrupt vec ret info).gpr = s.gpr := rfl
@[simp] theorem interrupt_crf (s : State) (vec ret : Addr) (info : DWord) : (s.interrupt vec ret info).crf = s.crf := rfl
@[simp] theorem interrupt_xer (s : State) (vec ret : Addr) (info : DWord) : (s.interrupt vec ret info).xer = s.xer := rfl
@[simp] theorem interrupt_lr (s : State) (vec ret : Addr) (info : DWord) : (s.interrupt vec ret info).lr = s.lr := rfl
@[simp] theorem interrupt_ctr (s : State) (vec ret : Addr) (info : DWord) : (s.interrupt vec ret info).ctr = s.ctr := rfl
@[simp] theorem interrupt_tar (s : State) (vec ret : Addr) (info : DWord) : (s.interrupt vec ret info).tar = s.tar := rfl
@[simp] theorem interrupt_msr (s : State) (vec ret : Addr) (info : DWord) : (s.interrupt vec ret info).msr = s.handlerMsr := rfl
@[simp] theorem interrupt_srr0 (s : State) (vec ret : Addr) (info : DWord) : (s.interrupt vec ret info).srr0 = wordAligned ret := rfl
@[simp] theorem interrupt_srr1 (s : State) (vec ret : Addr) (info : DWord) : (s.interrupt vec ret info).srr1 = merge srr1InfoMask s.msr info := rfl
@[simp] theorem interrupt_mem (s : State) (vec ret : Addr) (info : DWord) : (s.interrupt vec ret info).mem = s.mem := rfl
@[simp] theorem interrupt_stored (s : State) (vec ret : Addr) (info : DWord) : (s.interrupt vec ret info).stored = s.stored := rfl
@[simp] theorem interrupt_params (s : State) (vec ret : Addr) (info : DWord) : (s.interrupt vec ret info).params = s.params := rfl

/-! ### systemCallEntry -/

@[simp] theorem systemCallEntry_pc (s : State) (lev : BitVec 7) : (s.systemCallEntry lev).pc = systemCallVector := by
  unfold State.systemCallEntry
  cases lev.getLsbD 0 <;> rfl
@[simp] theorem systemCallEntry_gpr (s : State) (lev : BitVec 7) : (s.systemCallEntry lev).gpr = s.gpr := by
  unfold State.systemCallEntry
  cases lev.getLsbD 0 <;> rfl
@[simp] theorem systemCallEntry_crf (s : State) (lev : BitVec 7) : (s.systemCallEntry lev).crf = s.crf := by
  unfold State.systemCallEntry
  cases lev.getLsbD 0 <;> rfl
@[simp] theorem systemCallEntry_xer (s : State) (lev : BitVec 7) : (s.systemCallEntry lev).xer = s.xer := by
  unfold State.systemCallEntry
  cases lev.getLsbD 0 <;> rfl
@[simp] theorem systemCallEntry_lr (s : State) (lev : BitVec 7) : (s.systemCallEntry lev).lr = s.lr := by
  unfold State.systemCallEntry
  cases lev.getLsbD 0 <;> rfl
@[simp] theorem systemCallEntry_ctr (s : State) (lev : BitVec 7) : (s.systemCallEntry lev).ctr = s.ctr := by
  unfold State.systemCallEntry
  cases lev.getLsbD 0 <;> rfl
@[simp] theorem systemCallEntry_tar (s : State) (lev : BitVec 7) : (s.systemCallEntry lev).tar = s.tar := by
  unfold State.systemCallEntry
  cases lev.getLsbD 0 <;> rfl
@[simp] theorem systemCallEntry_msr (s : State) (lev : BitVec 7) : (s.systemCallEntry lev).msr = if lev.getLsbD 0 then setBit 60 true s.handlerMsr else s.handlerMsr := by
  unfold State.systemCallEntry
  cases lev.getLsbD 0 <;> rfl
@[simp] theorem systemCallEntry_srr0 (s : State) (lev : BitVec 7) : (s.systemCallEntry lev).srr0 = wordAligned s.nextPc := by
  unfold State.systemCallEntry
  cases lev.getLsbD 0 <;> rfl
@[simp] theorem systemCallEntry_srr1 (s : State) (lev : BitVec 7) : (s.systemCallEntry lev).srr1 = merge srr1InfoMask s.msr 0 := by
  unfold State.systemCallEntry
  cases lev.getLsbD 0 <;> rfl
@[simp] theorem systemCallEntry_mem (s : State) (lev : BitVec 7) : (s.systemCallEntry lev).mem = s.mem := by
  unfold State.systemCallEntry
  cases lev.getLsbD 0 <;> rfl
@[simp] theorem systemCallEntry_stored (s : State) (lev : BitVec 7) : (s.systemCallEntry lev).stored = s.stored := by
  unfold State.systemCallEntry
  cases lev.getLsbD 0 <;> rfl
@[simp] theorem systemCallEntry_params (s : State) (lev : BitVec 7) : (s.systemCallEntry lev).params = s.params := by
  unfold State.systemCallEntry
  cases lev.getLsbD 0 <;> rfl

/-! ### writeCells -/

@[simp] theorem writeCells_pc (s : State) (cells : List Host.Cell) : (s.writeCells cells).pc = s.pc := rfl
@[simp] theorem writeCells_gpr (s : State) (cells : List Host.Cell) : (s.writeCells cells).gpr = s.gpr := rfl
@[simp] theorem writeCells_crf (s : State) (cells : List Host.Cell) : (s.writeCells cells).crf = s.crf := rfl
@[simp] theorem writeCells_xer (s : State) (cells : List Host.Cell) : (s.writeCells cells).xer = s.xer := rfl
@[simp] theorem writeCells_lr (s : State) (cells : List Host.Cell) : (s.writeCells cells).lr = s.lr := rfl
@[simp] theorem writeCells_ctr (s : State) (cells : List Host.Cell) : (s.writeCells cells).ctr = s.ctr := rfl
@[simp] theorem writeCells_tar (s : State) (cells : List Host.Cell) : (s.writeCells cells).tar = s.tar := rfl
@[simp] theorem writeCells_msr (s : State) (cells : List Host.Cell) : (s.writeCells cells).msr = s.msr := rfl
@[simp] theorem writeCells_srr0 (s : State) (cells : List Host.Cell) : (s.writeCells cells).srr0 = s.srr0 := rfl
@[simp] theorem writeCells_srr1 (s : State) (cells : List Host.Cell) : (s.writeCells cells).srr1 = s.srr1 := rfl
@[simp] theorem writeCells_mem (s : State) (cells : List Host.Cell) : (s.writeCells cells).mem = s.mem.writeAll cells := rfl
@[simp] theorem writeCells_stored (s : State) (cells : List Host.Cell) : (s.writeCells cells).stored = cells.foldl (fun l c => addMark l c.1) s.stored := rfl
@[simp] theorem writeCells_params (s : State) (cells : List Host.Cell) : (s.writeCells cells).params = s.params := rfl

/-! ### branchCond -/

@[simp] theorem branchCond_pc (s : State) (bo : BitVec 5) (bi : CrBitNum) (lk : Bool) (t : Addr) : (s.branchCond bo bi lk t).pc = if s.branchOk bo bi then wordAligned (s.truncate t) else s.nextPc := by
  unfold State.branchCond
  cases s.branchOk bo bi <;> cases lk <;> rfl
@[simp] theorem branchCond_gpr (s : State) (bo : BitVec 5) (bi : CrBitNum) (lk : Bool) (t : Addr) : (s.branchCond bo bi lk t).gpr = s.gpr := by
  unfold State.branchCond
  cases s.branchOk bo bi <;> cases lk <;> rfl
@[simp] theorem branchCond_crf (s : State) (bo : BitVec 5) (bi : CrBitNum) (lk : Bool) (t : Addr) : (s.branchCond bo bi lk t).crf = s.crf := by
  unfold State.branchCond
  cases s.branchOk bo bi <;> cases lk <;> rfl
@[simp] theorem branchCond_xer (s : State) (bo : BitVec 5) (bi : CrBitNum) (lk : Bool) (t : Addr) : (s.branchCond bo bi lk t).xer = s.xer := by
  unfold State.branchCond
  cases s.branchOk bo bi <;> cases lk <;> rfl
@[simp] theorem branchCond_lr (s : State) (bo : BitVec 5) (bi : CrBitNum) (lk : Bool) (t : Addr) : (s.branchCond bo bi lk t).lr = if lk then s.nextPc else s.lr := by
  unfold State.branchCond
  cases s.branchOk bo bi <;> cases lk <;> rfl
@[simp] theorem branchCond_ctr (s : State) (bo : BitVec 5) (bi : CrBitNum) (lk : Bool) (t : Addr) : (s.branchCond bo bi lk t).ctr = s.ctrAfter bo := by
  unfold State.branchCond
  cases s.branchOk bo bi <;> cases lk <;> rfl
@[simp] theorem branchCond_tar (s : State) (bo : BitVec 5) (bi : CrBitNum) (lk : Bool) (t : Addr) : (s.branchCond bo bi lk t).tar = s.tar := by
  unfold State.branchCond
  cases s.branchOk bo bi <;> cases lk <;> rfl
@[simp] theorem branchCond_msr (s : State) (bo : BitVec 5) (bi : CrBitNum) (lk : Bool) (t : Addr) : (s.branchCond bo bi lk t).msr = s.msr := by
  unfold State.branchCond
  cases s.branchOk bo bi <;> cases lk <;> rfl
@[simp] theorem branchCond_srr0 (s : State) (bo : BitVec 5) (bi : CrBitNum) (lk : Bool) (t : Addr) : (s.branchCond bo bi lk t).srr0 = s.srr0 := by
  unfold State.branchCond
  cases s.branchOk bo bi <;> cases lk <;> rfl
@[simp] theorem branchCond_srr1 (s : State) (bo : BitVec 5) (bi : CrBitNum) (lk : Bool) (t : Addr) : (s.branchCond bo bi lk t).srr1 = s.srr1 := by
  unfold State.branchCond
  cases s.branchOk bo bi <;> cases lk <;> rfl
@[simp] theorem branchCond_mem (s : State) (bo : BitVec 5) (bi : CrBitNum) (lk : Bool) (t : Addr) : (s.branchCond bo bi lk t).mem = s.mem := by
  unfold State.branchCond
  cases s.branchOk bo bi <;> cases lk <;> rfl
@[simp] theorem branchCond_stored (s : State) (bo : BitVec 5) (bi : CrBitNum) (lk : Bool) (t : Addr) : (s.branchCond bo bi lk t).stored = s.stored := by
  unfold State.branchCond
  cases s.branchOk bo bi <;> cases lk <;> rfl
@[simp] theorem branchCond_params (s : State) (bo : BitVec 5) (bi : CrBitNum) (lk : Bool) (t : Addr) : (s.branchCond bo bi lk t).params = s.params := by
  unfold State.branchCond
  cases s.branchOk bo bi <;> cases lk <;> rfl

/-! ### The modes and the truncation depend on the MSR alone -/

theorem sf_of_msr {s t : State} (h : t.msr = s.msr) : t.sf = s.sf := by rw [State.sf, State.sf, h]

theorem truncate_of_msr {s t : State} (h : t.msr = s.msr) (a : Addr) : t.truncate a = s.truncate a := by
  rw [State.truncate, State.truncate, sf_of_msr h]

theorem span_of_msr {s t : State} (h : t.msr = s.msr) (ea : Addr) (n : Nat) : t.span ea n = s.span ea n := by
  simp only [State.span, State.byteAddr, truncate_of_msr h]

theorem nextPc_of_msr_pc {s t : State} (h : t.msr = s.msr) (hp : t.pc = s.pc) : t.nextPc = s.nextPc := by
  rw [State.nextPc, State.nextPc, truncate_of_msr h, hp]

@[simp] theorem setX_nextPc (s : State) (r : RegNum) (v : DWord) : (s.setX r v).nextPc = s.nextPc :=
  nextPc_of_msr_pc (by simp) (by simp)
@[simp] theorem setCrField_nextPc (s : State) (n : CrFieldNum) (v : BitVec 4) : (s.setCrField n v).nextPc = s.nextPc :=
  nextPc_of_msr_pc (by simp) (by simp)
@[simp] theorem setCrBit_nextPc (s : State) (b : CrBitNum) (v : Bool) : (s.setCrBit b v).nextPc = s.nextPc :=
  nextPc_of_msr_pc (by simp) (by simp)
@[simp] theorem setCompare_nextPc (s : State) (n : CrFieldNum) (lt gt : Bool) : (s.setCompare n lt gt).nextPc = s.nextPc :=
  nextPc_of_msr_pc (by simp) (by simp)
@[simp] theorem recordCr0_nextPc (s : State) (v : DWord) : (s.recordCr0 v).nextPc = s.nextPc :=
  nextPc_of_msr_pc (by simp) (by simp)
@[simp] theorem recordIf_nextPc (s : State) (rc : Bool) (v : DWord) : (s.recordIf rc v).nextPc = s.nextPc :=
  nextPc_of_msr_pc (by simp) (by simp)
@[simp] theorem linkIf_nextPc (s : State) (lk : Bool) : (s.linkIf lk).nextPc = s.nextPc :=
  nextPc_of_msr_pc (by simp) (by simp)
@[simp] theorem writeCells_nextPc (s : State) (cells : List Host.Cell) : (s.writeCells cells).nextPc = s.nextPc :=
  nextPc_of_msr_pc (by simp) (by simp)

/-! ### General registers -/

theorem x_of_gpr {s t : State} (h : t.gpr = s.gpr) (r : RegNum) : t.x r = s.x r := by simp only [State.x, h]

@[simp] theorem setX_x_same (s : State) (r : RegNum) (v : DWord) : (s.setX r v).x r = v := by
  simp [State.x, State.setX]

theorem setX_x_ne (s : State) {r q : RegNum} (v : DWord) (h : q ≠ r) : (s.setX r v).x q = s.x q := by
  have : r.toNat ≠ q.toNat := fun e => h (BitVec.eq_of_toNat_eq e.symm)
  simp [State.x, State.setX, Vector.getElem_set_ne, this]

theorem setX_x (s : State) (r q : RegNum) (v : DWord) : (s.setX r v).x q = if q = r then v else s.x q := by
  by_cases h : q = r
  · subst h; simp
  · simp [h, setX_x_ne]

@[simp] theorem setCrField_x (s : State) (n : CrFieldNum) (v : BitVec 4) (q : RegNum) : (s.setCrField n v).x q = s.x q := x_of_gpr (by simp) q
@[simp] theorem setCrBit_x (s : State) (b : CrBitNum) (v : Bool) (q : RegNum) : (s.setCrBit b v).x q = s.x q := x_of_gpr (by simp) q
@[simp] theorem setCompare_x (s : State) (n : CrFieldNum) (lt gt : Bool) (q : RegNum) : (s.setCompare n lt gt).x q = s.x q := x_of_gpr (by simp) q
@[simp] theorem recordCr0_x (s : State) (v : DWord) (q : RegNum) : (s.recordCr0 v).x q = s.x q := x_of_gpr (by simp) q
@[simp] theorem recordIf_x (s : State) (rc : Bool) (v : DWord) (q : RegNum) : (s.recordIf rc v).x q = s.x q := x_of_gpr (by simp) q
@[simp] theorem advance_x (s : State) (q : RegNum) : s.advance.x q = s.x q := x_of_gpr (by simp) q
@[simp] theorem branchTo_x (s : State) (t : Addr) (q : RegNum) : (s.branchTo t).x q = s.x q := x_of_gpr (by simp) q
@[simp] theorem linkIf_x (s : State) (lk : Bool) (q : RegNum) : (s.linkIf lk).x q = s.x q := x_of_gpr (by simp) q
@[simp] theorem interrupt_x (s : State) (vec ret : Addr) (info : DWord) (q : RegNum) : (s.interrupt vec ret info).x q = s.x q := x_of_gpr (by simp) q
@[simp] theorem systemCallEntry_x (s : State) (lev : BitVec 7) (q : RegNum) : (s.systemCallEntry lev).x q = s.x q := x_of_gpr (by simp) q
@[simp] theorem writeCells_x (s : State) (cells : List Host.Cell) (q : RegNum) : (s.writeCells cells).x q = s.x q := x_of_gpr (by simp) q
@[simp] theorem branchCond_x (s : State) (bo : BitVec 5) (bi : CrBitNum) (lk : Bool) (t : Addr) (q : RegNum) : (s.branchCond bo bi lk t).x q = s.x q := x_of_gpr (by simp) q

/-! ### Special purpose registers -/

@[simp] theorem setSpr_spr_same (s : State) (r : Spr) (v : DWord) : (s.setSpr r v).spr r = v := by cases r <;> rfl

theorem setSpr_spr_ne (s : State) {r q : Spr} (v : DWord) (h : q ≠ r) : (s.setSpr r v).spr q = s.spr q := by
  cases r <;> cases q <;> first | rfl | exact absurd rfl h

@[simp] theorem setSpr_pc (s : State) (r : Spr) (v : DWord) : (s.setSpr r v).pc = s.pc := by cases r <;> rfl
@[simp] theorem setSpr_gpr (s : State) (r : Spr) (v : DWord) : (s.setSpr r v).gpr = s.gpr := by cases r <;> rfl
@[simp] theorem setSpr_crf (s : State) (r : Spr) (v : DWord) : (s.setSpr r v).crf = s.crf := by cases r <;> rfl
@[simp] theorem setSpr_msr (s : State) (r : Spr) (v : DWord) : (s.setSpr r v).msr = s.msr := by cases r <;> rfl
@[simp] theorem setSpr_mem (s : State) (r : Spr) (v : DWord) : (s.setSpr r v).mem = s.mem := by cases r <;> rfl
@[simp] theorem setSpr_stored (s : State) (r : Spr) (v : DWord) : (s.setSpr r v).stored = s.stored := by cases r <;> rfl
@[simp] theorem setSpr_params (s : State) (r : Spr) (v : DWord) : (s.setSpr r v).params = s.params := by cases r <;> rfl
@[simp] theorem setSpr_x (s : State) (r : Spr) (v : DWord) (q : RegNum) : (s.setSpr r v).x q = s.x q :=
  x_of_gpr (by simp) q
@[simp] theorem setSpr_nextPc (s : State) (r : Spr) (v : DWord) : (s.setSpr r v).nextPc = s.nextPc :=
  nextPc_of_msr_pc (by simp) (by simp)

theorem spr_of_fields {s t : State} (hx : t.xer = s.xer) (hl : t.lr = s.lr) (hc : t.ctr = s.ctr) (h0 : t.srr0 = s.srr0)
    (h1 : t.srr1 = s.srr1) (ht : t.tar = s.tar) (r : Spr) : t.spr r = s.spr r := by
  cases r <;> simp only [State.spr, hx, hl, hc, h0, h1, ht]

@[simp] theorem setX_spr (s : State) (r : RegNum) (v : DWord) (q : Spr) : (s.setX r v).spr q = s.spr q :=
  spr_of_fields (by simp) (by simp) (by simp) (by simp) (by simp) (by simp) q
@[simp] theorem setCrField_spr (s : State) (n : CrFieldNum) (v : BitVec 4) (q : Spr) : (s.setCrField n v).spr q = s.spr q :=
  spr_of_fields (by simp) (by simp) (by simp) (by simp) (by simp) (by simp) q
@[simp] theorem setCrBit_spr (s : State) (b : CrBitNum) (v : Bool) (q : Spr) : (s.setCrBit b v).spr q = s.spr q :=
  spr_of_fields (by simp) (by simp) (by simp) (by simp) (by simp) (by simp) q
@[simp] theorem setCompare_spr (s : State) (n : CrFieldNum) (lt gt : Bool) (q : Spr) : (s.setCompare n lt gt).spr q = s.spr q :=
  spr_of_fields (by simp) (by simp) (by simp) (by simp) (by simp) (by simp) q
@[simp] theorem recordCr0_spr (s : State) (v : DWord) (q : Spr) : (s.recordCr0 v).spr q = s.spr q :=
  spr_of_fields (by simp) (by simp) (by simp) (by simp) (by simp) (by simp) q
@[simp] theorem recordIf_spr (s : State) (rc : Bool) (v : DWord) (q : Spr) : (s.recordIf rc v).spr q = s.spr q :=
  spr_of_fields (by simp) (by simp) (by simp) (by simp) (by simp) (by simp) q
@[simp] theorem advance_spr (s : State) (q : Spr) : s.advance.spr q = s.spr q :=
  spr_of_fields (by simp) (by simp) (by simp) (by simp) (by simp) (by simp) q
@[simp] theorem branchTo_spr (s : State) (t : Addr) (q : Spr) : (s.branchTo t).spr q = s.spr q :=
  spr_of_fields (by simp) (by simp) (by simp) (by simp) (by simp) (by simp) q
@[simp] theorem writeCells_spr (s : State) (cells : List Host.Cell) (q : Spr) : (s.writeCells cells).spr q = s.spr q :=
  spr_of_fields (by simp) (by simp) (by simp) (by simp) (by simp) (by simp) q

/-! ### Words into registers (R200, R286) -/

/-- A property that one register write keeps, the writing of packed words keeps. -/
theorem setWords_induction {P : State → Prop} (hset : ∀ s r v, P s → P (s.setX r v)) (s : State) (rt : RegNum) (n : Nat)
    (bs : List Byte) (h : P s) : P (s.setWords rt n bs) := by
  unfold State.setWords
  generalize List.range n = l
  induction l generalizing s with
  | nil => exact h
  | cons k l ih => exact ih _ (hset s _ _ h)

@[simp] theorem setWords_pc (s : State) (rt : RegNum) (n : Nat) (bs : List Byte) :
    (s.setWords rt n bs).pc = s.pc :=
  setWords_induction (P := fun t => t.pc = s.pc) (fun _ _ _ h => by simpa using h) s rt n bs rfl
@[simp] theorem setWords_crf (s : State) (rt : RegNum) (n : Nat) (bs : List Byte) :
    (s.setWords rt n bs).crf = s.crf :=
  setWords_induction (P := fun t => t.crf = s.crf) (fun _ _ _ h => by simpa using h) s rt n bs rfl
@[simp] theorem setWords_xer (s : State) (rt : RegNum) (n : Nat) (bs : List Byte) :
    (s.setWords rt n bs).xer = s.xer :=
  setWords_induction (P := fun t => t.xer = s.xer) (fun _ _ _ h => by simpa using h) s rt n bs rfl
@[simp] theorem setWords_lr (s : State) (rt : RegNum) (n : Nat) (bs : List Byte) :
    (s.setWords rt n bs).lr = s.lr :=
  setWords_induction (P := fun t => t.lr = s.lr) (fun _ _ _ h => by simpa using h) s rt n bs rfl
@[simp] theorem setWords_ctr (s : State) (rt : RegNum) (n : Nat) (bs : List Byte) :
    (s.setWords rt n bs).ctr = s.ctr :=
  setWords_induction (P := fun t => t.ctr = s.ctr) (fun _ _ _ h => by simpa using h) s rt n bs rfl
@[simp] theorem setWords_tar (s : State) (rt : RegNum) (n : Nat) (bs : List Byte) :
    (s.setWords rt n bs).tar = s.tar :=
  setWords_induction (P := fun t => t.tar = s.tar) (fun _ _ _ h => by simpa using h) s rt n bs rfl
@[simp] theorem setWords_msr (s : State) (rt : RegNum) (n : Nat) (bs : List Byte) :
    (s.setWords rt n bs).msr = s.msr :=
  setWords_induction (P := fun t => t.msr = s.msr) (fun _ _ _ h => by simpa using h) s rt n bs rfl
@[simp] theorem setWords_srr0 (s : State) (rt : RegNum) (n : Nat) (bs : List Byte) :
    (s.setWords rt n bs).srr0 = s.srr0 :=
  setWords_induction (P := fun t => t.srr0 = s.srr0) (fun _ _ _ h => by simpa using h) s rt n bs rfl
@[simp] theorem setWords_srr1 (s : State) (rt : RegNum) (n : Nat) (bs : List Byte) :
    (s.setWords rt n bs).srr1 = s.srr1 :=
  setWords_induction (P := fun t => t.srr1 = s.srr1) (fun _ _ _ h => by simpa using h) s rt n bs rfl
@[simp] theorem setWords_mem (s : State) (rt : RegNum) (n : Nat) (bs : List Byte) :
    (s.setWords rt n bs).mem = s.mem :=
  setWords_induction (P := fun t => t.mem = s.mem) (fun _ _ _ h => by simpa using h) s rt n bs rfl
@[simp] theorem setWords_stored (s : State) (rt : RegNum) (n : Nat) (bs : List Byte) :
    (s.setWords rt n bs).stored = s.stored :=
  setWords_induction (P := fun t => t.stored = s.stored) (fun _ _ _ h => by simpa using h) s rt n bs rfl
@[simp] theorem setWords_params (s : State) (rt : RegNum) (n : Nat) (bs : List Byte) :
    (s.setWords rt n bs).params = s.params :=
  setWords_induction (P := fun t => t.params = s.params) (fun _ _ _ h => by simpa using h) s rt n bs rfl

/-- Another register than those written keeps its value. -/
theorem setWords_x_other (s : State) (rt : RegNum) (n : Nat) (bs : List Byte) (q : RegNum)
    (h : ∀ k < n, q ≠ rt + BitVec.ofNat 5 k) : (s.setWords rt n bs).x q = s.x q := by
  induction n with
  | zero => rfl
  | succ n ih =>
    have e : s.setWords rt (n + 1) bs = (s.setWords rt n bs).setX (rt + BitVec.ofNat 5 n) (packWord bs n) := by
      simp [State.setWords, List.range_succ]
    rw [e, setX_x_ne _ _ (h n (by omega))]
    exact ih fun k hk => h k (by omega)

/-- The k-th register written holds the k-th word, as long as no number comes round again. -/
theorem setWords_x (s : State) (rt : RegNum) (n : Nat) (bs : List Byte) (hn : n ≤ 32) {k : Nat} (hk : k < n) :
    (s.setWords rt n bs).x (rt + BitVec.ofNat 5 k) = packWord bs k := by
  induction n with
  | zero => omega
  | succ n ih =>
    have e : s.setWords rt (n + 1) bs = (s.setWords rt n bs).setX (rt + BitVec.ofNat 5 n) (packWord bs n) := by
      simp [State.setWords, List.range_succ]
    rw [e]
    by_cases hkn : k = n
    · subst hkn; simp
    · rw [setX_x_ne, ih (by omega) (by omega)]
      intro h
      have h2 : (BitVec.ofNat 5 k).toNat = (BitVec.ofNat 5 n).toNat := by
        have : BitVec.ofNat 5 k = BitVec.ofNat 5 n := by
          have := congrArg (fun v => v - rt) h
          simpa [BitVec.add_comm rt] using this
        rw [this]
      rw [BitVec.toNat_ofNat, BitVec.toNat_ofNat] at h2
      omega

/-! ### placeWord (log entry 11) -/

@[simp] theorem placeWord_pc (s : State) (w : IWord) : (s.placeWord w).pc = s.pc := rfl
@[simp] theorem placeWord_gpr (s : State) (w : IWord) : (s.placeWord w).gpr = s.gpr := rfl
@[simp] theorem placeWord_crf (s : State) (w : IWord) : (s.placeWord w).crf = s.crf := rfl
@[simp] theorem placeWord_xer (s : State) (w : IWord) : (s.placeWord w).xer = s.xer := rfl
@[simp] theorem placeWord_lr (s : State) (w : IWord) : (s.placeWord w).lr = s.lr := rfl
@[simp] theorem placeWord_ctr (s : State) (w : IWord) : (s.placeWord w).ctr = s.ctr := rfl
@[simp] theorem placeWord_tar (s : State) (w : IWord) : (s.placeWord w).tar = s.tar := rfl
@[simp] theorem placeWord_srr0 (s : State) (w : IWord) : (s.placeWord w).srr0 = s.srr0 := rfl
@[simp] theorem placeWord_srr1 (s : State) (w : IWord) : (s.placeWord w).srr1 = s.srr1 := rfl
@[simp] theorem placeWord_msr (s : State) (w : IWord) :
    (s.placeWord w).msr = if s.ir then setBit 5 false s.msr else s.msr := rfl
@[simp] theorem placeWord_mem (s : State) (w : IWord) :
    (s.placeWord w).mem = s.mem.writeAll (s.fetchSpan.zip (iwordBytes s.le w)) := rfl
@[simp] theorem placeWord_stored (s : State) (w : IWord) :
    (s.placeWord w).stored = s.stored.filter (fun a => !s.fetchSpan.contains a) := rfl
@[simp] theorem placeWord_params (s : State) (w : IWord) :
    (s.placeWord w).params = if s.admits s.fetchSpan then s.params
      else { s.params with memMap := s.fetchSpan.map (fun a => ⟨a, a⟩) ++ s.params.memMap } := rfl

/-! ### Start states (R351) -/

/-- After reset no register and no byte of storage is listed. -/
theorem reset_eq_start : State.reset = State.start Params.atReset [] [] := rfl

@[simp] theorem startUnlisted_pc (p : Params) (bytes : Memory) : (State.startUnlisted p bytes).pc = p.entry := rfl
@[simp] theorem startUnlisted_gpr (p : Params) (bytes : Memory) : (State.startUnlisted p bytes).gpr = Vector.replicate 32 0 := rfl
@[simp] theorem startUnlisted_crf (p : Params) (bytes : Memory) : (State.startUnlisted p bytes).crf = Vector.replicate 8 0 := rfl
@[simp] theorem startUnlisted_msr (p : Params) (bytes : Memory) : (State.startUnlisted p bytes).msr = p.msr0 := rfl
@[simp] theorem startUnlisted_mem (p : Params) (bytes : Memory) : (State.startUnlisted p bytes).mem = bytes := rfl
@[simp] theorem startUnlisted_stored (p : Params) (bytes : Memory) : (State.startUnlisted p bytes).stored = [] := rfl
@[simp] theorem startUnlisted_params (p : Params) (bytes : Memory) : (State.startUnlisted p bytes).params = p := rfl
@[simp] theorem startUnlisted_spr (p : Params) (bytes : Memory) (r : Spr) : (State.startUnlisted p bytes).spr r = 0 := by
  cases r <;> rfl
@[simp] theorem startUnlisted_x (p : Params) (bytes : Memory) (r : RegNum) : (State.startUnlisted p bytes).x r = 0 := by
  simp [State.x]
@[simp] theorem startUnlisted_crField (p : Params) (bytes : Memory) (n : CrFieldNum) :
    (State.startUnlisted p bytes).crField n = 0 := by
  simp [State.crField]

@[simp] theorem withRegister_pc (s : State) (e : RegisterValue) : (s.withRegister e).pc = s.pc := by
  cases e <;> simp [State.withRegister]
@[simp] theorem withRegister_msr (s : State) (e : RegisterValue) : (s.withRegister e).msr = s.msr := by
  cases e <;> simp [State.withRegister]
@[simp] theorem withRegister_mem (s : State) (e : RegisterValue) : (s.withRegister e).mem = s.mem := by
  cases e <;> simp [State.withRegister]
@[simp] theorem withRegister_stored (s : State) (e : RegisterValue) : (s.withRegister e).stored = s.stored := by
  cases e <;> simp [State.withRegister]
@[simp] theorem withRegister_params (s : State) (e : RegisterValue) : (s.withRegister e).params = s.params := by
  cases e <;> simp [State.withRegister]

/-- A start state with one more register listed: the later entry is written over the earlier ones. -/
theorem start_concat (p : Params) (registers : List RegisterValue) (e : RegisterValue) (bytes : Memory) :
    State.start p (registers ++ [e]) bytes = (State.start p registers bytes).withRegister e := by
  simp [State.start]

/-- A property of a start state that lists no register, kept by one register write, holds whatever registers are listed. -/
theorem start_induction {P : State → Prop} (hw : ∀ s e, P s → P (s.withRegister e)) (p : Params)
    (registers : List RegisterValue) (bytes : Memory) (h : P (State.startUnlisted p bytes)) :
    P (State.start p registers bytes) := by
  unfold State.start
  generalize State.startUnlisted p bytes = s at h ⊢
  induction registers generalizing s with
  | nil => exact h
  | cons e rest ih => exact ih _ (hw s e h)

@[simp] theorem start_pc (p : Params) (registers : List RegisterValue) (bytes : Memory) :
    (State.start p registers bytes).pc = p.entry :=
  start_induction (P := fun s => s.pc = p.entry) (fun _ _ h => by simpa using h) p registers bytes rfl
@[simp] theorem start_msr (p : Params) (registers : List RegisterValue) (bytes : Memory) :
    (State.start p registers bytes).msr = p.msr0 :=
  start_induction (P := fun s => s.msr = p.msr0) (fun _ _ h => by simpa using h) p registers bytes rfl
@[simp] theorem start_mem (p : Params) (registers : List RegisterValue) (bytes : Memory) :
    (State.start p registers bytes).mem = bytes :=
  start_induction (P := fun s => s.mem = bytes) (fun _ _ h => by simpa using h) p registers bytes rfl
@[simp] theorem start_stored (p : Params) (registers : List RegisterValue) (bytes : Memory) :
    (State.start p registers bytes).stored = [] :=
  start_induction (P := fun s => s.stored = []) (fun _ _ h => by simpa using h) p registers bytes rfl
@[simp] theorem start_params (p : Params) (registers : List RegisterValue) (bytes : Memory) :
    (State.start p registers bytes).params = p :=
  start_induction (P := fun s => s.params = p) (fun _ _ h => by simpa using h) p registers bytes rfl

end Sys2Proof.Machine
end

