-- ==== Sys2Proof/Laws/Flags.lean ====
section
/-!
SUPPORT. What each Condition Register bit and field is after a field, a bit, a compare or a record is written, and that
every operation that leaves the fields alone leaves the bits alone.
-/
namespace Sys2Proof.Machine

@[simp] theorem crField_setCrField_self (s : State) (n : CrFieldNum) (v : BitVec 4) :
    (s.setCrField n v).crField n = v := by
  simp [State.crField, State.setCrField]

theorem crField_setCrField_ne (s : State) {n m : CrFieldNum} (v : BitVec 4) (h : m ≠ n) :
    (s.setCrField n v).crField m = s.crField m := by
  have hn : n.toNat ≠ m.toNat := fun e => h (BitVec.eq_of_toNat_eq e.symm)
  simp only [State.crField, State.setCrField]
  exact Vector.getElem_set_ne _ _ hn

/-- A bit after a whole field is written. -/
theorem crBit_setCrField (s : State) (n : CrFieldNum) (v : BitVec 4) (b : CrBitNum) :
    (s.setCrField n v).crBit b = if crFieldOf b = n then v.getLsbD (crPlaceOf b) else s.crBit b := by
  unfold State.crBit
  split
  · rename_i h
    rw [h, crField_setCrField_self]
  · rename_i h
    rw [crField_setCrField_ne _ _ h]

/-- The same field and the same place are the same bit. -/
theorem crBitNum_ext {b c : CrBitNum} (hf : crFieldOf b = crFieldOf c) (hp : crPlaceOf b = crPlaceOf c) : b = c := by
  revert b c
  decide

theorem crPlaceOf_lt (b : CrBitNum) : crPlaceOf b < 4 := by
  unfold crPlaceOf
  omega

theorem getLsbD_putBit4 (v : BitVec 4) {i j : Nat} (x : Bool) (hi : i < 4) (hj : j < 4) :
    (putBit4 v i x).getLsbD j = if j = i then x else v.getLsbD j := by
  revert v x
  interval_cases i <;> interval_cases j <;> decide

/-- A bit after one bit is written. -/
theorem crBit_setCrBit (s : State) (b c : CrBitNum) (x : Bool) :
    (s.setCrBit b x).crBit c = if c = b then x else s.crBit c := by
  unfold State.setCrBit
  rw [crBit_setCrField]
  by_cases hf : crFieldOf c = crFieldOf b
  · rw [if_pos hf, getLsbD_putBit4 _ _ (crPlaceOf_lt b) (crPlaceOf_lt c)]
    by_cases hp : crPlaceOf c = crPlaceOf b
    · rw [if_pos hp, if_pos (crBitNum_ext hf hp)]
    · rw [if_neg hp, if_neg (fun h => hp (congrArg crPlaceOf h)), State.crBit, hf]
  · rw [if_neg hf, if_neg (fun h => hf (congrArg crFieldOf h))]

/-- The bits of a compare result, from LT down to SO. -/
theorem compareField_bits (lt gt so : Bool) :
    (compareField lt gt so).getLsbD 3 = lt ∧ (compareField lt gt so).getLsbD 2 = (!lt && gt) ∧
      (compareField lt gt so).getLsbD 1 = (!lt && !gt) ∧ (compareField lt gt so).getLsbD 0 = so := by
  revert lt gt so
  decide

theorem crBit_of_crf {s t : State} (h : t.crf = s.crf) (b : CrBitNum) : t.crBit b = s.crBit b := by
  simp only [State.crBit, State.crField, h]

@[simp] theorem setX_crBit (s : State) (r : RegNum) (v : DWord) (b : CrBitNum) : (s.setX r v).crBit b = s.crBit b :=
  crBit_of_crf (by simp) b
@[simp] theorem advance_crBit (s : State) (b : CrBitNum) : s.advance.crBit b = s.crBit b := crBit_of_crf (by simp) b
@[simp] theorem branchTo_crBit (s : State) (t : Addr) (b : CrBitNum) : (s.branchTo t).crBit b = s.crBit b :=
  crBit_of_crf (by simp) b
@[simp] theorem linkIf_crBit (s : State) (lk : Bool) (b : CrBitNum) : (s.linkIf lk).crBit b = s.crBit b :=
  crBit_of_crf (by simp) b
@[simp] theorem branchCond_crBit (s : State) (bo : BitVec 5) (bi : CrBitNum) (lk : Bool) (t : Addr) (b : CrBitNum) :
    (s.branchCond bo bi lk t).crBit b = s.crBit b :=
  crBit_of_crf (by simp) b
@[simp] theorem setSpr_crBit (s : State) (r : Spr) (v : DWord) (b : CrBitNum) : (s.setSpr r v).crBit b = s.crBit b :=
  crBit_of_crf (by simp) b
@[simp] theorem writeCells_crBit (s : State) (cells : List Host.Cell) (b : CrBitNum) :
    (s.writeCells cells).crBit b = s.crBit b :=
  crBit_of_crf (by simp) b
@[simp] theorem setWords_crBit (s : State) (rt : RegNum) (n : Nat) (bs : List Byte) (b : CrBitNum) :
    (s.setWords rt n bs).crBit b = s.crBit b :=
  crBit_of_crf (by simp) b
@[simp] theorem interrupt_crBit (s : State) (vec ret : Addr) (info : DWord) (b : CrBitNum) :
    (s.interrupt vec ret info).crBit b = s.crBit b :=
  crBit_of_crf (by simp) b
@[simp] theorem systemCallEntry_crBit (s : State) (lev : BitVec 7) (b : CrBitNum) :
    (s.systemCallEntry lev).crBit b = s.crBit b :=
  crBit_of_crf (by simp) b

end Sys2Proof.Machine
end

