-- ==== Sys2Proof/Laws/Memory.lean ====
section
/-!
SUPPORT. Reading after writing, and the canonical form, which every operation on storage keeps.
-/
namespace Sys2Proof.Machine

@[simp] theorem read_write_same (m : Memory) (a : Nat) (b : Byte) : (m.write a b).read a = some b := by
  induction m with
  | nil => simp [Memory.write, Memory.read]
  | cons c rest ih =>
    obtain ⟨k, v⟩ := c
    simp only [Memory.write]
    split
    · simp [Memory.read]
    · split
      · simp [Memory.read]
      · simp [Memory.read, *]

theorem read_write_ne (m : Memory) {a a' : Nat} (b : Byte) (h : a' ≠ a) : (m.write a b).read a' = m.read a' := by
  induction m with
  | nil => simp [Memory.write, Memory.read, h.symm]
  | cons c rest ih =>
    obtain ⟨k, v⟩ := c
    simp only [Memory.write]
    split
    · simp [Memory.read, h.symm]
    · split
      · rename_i hk
        subst hk
        simp [Memory.read, h.symm]
      · simp only [Memory.read, ih]

theorem read_write (m : Memory) (a a' : Nat) (b : Byte) :
    (m.write a b).read a' = if a' = a then some b else m.read a' := by
  by_cases h : a' = a
  · subst h; simp
  · simp [h, read_write_ne]

/-- An address that has a value is listed. -/
theorem mem_of_read_isSome {m : Memory} {a : Nat} (h : (m.read a).isSome) : a ∈ m.map Prod.fst := by
  induction m with
  | nil => cases h
  | cons c rest ih =>
    obtain ⟨k, v⟩ := c
    simp only [Memory.read] at h
    split at h
    · rename_i hk
      simp [hk]
    · exact List.mem_cons_of_mem _ (ih h)

@[simp] theorem writeAll_nil (m : Memory) : m.writeAll [] = m := rfl

@[simp] theorem writeAll_cons (m : Memory) (c : Host.Cell) (cs : List Host.Cell) :
    m.writeAll (c :: cs) = (m.write c.1 c.2).writeAll cs := rfl

/-- An address that no cell names reads as before. -/
theorem read_writeAll_other (m : Memory) (cells : List Host.Cell) {a : Nat} (h : a ∉ cells.map Prod.fst) :
    (m.writeAll cells).read a = m.read a := by
  induction cells generalizing m with
  | nil => rfl
  | cons c cs ih =>
    simp only [List.map_cons, List.mem_cons, not_or] at h
    rw [writeAll_cons, ih _ h.2, read_write_ne _ _ h.1]

/-- A cell whose address no other cell names reads as written. -/
theorem read_writeAll_mem (m : Memory) (cells : List Host.Cell) (hn : (cells.map Prod.fst).Nodup) {a : Nat} {b : Byte}
    (h : (a, b) ∈ cells) : (m.writeAll cells).read a = some b := by
  induction cells generalizing m with
  | nil => cases h
  | cons c cs ih =>
    simp only [List.map_cons, List.nodup_cons] at hn
    rw [writeAll_cons]
    rcases List.mem_cons.mp h with h | h
    · subst h
      rw [read_writeAll_other _ _ hn.1, read_write_same]
    · exact ih _ hn.2 h

/-- An address of the cells has a value after they are written. -/
theorem read_writeAll_isSome (m : Memory) (cells : List Host.Cell) {a : Nat}
    (h : a ∈ cells.map Prod.fst ∨ (m.read a).isSome) : ((m.writeAll cells).read a).isSome := by
  induction cells generalizing m with
  | nil => simpa using h
  | cons c cs ih =>
    rw [writeAll_cons]
    apply ih
    rw [read_write]
    by_cases hc : a = c.1
    · simp [hc]
    · simp only [List.map_cons, List.mem_cons, hc, false_or] at h
      simpa [hc] using h

theorem mem_write (m : Memory) (a : Nat) (b : Byte) {c : Host.Cell} (h : c ∈ m.write a b) : c = (a, b) ∨ c ∈ m := by
  induction m with
  | nil => simpa [Memory.write] using h
  | cons d rest ih =>
    obtain ⟨k, v⟩ := d
    simp only [Memory.write] at h
    split at h
    · simpa using h
    · split at h
      · rcases List.mem_cons.mp h with h | h
        · exact .inl h
        · exact .inr (List.mem_cons_of_mem _ h)
      · rcases List.mem_cons.mp h with h | h
        · exact .inr (h ▸ List.mem_cons_self)
        · exact (ih h).imp id (List.mem_cons_of_mem _)

/-- A write of a byte at a 64-bit address keeps the canonical form. -/
theorem wf_write {m : Memory} (h : m.wf) (a : Nat) (b : Byte) (ha : a < 2 ^ 64) : (m.write a b).wf := by
  refine ⟨?_, fun c hc => (mem_write m a b hc).elim (fun e => e ▸ ha) (h.2 c)⟩
  obtain ⟨hp, -⟩ := h
  induction m with
  | nil => simp [Memory.write]
  | cons d rest ih =>
    obtain ⟨k, v⟩ := d
    rw [List.pairwise_cons] at hp
    simp only [Memory.write]
    split
    · rename_i hk
      refine List.pairwise_cons.mpr ⟨fun c hc => ?_, List.pairwise_cons.mpr hp⟩
      rcases List.mem_cons.mp hc with e | hc
      · exact e ▸ hk
      · exact lt_trans hk (hp.1 c hc)
    · split
      · rename_i hk
        subst hk
        exact List.pairwise_cons.mpr ⟨fun c hc => hp.1 c hc, hp.2⟩
      · refine List.pairwise_cons.mpr ⟨fun c hc => ?_, ih hp.2⟩
        rcases mem_write rest a b hc with e | hc
        · subst e
          show k < a
          omega
        · exact hp.1 c hc

/-- Writing cells at 64-bit addresses keeps the canonical form. -/
theorem wf_writeAll {m : Memory} (h : m.wf) (cells : List Host.Cell) (hc : ∀ c ∈ cells, c.1 < 2 ^ 64) :
    (m.writeAll cells).wf := by
  induction cells generalizing m with
  | nil => exact h
  | cons c cs ih =>
    exact ih (wf_write h _ _ (hc c List.mem_cons_self)) fun d hd => hc d (List.mem_cons_of_mem _ hd)

theorem mem_addMark (l : List Nat) (a x : Nat) : x ∈ addMark l a ↔ x = a ∨ x ∈ l := by
  induction l with
  | nil => simp [addMark]
  | cons k rest ih =>
    simp only [addMark]
    split
    · simp
    · split
      · rename_i hk
        subst hk
        simp
      · simp only [List.mem_cons, ih]
        tauto

theorem marksWf_addMark {l : List Nat} (h : marksWf l) (a : Nat) : marksWf (addMark l a) := by
  induction l with
  | nil => simp [addMark]
  | cons k rest ih =>
    rw [marksWf, List.pairwise_cons] at h
    simp only [addMark]
    split
    · rename_i hk
      refine List.pairwise_cons.mpr ⟨fun c hc => ?_, List.pairwise_cons.mpr h⟩
      rcases List.mem_cons.mp hc with e | hc
      · exact e ▸ hk
      · exact lt_trans hk (h.1 c hc)
    · split
      · exact List.pairwise_cons.mpr h
      · refine List.pairwise_cons.mpr ⟨fun c hc => ?_, ih h.2⟩
        rcases (mem_addMark rest a c).mp hc with e | hc
        · omega
        · exact h.1 c hc

/-- Which addresses are marked after a run of cells. -/
theorem mem_addMarks (cells : List Host.Cell) (l : List Nat) (x : Nat) :
    x ∈ cells.foldl (fun l c => addMark l c.1) l ↔ x ∈ l ∨ x ∈ cells.map Prod.fst := by
  induction cells generalizing l with
  | nil => simp
  | cons c cs ih =>
    simp only [List.foldl_cons, ih, mem_addMark, List.map_cons, List.mem_cons]
    tauto

theorem marksWf_addMarks (cells : List Host.Cell) {l : List Nat} (h : marksWf l) :
    marksWf (cells.foldl (fun l c => addMark l c.1) l) := by
  induction cells generalizing l with
  | nil => exact h
  | cons c cs ih => exact ih (marksWf_addMark h _)

/-- An admitted address is a 64-bit address. -/
theorem lt_of_admitted {map : List Region} {a : Nat} (h : admitted map a = true) : a < 2 ^ 64 := by
  simp only [admitted, Bool.and_eq_true, decide_eq_true_eq] at h
  exact h.1

end Sys2Proof.Machine
end

