-- ==== Sys2Proof/Laws/Ops.lean ====
section
/-!
SUPPORT. For each shared operation, once, everything it can do. The provers cite these instead of unfolding the operation.
-/
namespace Sys2Proof.Machine

/-! ### Addresses -/

theorem truncate_toNat (s : State) (a : Addr) :
    (s.truncate a).toNat = if s.sf then a.toNat else a.toNat % 2 ^ 32 := by
  unfold State.truncate lowWord
  cases s.sf <;> simp
  omega

theorem truncate_lt (s : State) (a : Addr) (h : s.sf = false) : (s.truncate a).toNat < 2 ^ 32 := by
  rw [truncate_toNat, h]
  simp
  omega

theorem wordAligned_toNat (a : Addr) : (wordAligned a).toNat = a.toNat / 4 * 4 := by
  have e : wordAligned a = (a >>> 2) <<< 2 := by
    apply BitVec.eq_of_getLsbD_eq
    intro i hi
    simp only [wordAligned, BitVec.getLsbD_and, BitVec.getLsbD_not, BitVec.getLsbD_shiftLeft,
      BitVec.getLsbD_ushiftRight, hi]
    interval_cases i <;> simp
  rw [e, BitVec.toNat_shiftLeft, BitVec.toNat_ushiftRight, Nat.shiftLeft_eq, Nat.shiftRight_eq_div_pow]
  have := a.isLt
  omega

theorem span_length (s : State) (ea : Addr) (n : Nat) : (s.span ea n).length = n := by simp [State.span]

theorem byteAddr_toNat (s : State) (ea : Addr) (i : Nat) :
    (s.byteAddr ea i).toNat = if s.sf then (ea.toNat + i) % 2 ^ 64 else (ea.toNat + i) % 2 ^ 32 := by
  rw [State.byteAddr, truncate_toNat]
  cases s.sf <;> simp

/-- The bytes of an access shorter than the address space lie at different addresses, in either mode. -/
theorem span_nodup (s : State) (ea : Addr) (n : Nat) (h : n ≤ 2 ^ 32) : (s.span ea n).Nodup := by
  unfold State.span
  refine List.Nodup.map_on ?_ List.nodup_range
  intro i hi j hj e
  rw [List.mem_range] at hi hj
  rw [byteAddr_toNat, byteAddr_toNat] at e
  cases hs : s.sf <;> simp only [hs, if_true, if_false, Bool.false_eq_true] at e <;> omega

theorem mem_span_lt (s : State) (ea : Addr) (n a : Nat) (h : a ∈ s.span ea n) : a < 2 ^ 64 := by
  simp only [State.span, List.mem_map] at h
  obtain ⟨i, -, rfl⟩ := h
  exact (s.byteAddr ea i).isLt

theorem admits_iff (s : State) (addrs : List Nat) :
    s.admits addrs = true ↔ ∀ a ∈ addrs, admitted s.params.memMap a = true := by
  simp [State.admits]

/-! ### Storage access -/

/-- The checks of an access pass exactly when none of R81's conditions holds. -/
theorem accessStop_eq_none_iff (s : State) (dir : Access) (ea : Addr) (aligned : Bool) (addrs : List Nat) :
    s.accessStop dir ea aligned addrs = none ↔ s.dr = false ∧ aligned = true ∧ s.admits addrs = true := by
  unfold State.accessStop
  cases s.dr <;> cases aligned <;> cases s.admits addrs <;> simp

/-- A stop never answers a next state. -/
theorem stopOut_ne_next (e : Stop) (t : State) : stopOut e ≠ .next t := by
  cases e <;> intro h <;> cases h

theorem readAll_eq_some_iff (m : Memory) (addrs : List Nat) (bs : List Byte) :
    m.readAll addrs = some bs ↔ addrs.map m.read = bs.map some := by
  induction addrs generalizing bs with
  | nil => cases bs <;> simp [Memory.readAll]
  | cons a rest ih =>
    simp only [Memory.readAll, List.map_cons]
    cases ha : m.read a with
    | none => cases bs <;> simp
    | some b =>
      cases hr : m.readAll rest with
      | none =>
        cases bs with
        | nil => simp
        | cons b' bs' =>
          simp only [List.map_cons, List.cons.injEq, Option.some.injEq, reduceCtorEq, false_iff, not_and]
          intro _ h
          rw [(ih bs').mpr h] at hr
          cases hr
      | some l =>
        cases bs with
        | nil => simp
        | cons b' bs' =>
          simp only [Option.some.injEq, List.cons.injEq, List.map_cons]
          rw [← ih bs', hr]
          simp

theorem readAll_length {m : Memory} {addrs : List Nat} {bs : List Byte} (h : m.readAll addrs = some bs) :
    bs.length = addrs.length := by
  have := congrArg List.length ((readAll_eq_some_iff m addrs bs).mp h)
  simpa using this.symm

/-- Bytes written at different addresses are read back. -/
theorem readAll_writeAll (m : Memory) (addrs : List Nat) (bs : List Byte) (hn : addrs.Nodup)
    (hl : bs.length = addrs.length) : (m.writeAll (addrs.zip bs)).readAll addrs = some bs := by
  rw [readAll_eq_some_iff]
  apply List.ext_getElem
  · simp [hl]
  · intro i h1 h2
    simp only [List.length_map] at h1 h2
    simp only [List.getElem_map]
    apply read_writeAll_mem
    · rw [List.map_fst_zip (by omega)]
      exact hn
    · rw [List.mem_iff_getElem]
      exact ⟨i, by simp; omega, by simp⟩

/-- Everything a load that goes on can do. -/
theorem load_eq_next_iff (s : State) (ea : Addr) (aligned : Bool) (addrs : List Nat) (k : List Byte → State) (t : State) :
    s.load ea aligned addrs k = .next t ↔
      (s.dr = false ∧ aligned = true ∧ s.admits addrs = true) ∧ ∃ bs, s.mem.readAll addrs = some bs ∧ t = (k bs).advance := by
  unfold State.load
  cases h : s.accessStop .load ea aligned addrs with
  | some e =>
    have : ¬ (s.dr = false ∧ aligned = true ∧ s.admits addrs = true) := fun hc => by
      rw [(accessStop_eq_none_iff s .load ea aligned addrs).mpr hc] at h
      cases h
    simp [this, stopOut_ne_next]
  | none =>
    rw [accessStop_eq_none_iff] at h
    cases hb : s.mem.readAll addrs with
    | none => simp
    | some bs => simp [h, eq_comm]

/-- Everything a store that goes on can do. -/
theorem store_eq_next_iff (s : State) (ea : Addr) (aligned : Bool) (addrs : List Nat) (bs : List Byte) (t : State) :
    s.store ea aligned addrs bs = .next t ↔
      (s.dr = false ∧ aligned = true ∧ s.admits addrs = true) ∧ t = (s.writeCells (addrs.zip bs)).advance := by
  unfold State.store
  cases h : s.accessStop .store ea aligned addrs with
  | some e =>
    have : ¬ (s.dr = false ∧ aligned = true ∧ s.admits addrs = true) := fun hc => by
      rw [(accessStop_eq_none_iff s .store ea aligned addrs).mpr hc] at h
      cases h
    simp [this, stopOut_ne_next]
  | none =>
    rw [accessStop_eq_none_iff] at h
    simp [h, eq_comm]

/-! ### Exceptions -/

/-- A raise of Trap goes on only under TRAP_MODE = architected, into the Program interrupt. -/
theorem raiseTrap_eq_next_iff (s t : State) :
    s.raiseTrap = .next t ↔ s.params.trapMode = .architected ∧ t = s.interrupt programVector s.pc (fieldMask 17 17) := by
  unfold State.raiseTrap
  cases s.params.trapMode <;> simp [eq_comm]

/-- A raise of PrivilegedInstruction goes on only under TRAP_MODE = architected, into the Program interrupt. -/
theorem raisePrivileged_eq_next_iff (s t : State) :
    s.raisePrivileged = .next t ↔
      s.params.trapMode = .architected ∧ t = s.interrupt programVector s.pc (fieldMask 18 18) := by
  unfold State.raisePrivileged
  cases s.params.trapMode <;> simp [eq_comm]

/-- A raise of SystemCall goes on only under TRAP_MODE = architected, into the System Call interrupt. -/
theorem raiseSystemCall_eq_next_iff (s t : State) (lev : BitVec 7) :
    s.raiseSystemCall lev = .next t ↔ s.params.trapMode = .architected ∧ t = s.systemCallEntry lev := by
  unfold State.raiseSystemCall
  cases s.params.trapMode <;> simp [eq_comm]

/-- What naming an SPR can do: a defined and permitted register reaches `k`, a privileged one in problem state raises. -/
theorem withSpr_eq_next_iff (s t : State) (n : BitVec 10) (k : Spr → Out) :
    s.withSpr n k = .next t ↔
      ∃ r, sprOf n = some r ∧
        ((sprPrivileged r = true ∧ s.pr = true ∧ s.raisePrivileged = .next t) ∨
          ((sprPrivileged r = false ∨ s.pr = false) ∧ k r = .next t)) := by
  unfold State.withSpr
  cases h : sprOf n with
  | none => simp
  | some r => cases hp : sprPrivileged r <;> cases hq : s.pr <;> simp [hp]

/-! ### Fetch and step -/

/-- A fetch that answers a word has translation off, four existing and unmarked addresses, and four bytes. -/
theorem fetch_eq_ok_iff (s : State) (w : IWord) :
    s.fetch = .ok w ↔
      s.ir = false ∧ s.admits s.fetchSpan = true ∧ (∀ a ∈ s.fetchSpan, a ∉ s.stored) ∧
        ∃ b0 b1 b2 b3, s.mem.readAll s.fetchSpan = some [b0, b1, b2, b3] ∧ w = iwordOfBytes s.le b0 b1 b2 b3 := by
  have hm : s.fetchSpan.any (s.stored.contains ·) = false ↔ ∀ a ∈ s.fetchSpan, a ∉ s.stored := by
    simp
  unfold State.fetch
  cases s.ir <;> simp only [Bool.false_eq_true, if_false, if_true, reduceCtorEq, false_and]
  cases s.admits s.fetchSpan <;> simp only [Bool.not_false, Bool.not_true, Bool.false_eq_true, if_false, if_true,
    reduceCtorEq, false_and, and_false, true_and]
  rw [← hm]
  cases s.fetchSpan.any (s.stored.contains ·) <;> simp only [Bool.false_eq_true, if_false, if_true, reduceCtorEq,
    false_and, true_and]
  split
  · rename_i b0 b1 b2 b3 h
    constructor
    · intro e
      cases e
      exact ⟨b0, b1, b2, b3, h, rfl⟩
    · rintro ⟨c0, c1, c2, c3, hc, rfl⟩
      rw [h] at hc
      cases hc
      rfl
  · rename_i hne
    simp only [reduceCtorEq, false_iff, not_exists, not_and]
    intro b0 b1 b2 b3 h
    exact absurd h (hne b0 b1 b2 b3)

/-- A step that goes on has fetched a word, decoded it, and performed the instruction. -/
theorem step_eq_next_iff (s t : State) :
    step s = .next t ↔ ∃ w i, s.fetch = .ok w ∧ decode w = some i ∧ exec i s = .next t := by
  unfold step
  cases hf : s.fetch with
  | error e => simp [stopOut_ne_next]
  | ok w =>
    cases hd : decode w with
    | none =>
      simp only [hd]
      constructor
      · intro h
        cases h
      · rintro ⟨w', i, hw, hd', -⟩
        cases hw
        rw [hd] at hd'
        cases hd'
    | some i =>
      simp only [hd]
      constructor
      · intro h
        exact ⟨w, i, rfl, hd, h⟩
      · rintro ⟨w', i', hw, hd', h⟩
        cases hw
        rw [hd] at hd'
        cases hd'
        exact h

end Sys2Proof.Machine
end

