-- ==== Sys2Proof/Laws/PerInstr.lean ====
section
/-!
SUPPORT. The family EncodeDecode of LAWS.json: the decoder gives back every well-formed instruction from its encoded
word, one lemma per constructor of Instr (spec/30_encoding.md R116). Each lemma cites the slice lemmas of its form.
-/
-- One lemma after another: run side by side they all wait for the equations of the decoder, each on a stack of its own.
set_option Elab.async false

namespace Sys2Proof.Laws.EncodeDecode

/-- Decoding the encoded word gives the instruction back. -/
def Statement (i : Instr) : Prop := i.WellFormed → decode (encode i) = some i

theorem cdtbcd (rs ra) : Statement (.cdtbcd rs ra) := by
  intro _
  simp [decode, decodeX, encode, formX_po, formX_f6, formX_f11, formX_f16, formX_xo, formX_b31]

theorem cbcdtd (rs ra) : Statement (.cbcdtd rs ra) := by
  intro _
  simp [decode, decodeX, encode, formX_po, formX_f6, formX_f11, formX_f16, formX_xo, formX_b31]

theorem addg6s (rt ra rb) : Statement (.addg6s rt ra rb) := by
  intro _
  simp [decode, decodeX, encode, formX_po, formX_f6, formX_f11, formX_f16, formX_xo, formX_b31]

theorem b (li aa lk) : Statement (.b li aa lk) := by
  intro _
  simp [decode, encode, formI_po, formI_imm24, formI_b30, formI_b31]

theorem bc (bo bi bd aa lk) : Statement (.bc bo bi bd aa lk) := by
  intro _
  simp [decode, encode, formB_po, formB_f6, formB_f11, formB_imm14, formB_b30, formB_b31]

theorem bclr (bo bi bh lk) : Statement (.bclr bo bi bh lk) := by
  intro _
  simp [decode, decodeXL, encode, formX_po, formX_f6, formX_f11, formX_f16, formX_xo, formX_b31, bhOf_bhPlace, bhResOf_bhPlace]

theorem bcctr (bo bi bh lk) : Statement (.bcctr bo bi bh lk) := by
  intro _
  simp [decode, decodeXL, encode, formX_po, formX_f6, formX_f11, formX_f16, formX_xo, formX_b31, bhOf_bhPlace, bhResOf_bhPlace]

theorem bctar (bo bi bh lk) : Statement (.bctar bo bi bh lk) := by
  intro _
  simp [decode, decodeXL, encode, formX_po, formX_f6, formX_f11, formX_f16, formX_xo, formX_b31, bhOf_bhPlace, bhResOf_bhPlace]

theorem cmpi (bf l ra si) : Statement (.cmpi bf l ra si) := by
  intro _
  simp [decode, encode, formD_po, formD_f6, formD_f11, formD_imm16, bfOf_cmpPlace, bit9Of_cmpPlace, lOf_cmpPlace]

theorem cmp (bf l ra rb) : Statement (.cmp bf l ra rb) := by
  intro _
  simp [decode, decodeX, encode, formX_po, formX_f6, formX_f11, formX_f16, formX_xo, formX_b31, bfOf_cmpPlace, bit9Of_cmpPlace, lOf_cmpPlace]

theorem cmpli (bf l ra ui) : Statement (.cmpli bf l ra ui) := by
  intro _
  simp [decode, encode, formD_po, formD_f6, formD_f11, formD_imm16, bfOf_cmpPlace, bit9Of_cmpPlace, lOf_cmpPlace]

theorem cmpl (bf l ra rb) : Statement (.cmpl bf l ra rb) := by
  intro _
  simp [decode, decodeX, encode, formX_po, formX_f6, formX_f11, formX_f16, formX_xo, formX_b31, bfOf_cmpPlace, bit9Of_cmpPlace, lOf_cmpPlace]

theorem crand (bt ba bb) : Statement (.crand bt ba bb) := by
  intro _
  simp [decode, decodeXL, encode, formX_po, formX_f6, formX_f11, formX_f16, formX_xo, formX_b31]

theorem addi (rt ra si) : Statement (.addi rt ra si) := by
  intro _
  simp [decode, encode, formD_po, formD_f6, formD_f11, formD_imm16]

theorem lbzcix (rt ra rb) : Statement (.lbzcix rt ra rb) := by
  intro _
  simp [decode, decodeX, encode, formX_po, formX_f6, formX_f11, formX_f16, formX_xo, formX_b31]

theorem lbz (rt ra d) : Statement (.lbz rt ra d) := by
  intro _
  simp [decode, encode, formD_po, formD_f6, formD_f11, formD_imm16]

theorem lq (rtp ra dq) : Statement (.lq rtp ra dq) := by
  intro _
  simp [decode, encode, formDQ_po, formDQ_f6, formDQ_f11, formDQ_imm12, formDQ_low4]

theorem lhbrx (rt ra rb) : Statement (.lhbrx rt ra rb) := by
  intro _
  simp [decode, decodeX, encode, formX_po, formX_f6, formX_f11, formX_f16, formX_xo, formX_b31]

theorem lwbrx (rt ra rb) : Statement (.lwbrx rt ra rb) := by
  intro _
  simp [decode, decodeX, encode, formX_po, formX_f6, formX_f11, formX_f16, formX_xo, formX_b31]

theorem ldbrx (rt ra rb) : Statement (.ldbrx rt ra rb) := by
  intro _
  simp [decode, decodeX, encode, formX_po, formX_f6, formX_f11, formX_f16, formX_xo, formX_b31]

theorem lmw (rt ra d) : Statement (.lmw rt ra d) := by
  intro _
  simp [decode, encode, formD_po, formD_f6, formD_f11, formD_imm16]

theorem andiRc (rs ra ui) : Statement (.andiRc rs ra ui) := by
  intro _
  simp [decode, encode, formD_po, formD_f6, formD_f11, formD_imm16]

theorem andisRc (rs ra ui) : Statement (.andisRc rs ra ui) := by
  intro _
  simp [decode, encode, formD_po, formD_f6, formD_f11, formD_imm16]

theorem rlwinm (rs ra sh mb me rc) : Statement (.rlwinm rs ra sh mb me rc) := by
  intro _
  simp [decode, encode, formM_po, formM_f6, formM_f11, formM_f16, formM_mb, formM_me, formM_b31]

theorem slw (rs ra rb rc) : Statement (.slw rs ra rb rc) := by
  intro _
  simp [decode, encode, formX_po, formX_f6, formX_f11, formX_f16, formX_xo, formX_b31]

theorem stb (rs ra d) : Statement (.stb rs ra d) := by
  intro _
  simp [decode, encode, formD_po, formD_f6, formD_f11, formD_imm16]

theorem std (rs ra ds) : Statement (.std rs ra ds) := by
  intro _
  simp [decode, encode, formDS_po, formDS_f6, formDS_f11, formDS_imm14, formDS_xo2]

theorem stq (rsp ra ds) : Statement (.stq rsp ra ds) := by
  intro _
  simp [decode, encode, formDS_po, formDS_f6, formDS_f11, formDS_imm14, formDS_xo2]

theorem sthbrx (rs ra rb) : Statement (.sthbrx rs ra rb) := by
  intro _
  simp [decode, decodeX, encode, formX_po, formX_f6, formX_f11, formX_f16, formX_xo, formX_b31]

theorem stwbrx (rs ra rb) : Statement (.stwbrx rs ra rb) := by
  intro _
  simp [decode, decodeX, encode, formX_po, formX_f6, formX_f11, formX_f16, formX_xo, formX_b31]

theorem stdbrx (rs ra rb) : Statement (.stdbrx rs ra rb) := by
  intro _
  simp [decode, decodeX, encode, formX_po, formX_f6, formX_f11, formX_f16, formX_xo, formX_b31]

theorem stmw (rs ra d) : Statement (.stmw rs ra d) := by
  intro _
  simp [decode, encode, formD_po, formD_f6, formD_f11, formD_imm16]

theorem twi (trapOn ra si) : Statement (.twi trapOn ra si) := by
  intro _
  simp [decode, encode, formD_po, formD_f6, formD_f11, formD_imm16]

theorem mtspr (rs n) : Statement (.mtspr rs n) := by
  intro _
  simp [decode, decodeX, encode, formX_po, formX_f6, formX_f11, formX_f16, formX_xo, formX_b31, sprNum_of_halves]

theorem mfspr (rt n) : Statement (.mfspr rt n) := by
  intro _
  simp [decode, decodeX, encode, formX_po, formX_f6, formX_f11, formX_f16, formX_xo, formX_b31, sprNum_of_halves]

theorem mcrxrx (bf) : Statement (.mcrxrx bf) := by
  intro _
  simp [decode, decodeX, encode, formX_po, formX_f6, formX_f11, formX_f16, formX_xo, formX_b31, bfOf_bfPlace, bits9to10Of_bfPlace]

theorem mtmsr (rs l) : Statement (.mtmsr rs l) := by
  intro _
  simp [decode, decodeX, encode, formX_po, formX_f6, formX_f11, formX_f16, formX_xo, formX_b31, bit15Of_lPlace, bits11to14Of_lPlace]

theorem dcbz (ra rb) : Statement (.dcbz ra rb) := by
  intro _
  simp [decode, decodeX, encode, formX_po, formX_f6, formX_f11, formX_f16, formX_xo, formX_b31]

theorem tlbie (rs ric prs r rb) : Statement (.tlbie rs ric prs r rb) := by
  intro _
  simp [decode, decodeX, encode, formX_po, formX_f6, formX_f11, formX_f16, formX_xo, formX_b31, bit11Of_tlbPlace, ricOf_tlbPlace, prsOf_tlbPlace, rOf_tlbPlace]

theorem tlbiel (rs ric prs r rb) : Statement (.tlbiel rs ric prs r rb) := by
  intro _
  simp [decode, decodeX, encode, formX_po, formX_f6, formX_f11, formX_f16, formX_xo, formX_b31, bit11Of_tlbPlace, ricOf_tlbPlace, prsOf_tlbPlace, rOf_tlbPlace]

theorem tlbsync : Statement .tlbsync := by
  intro _
  simp [decode, decodeX, encode, formX_po, formX_f6, formX_f11, formX_f16, formX_xo, formX_b31]

theorem lswi (rt ra nb) : Statement (.lswi rt ra nb) := by
  intro _
  simp [decode, decodeX, encode, formX_po, formX_f6, formX_f11, formX_f16, formX_xo, formX_b31]

theorem sc (lev) : Statement (.sc lev) := by
  intro _
  simp [decode, encode, formSC_po, formSC_sc6, formSC_lev, formSC_sc27]

theorem setvl : Statement .setvl := by
  intro h
  exact absurd h (by decide)

end Sys2Proof.Laws.EncodeDecode
end

