-- ==== Sys2Proof/Tests/Slice0.lean ====
section
/-!
SUPPORT. Tests, every expected value taken from spec/95_test_vectors.md or from the examples of the instruction rules, and
for each statement with hypotheses a state and operands that meet them.
-/
-- One theorem after another: side by side they all wait for the same equations, each on a stack of its own.
set_option Elab.async false

namespace Sys2Proof.Tests
open Sys2Proof.Machine

/-! ### States -/

/-- The sixteen bytes the examples of spec/46_load.md place at 0x2000. -/
def bytes2000 : Memory :=
  [(0x2000, 0x01), (0x2001, 0x23), (0x2002, 0x45), (0x2003, 0x67), (0x2004, 0x89), (0x2005, 0xAB), (0x2006, 0xCD),
   (0x2007, 0xEF), (0x2008, 0xF0), (0x2009, 0xE1), (0x200A, 0xD2), (0x200B, 0xC3), (0x200C, 0xB4), (0x200D, 0xA5),
   (0x200E, 0x96), (0x200F, 0x87)]

/-- 64-bit hypervisor state, Big-Endian, TRAP_MODE = architected, MISALIGN = fault, addresses 0 to 0x4FFF. -/
def be : State :=
  State.start { Params.atReset with memMap := [⟨0, 0x4FFF⟩], trapMode := .architected, dcbzShift := 0 } [] bytes2000

/-- The same in Little-Endian mode. -/
def le : State := { be with msr := 0x9000000000000001 }

/-- The same in 32-bit mode. -/
def bits32 : State := { be with msr := 0x1000000000000000 }

/-- The same in problem state. -/
def prob : State := { be with msr := 0x8000000000004000 }

/-- A state under TRAP_MODE = environment. -/
def inEnv (s : State) : State := { s with params := { s.params with trapMode := .environment } }

/-- Three registers set. -/
def xs (s : State) (x1 x2 x3 : DWord) : State := ((s.setX 1 x1).setX 2 x2).setX 3 x3

/-- The outcome is a next state of which the check holds. -/
def nextIs (o : Out) (p : State → Bool) : Bool :=
  match o with
  | .next t => p t
  | _ => false

/-- The outcome is the fault. -/
def faultIs (o : Out) (f : Fault) : Bool :=
  match o with
  | .fault g => decide (g = f)
  | _ => false

/-- The outcome is the refusal. -/
def refusedIs (o : Out) (r : Refusal) : Bool :=
  match o with
  | .refused q => decide (q = r)
  | _ => false

/-- The bytes of storage from an address on. -/
def bytesAt (s : State) (a n : Nat) : Option (List Byte) := s.mem.readAll ((List.range n).map (a + ·))

/-! ### Well-formedness -/

theorem test_setvl_is_not_wellFormed : ¬ Instr.WellFormed .setvl := by decide
theorem test_invalid_form_is_wellFormed : Instr.WellFormed (.lq 5 1 0) := by decide

/-! ### Decoding: words of the spec (R116, the examples of the instruction rules, spec/95_test_vectors.md) -/

theorem test_decode_bcd : decode 0x7C640234 = some (.cdtbcd 3 4) ∧ decode 0x7C640274 = some (.cbcdtd 3 4) ∧
    decode 0x7CA32094 = some (.addg6s 5 3 4) := by decide

theorem test_decode_branch : decode 0x4BFFFFF1 = some (.b 0xFFFFFC false true) ∧
    decode 0x41820010 = some (.bc 12 2 4 false false) ∧ decode 0x4E800021 = some (.bclr 20 0 0 true) ∧
    decode 0x4E000420 = some (.bcctr 16 0 0 false) ∧ decode 0x4E800460 = some (.bctar 20 0 0 false) := by decide

theorem test_decode_compare : decode 0x2FA30005 = some (.cmpi 7 true 3 5) ∧ decode 0x7D232000 = some (.cmp 2 true 3 4) ∧
    decode 0x2803FFFF = some (.cmpli 0 false 3 0xFFFF) ∧ decode 0x7C032040 = some (.cmpl 0 false 3 4) := by decide

theorem test_decode_cr_and_arith : decode 0x4FE02202 = some (.crand 31 0 4) ∧
    decode 0x38648000 = some (.addi 3 4 0x8000) := by decide

theorem test_decode_load : decode 0x7C6116AA = some (.lbzcix 3 1 2) ∧ decode 0x88610004 = some (.lbz 3 1 4) ∧
    decode 0xE081FFF0 = some (.lq 4 1 0xFFF) ∧ decode 0x7C61162C = some (.lhbrx 3 1 2) ∧
    decode 0x7C61142C = some (.lwbrx 3 1 2) ∧ decode 0x7C601428 = some (.ldbrx 3 0 2) ∧
    decode 0xBBA10004 = some (.lmw 29 1 4) ∧ decode 0x7FC13CAA = some (.lswi 30 1 7) := by decide

theorem test_decode_logical_rotate : decode 0x7064FF00 = some (.andiRc 3 4 0xFF00) ∧
    decode 0x74648000 = some (.andisRc 3 4 0x8000) ∧ decode 0x54640706 = some (.rlwinm 3 4 0 28 3 false) ∧
    decode 0x7C652031 = some (.slw 3 5 4 true) := by decide

theorem test_decode_store : decode 0x98610001 = some (.stb 3 1 1) ∧ decode 0xF8610008 = some (.std 3 1 2) ∧
    decode 0xF8810012 = some (.stq 4 1 4) ∧ decode 0x7C61172C = some (.sthbrx 3 1 2) ∧
    decode 0x7C61152C = some (.stwbrx 3 1 2) ∧ decode 0x7C611528 = some (.stdbrx 3 1 2) ∧
    decode 0xBFC1FFF8 = some (.stmw 30 1 0xFFF8) := by decide

theorem test_decode_trap_system : decode 0x0C830005 = some (.twi 4 3 5) ∧ decode 0x7C6FCBA6 = some (.mtspr 3 815) ∧
    decode 0x7C7B02A6 = some (.mfspr 3 27) ∧ decode 0x7D800480 = some (.mcrxrx 3) ∧
    decode 0x7C610124 = some (.mtmsr 3 true) ∧ decode 0x7C0117EC = some (.dcbz 1 2) ∧
    decode 0x7C001A64 = some (.tlbie 0 0 false false 3) ∧ decode 0x7C001A24 = some (.tlbiel 0 0 false false 3) ∧
    decode 0x7C00046C = some .tlbsync ∧ decode 0x44000FE2 = some (.sc 127) := by decide

/-- A reserved bit set, a lost instruction (`ori 0,0,0`) and zeroed storage match no row (R118, R119, R121). -/
theorem test_decode_none : decode 0x44000003 = none ∧ decode 0x7C640235 = none ∧ decode 0x60000000 = none ∧
    decode 0 = none := by decide

theorem test_encode_word : encode (.mtspr 3 815) = 0x7C6FCBA6 ∧ encode (.rlwinm 3 4 0 28 3 false) = 0x54640706 := by
  decide

/-! ### One step each, the numbers of the rules' examples -/

theorem test_cdtbcd : nextIs (exec (.cdtbcd 3 4) (xs be 0 0 0x28FCF)) (fun t => t.x 4 == 0x123789) = true := by decide
theorem test_cbcdtd :
    nextIs (exec (.cbcdtd 3 4) (xs be 0 0 0x0099999900123789)) (fun t => t.x 4 == 0x0003FCFF00028FCF) = true := by decide
theorem test_cbcdtd_bad : refusedIs (exec (.cbcdtd 3 4) (xs be 0 0 0xA)) (.invalidBcdDigit 0x1000) = true := by decide
theorem test_addg6s :
    nextIs (exec (.addg6s 5 3 2) (xs be 0 0x13 0x66666666666666BF)) (fun t => t.x 5 == 0x6666666666666660) = true := by
  decide
theorem test_bl : nextIs (exec (.b 0xFFFFFC false true) be) (fun t => t.pc == 0xFF0 && t.lr == 0x1004) = true := by decide
theorem test_ba_32 : nextIs (exec (.b 0x800000 true false) bits32) (fun t => t.pc == 0xFE000000) = true := by decide
theorem test_bdnz_wraps : nextIs (exec (.bc 16 0 0x3FFE false false) be)
    (fun t => t.pc == 0xFF8 && t.ctr == 0xFFFFFFFFFFFFFFFF) = true := by decide
theorem test_bdz_32 : nextIs (exec (.bc 18 0 4 false false) { bits32 with ctr := 0x100000001 })
    (fun t => t.pc == 0x1010 && t.ctr == 0x100000000) = true := by decide
theorem test_blrl : nextIs (exec (.bclr 20 0 0 true) { be with lr := 0x2003 })
    (fun t => t.pc == 0x2000 && t.lr == 0x1004) = true := by decide
theorem test_bctrl : nextIs (exec (.bcctr 20 0 0 true) { be with ctr := 0x3000 })
    (fun t => t.pc == 0x3000 && t.lr == 0x1004 && t.ctr == 0x3000) = true := by decide
theorem test_bcctr_invalid : refusedIs (exec (.bcctr 16 0 0 false) be) (.invalidForm 0x1000) = true := by decide
theorem test_bctar : nextIs (exec (.bctar 20 0 0 false) { be with tar := 0x4000 }) (fun t => t.pc == 0x4000) = true := by
  decide
theorem test_cmpdi_so : nextIs (exec (.cmpi 7 true 3 5) { xs be 0 0 5 with xer := 0x80000000 })
    (fun t => t.cr == 0x00000003) = true := by decide
theorem test_cmpw : nextIs (exec (.cmp 0 false 3 2) (xs be 0 0x7FFFFFFF 0x180000000)) (fun t => t.cr == 0x80000000) = true := by
  decide
theorem test_cmplwi : nextIs (exec (.cmpli 0 false 3 0xFFFF) (xs be 0 0 0xFFFFFFFF00000001))
    (fun t => t.cr == 0x80000000) = true := by decide
theorem test_cmpld : nextIs (exec (.cmpl 2 true 3 2) (xs be 0 1 0xFFFFFFFFFFFFFFFF)) (fun t => t.cr == 0x00400000) = true := by
  decide
theorem test_crand : nextIs (exec (.crand 31 0 4) ((be.setCrField 0 8).setCrField 1 8)) (fun t => t.cr == 0x88000001) = true := by
  decide
theorem test_addi_li : nextIs (exec (.addi 3 0 0xFFFF) ((be.setX 0 5))) (fun t => t.x 3 == 0xFFFFFFFFFFFFFFFF) = true := by
  decide
theorem test_addi : nextIs (exec (.addi 3 1 0x8000) (xs be 0x100 0 0)) (fun t => t.x 3 == 0xFFFFFFFFFFFF8100) = true := by
  decide
theorem test_lbzcix : nextIs (exec (.lbzcix 3 1 2) (xs be 0x2000 7 0)) (fun t => t.x 3 == 0xEF) = true := by decide
theorem test_lbzcix_problem : nextIs (exec (.lbzcix 3 1 2) (xs prob 0x2000 7 0))
    (fun t => t.pc == 0x700 && t.srr0 == 0x1000 && t.srr1 == 0x8000000000044000) = true := by decide
theorem test_lbz : nextIs (exec (.lbz 3 1 0xFFFF) (xs be 0x2008 0 0)) (fun t => t.x 3 == 0xEF) = true := by decide
theorem test_lq : nextIs (exec (.lq 4 1 0xFFF) (xs be 0x2010 0 0))
    (fun t => t.x 4 == 0x0123456789ABCDEF && t.x 5 == 0xF0E1D2C3B4A59687) = true := by decide
theorem test_lq_le : nextIs (exec (.lq 4 1 0) (xs le 0x2000 0 0))
    (fun t => t.x 4 == 0x8796A5B4C3D2E1F0 && t.x 5 == 0xEFCDAB8967452301) = true := by decide
theorem test_lhbrx : nextIs (exec (.lhbrx 3 1 2) (xs be 0x2000 2 0)) (fun t => t.x 3 == 0x6745) = true := by decide
theorem test_lhbrx_le : nextIs (exec (.lhbrx 3 1 2) (xs le 0x2000 2 0)) (fun t => t.x 3 == 0x4567) = true := by decide
theorem test_lwbrx : nextIs (exec (.lwbrx 3 1 2) (xs be 0x2000 4 0)) (fun t => t.x 3 == 0xEFCDAB89) = true := by decide
theorem test_ldbrx_le : nextIs (exec (.ldbrx 3 0 2) (xs le 0 0x2000 0)) (fun t => t.x 3 == 0x0123456789ABCDEF) = true := by
  decide
theorem test_lmw : nextIs (exec (.lmw 29 1 4) (xs be 0x2000 0 0))
    (fun t => t.x 29 == 0x89ABCDEF && t.x 30 == 0xF0E1D2C3 && t.x 31 == 0xB4A59687) = true := by decide
theorem test_lmw_le : faultIs (exec (.lmw 29 1 4) (xs le 0x2000 0 0)) (.alignment 0x2004 0x1000) = true := by decide
theorem test_andi : nextIs (exec (.andiRc 3 4 0xC0) { xs be 0 0 0xFFFFFFFFFFFF1234 with xer := 0x80000000 })
    (fun t => t.x 4 == 0 && t.cr == 0x30000000) = true := by decide
theorem test_andis_32 : nextIs (exec (.andisRc 3 4 0x8000) (xs bits32 0 0 0xFFFFFFFFFFFF1234))
    (fun t => t.x 4 == 0x80000000 && t.cr == 0x80000000) = true := by decide
theorem test_rlwinm_wrapped : nextIs (exec (.rlwinm 3 4 0 28 3 false) (xs be 0 0 0x12345678))
    (fun t => t.x 4 == 0x1234567810000008) = true := by decide
theorem test_rlwinm_rc : nextIs (exec (.rlwinm 3 4 1 0 31 true) (xs be 0 0 0x80000001))
    (fun t => t.x 4 == 3 && t.cr == 0x40000000) = true := by decide
theorem test_slw_rc : nextIs (exec (.slw 3 5 2 true) (xs be 0 31 1)) (fun t => t.x 5 == 0x80000000 && t.cr == 0x40000000) = true := by
  decide
theorem test_slw_modulo_64 : nextIs (exec (.slw 3 5 2 false) (xs be 0 0xFFFFFFFFFFFFFFC4 0xFFFFFFFF))
    (fun t => t.x 5 == 0xFFFFFFF0) = true := by decide
theorem test_stb : nextIs (exec (.stb 3 1 1) (xs be 0x3000 0 0x1122334455667788))
    (fun t => t.mem.read 0x3001 == some 0x88) = true := by decide
theorem test_std_le : nextIs (exec (.std 3 1 2) (xs le 0x3000 0 0x1122334455667788))
    (fun t => bytesAt t 0x3008 8 == some [0x88, 0x77, 0x66, 0x55, 0x44, 0x33, 0x22, 0x11]) = true := by decide
theorem test_std_misaligned : faultIs (exec (.std 3 1 1) (xs be 0x3000 0 0)) (.alignment 0x3004 0x1000) = true := by decide
theorem test_stq : nextIs (exec (.stq 4 1 4) (((xs be 0x3000 0 0).setX 4 0x1122334455667788).setX 5 0x99AABBCCDDEEFF00))
    (fun t => bytesAt t 0x3010 16 == some [0x11, 0x22, 0x33, 0x44, 0x55, 0x66, 0x77, 0x88, 0x99, 0xAA, 0xBB, 0xCC, 0xDD,
      0xEE, 0xFF, 0x00]) = true := by decide
theorem test_sthbrx : nextIs (exec (.sthbrx 3 1 2) (xs be 0x3000 2 0x1122334455667788))
    (fun t => bytesAt t 0x3002 2 == some [0x88, 0x77]) = true := by decide
theorem test_stwbrx_le : nextIs (exec (.stwbrx 3 1 2) (xs le 0x3000 4 0x1122334455667788))
    (fun t => bytesAt t 0x3004 4 == some [0x55, 0x66, 0x77, 0x88]) = true := by decide
theorem test_stdbrx : nextIs (exec (.stdbrx 3 1 2) (xs be 0x3000 8 0x1122334455667788))
    (fun t => bytesAt t 0x3008 8 == some [0x88, 0x77, 0x66, 0x55, 0x44, 0x33, 0x22, 0x11]) = true := by decide
theorem test_stmw : nextIs (exec (.stmw 30 1 0xFFF8) (((xs be 0x3000 0 0).setX 30 0xAAAAAAAA).setX 31 0xFFFFFFFFBBBBBBBB))
    (fun t => bytesAt t 0x2FF8 8 == some [0xAA, 0xAA, 0xAA, 0xAA, 0xBB, 0xBB, 0xBB, 0xBB]) = true := by decide
theorem test_twi_traps : nextIs (exec (.twi 16 3 0) (xs be 0 0 0xFFFFFFFF))
    (fun t => t.pc == 0x700 && t.srr1 == 0x9000000000020000) = true := by decide
theorem test_twi_goes_on : nextIs (exec (.twi 4 3 6) (xs be 0 0 5)) (fun t => t.pc == 0x1004) = true := by decide
theorem test_mtspr_tar : nextIs (exec (.mtspr 3 815) (xs be 0 0 7)) (fun t => t.tar == 7) = true := by decide
theorem test_mtspr_undefined : refusedIs (exec (.mtspr 3 2) be) (.undefinedSpr 0x1000) = true := by decide
theorem test_mfspr_xer : nextIs (exec (.mfspr 3 1) { be with xer := 0xA0040000 }) (fun t => t.x 3 == 0xA0040000) = true := by
  decide
theorem test_mcrxrx : nextIs (exec (.mcrxrx 3) { be with xer := 0x40040000 }) (fun t => t.cr == 0x00090000) = true := by
  decide
theorem test_mtmsr : nextIs (exec (.mtmsr 3 false) (xs be 0 0 0xFFFFFFFFFFFFFFFF)) (fun t => t.msr == 0x90000000FFBFEFFE) = true := by
  decide
theorem test_mtmsr_l1 : nextIs (exec (.mtmsr 3 true) (xs be 0 0 0xFFFFFFFFFFFFFFFF))
    (fun t => t.msr == 0x9000000000008002) = true := by decide
theorem test_dcbz : nextIs (exec (.dcbz 1 2) (xs be 0x2000 7 0))
    (fun t => bytesAt t 0x2000 16 == some (List.replicate 16 0)) = true := by decide
theorem test_tlbie : refusedIs (exec (.tlbie 0 0 false false 3) be) (.noTlb 0x1000) = true := by decide
theorem test_tlbiel : refusedIs (exec (.tlbiel 0 0 false false 3) be) (.noTlb 0x1000) = true := by decide
theorem test_tlbsync_problem : faultIs (exec .tlbsync (inEnv prob)) (.privilegedInstruction 0x1000) = true := by decide
theorem test_lswi : nextIs (exec (.lswi 30 1 7) (xs be 0x2001 0 0))
    (fun t => t.x 30 == 0x23456789 && t.x 31 == 0xABCDEF00) = true := by decide
theorem test_lswi_invalid : refusedIs (exec (.lswi 31 1 9) (xs be 0x2001 0 0)) (.invalidForm 0x1000) = true := by decide
theorem test_sc_environment : faultIs (exec (.sc 127) (inEnv be)) (.systemCall 127 0x1004) = true := by decide
theorem test_sc_architected : nextIs (exec (.sc 1) prob)
    (fun t => t.pc == 0xC00 && t.srr0 == 0x1004 && t.srr1 == 0x8000000000004000 && t.msr == 0x9000000000000000) = true := by
  decide
theorem test_setvl : refusedIs (exec .setvl be) (.setvlNotSpecified 0x1000) = true := by decide

/-! ### The step -/

theorem test_step_runs_placed_word :
    nextIs (step (State.reset.withFetchWord 32 0x38600005)) (fun t => t.x 3 == 5 && t.pc == 0x1004) = true := by decide
theorem test_step_from_reset : refusedIs (step State.reset) (.unwritten 0x1000) = true := by decide
theorem test_step_illegal :
    faultIs (step (State.reset.withFetchWord 32 0)) (.illegalInstruction 0 0x1000) = true := by decide
/-- TRAP_MODE is `environment` at reset (R6, R305): the run ends at `sc`. -/
theorem test_sc_from_reset :
    faultIs (step (State.reset.withFetchWord 32 0x44000002)) (.systemCall 0 0x1004) = true := by decide
/-- A start state with registers listed (R351). -/
def listed : State := State.start be.params [.x 31 7, .crf 1 9, .spr .lr 0x2003, .spr .srr1 5] bytes2000
theorem test_listed_registers : listed.x 31 = 7 ∧ listed.x 30 = 0 ∧ listed.cr = 0x09000000 ∧ listed.lr = 0x2003 ∧
    listed.srr1 = 5 ∧ listed.ctr = 0 := by decide
theorem test_listed_register_runs : nextIs (exec (.bclr 20 0 0 true) listed) (fun t => t.pc == 0x2000 && t.lr == 0x1004) = true := by
  decide
theorem test_decodeTableWord : decodeTableWord 32 0x44000002 = some (.sc 0) := by decide

/-! ### Witnesses: a state and operands that meet the hypotheses of each statement, one for each clause -/

/-- A store of all eight bytes of register 3 at 0x3000. -/
def stored3000 : State := (xs be 0x3000 0 0x1122334455667788).writeCells
  [(0x3000, 0x11), (0x3001, 0x22), (0x3002, 0x33), (0x3003, 0x44), (0x3004, 0x55), (0x3005, 0x66), (0x3006, 0x77),
   (0x3007, 0x88)]

/-- A state whose next word is an instruction's. -/
def withInstr (s : State) (i : Instr) : State := s.placeWord (encode i)

theorem witness_DecodeOfEncode : Instr.WellFormed (.lswi 31 0 0) := by decide
theorem witness_EncodeOfDecode : decode 0x7FC13CAA = some (.lswi 30 1 7) := by decide
theorem witness_DecodeFollowsOpcodeMap :
    decode 0x7C610124 = some (.mtmsr 3 true) ∧ (⟨0xFC1EFFFF, 0x7C000124⟩ : OpcodeRow) ∈ opcodeRows ∧
      OpcodeRow.selects ⟨0xFC1EFFFF, 0x7C000124⟩ 0x7C610124 := by decide

theorem witness_StepRunsDecodedInstruction (s : State) (h : s = withInstr be (.addi 3 0 5)) :
    s.pc.toNat % 4 = 0 ∧ s.ir = false ∧ (∀ a ∈ s.span s.pc 4, admitted s.params.memMap a = true ∧ a ∉ s.stored) ∧
      s.mem.readAll (s.span s.pc 4) = some [0x38, 0x60, 0x00, 0x05] ∧
      decode (0x38#8 ++ 0x60#8 ++ 0x00#8 ++ 0x05#8) = some (.addi 3 0 5) := by
  subst h
  decide

/-- Little-Endian mode, the last word of the address space. -/
theorem witness_StepRunsDecodedInstruction_le (s : State)
    (h : s = withInstr { le with pc := 0xFFFFFFFFFFFFFFFC } (.addi 3 0 5)) :
    s.pc.toNat % 4 = 0 ∧ s.ir = false ∧ (∀ a ∈ s.span s.pc 4, admitted s.params.memMap a = true ∧ a ∉ s.stored) ∧
      s.mem.readAll (s.span s.pc 4) = some [0x05, 0x00, 0x60, 0x38] ∧ s.le = true := by
  subst h
  decide

theorem witness_StepStopsInOrder_translation : be.pc.toNat % 4 = 0 ∧ { be with msr := 0x9000000000000020 }.ir = true := by
  decide
theorem witness_StepStopsInOrder_storage (s : State) (h : s = { be with pc := 0x5000 }) :
    s.pc.toNat % 4 = 0 ∧ s.ir = false ∧ ∃ a ∈ s.span s.pc 4, admitted s.params.memMap a = false := by
  subst h
  decide
theorem witness_StepStopsInOrder_modified (s : State) (h : s = { stored3000 with pc := 0x3004 }) :
    s.pc.toNat % 4 = 0 ∧ s.ir = false ∧ (∀ a ∈ s.span s.pc 4, admitted s.params.memMap a = true) ∧
      ∃ a ∈ s.span s.pc 4, a ∈ s.stored := by
  subst h
  decide
theorem witness_StepStopsInOrder_unwritten (s : State) (h : s = { be with pc := 0x4FFC }) :
    s.pc.toNat % 4 = 0 ∧ s.ir = false ∧ (∀ a ∈ s.span s.pc 4, admitted s.params.memMap a = true) ∧
      (∀ a ∈ s.span s.pc 4, a ∉ s.stored) ∧ ∃ a ∈ s.span s.pc 4, s.mem.read a = none := by
  subst h
  decide
theorem witness_StepStopsInOrder_illegal (s : State) (h : s = { be with pc := 0x2000 }) :
    s.pc.toNat % 4 = 0 ∧ s.ir = false ∧ (∀ a ∈ s.span s.pc 4, admitted s.params.memMap a = true) ∧
      (∀ a ∈ s.span s.pc 4, a ∉ s.stored) ∧ s.mem.readAll (s.span s.pc 4) = some [0x01, 0x23, 0x45, 0x67] ∧
      decode (0x01#8 ++ 0x23#8 ++ 0x45#8 ++ 0x67#8) = none := by
  subst h
  decide

theorem witness_PlacedInstructionRuns : decodeTableWord 32 0x44000002 = some (.sc 0) := by decide

/-- Placing where IR is set, a byte is marked and an address does not exist. -/
theorem witness_PlacedInstructionRuns_clauses (s : State)
    (h : s = { stored3000 with pc := 0x3004, msr := 0x9000000000000020, params := { be.params with memMap := [⟨0, 0x3005⟩] } }) :
    s.ir = true ∧ 0x3000 ∉ s.span s.pc 4 ∧ 0x3000 ∈ s.stored ∧ 0x3004 ∈ s.span s.pc 4 ∧ 0x3004 ∈ s.stored ∧
      admitted s.params.memMap 0x3007 = false ∧
      faultIs (step (s.withFetchWord 32 0x44000003)) (.illegalInstruction 0x44000003 0x3004) = true ∧
      nextIs (step (s.withFetchWord 32 0x44000002)) (fun t => t.pc == 0xC00) = true ∧
      ∀ a ∈ be.span be.pc 4, admitted be.params.memMap a = true := by
  subst h
  decide

/-- In a state whose every listed byte exists, every byte that has a value does. -/
theorem memExists_of_listed {s : State} (h : ∀ a ∈ s.mem.map Prod.fst, admitted s.params.memMap a = true) :
    ∀ a, (s.mem.read a).isSome → admitted s.params.memMap a = true := fun a ha => h a (mem_of_read_isSome ha)

/-- A list of registers with two entries for one register (of which the clause says nothing), and registers not listed. -/
theorem witness_StartInvariant (registers : List RegisterValue)
    (h : registers = [.x 3 1, .x 3 2, .x 31 7, .crf 7 9, .spr .tar 5]) :
    be.params.wf = true ∧ bytes2000.wf ∧ (∀ a, (bytes2000.read a).isSome → admitted be.params.memMap a = true) ∧
      .x 31 7 ∈ registers ∧ (∀ w, .x 31 w ∈ registers → w = 7) ∧ .crf 7 9 ∈ registers ∧
      (∀ w, .crf 7 w ∈ registers → w = 9) ∧ .spr .tar 5 ∈ registers ∧ (∀ w, .spr .tar w ∈ registers → w = 5) ∧
      (∀ v, .x 0 v ∉ registers) ∧ (∀ v, .crf 0 v ∉ registers) ∧ (∀ v, .spr .xer v ∉ registers) := by
  subst h
  refine ⟨by decide, by decide, fun a ha => ?_, ?_⟩
  · have hl : ∀ a ∈ bytes2000.map Prod.fst, admitted be.params.memMap a = true := by decide
    exact hl a (mem_of_read_isSome ha)
  · simp

theorem witness_StepKeepsInvariant (s : State) (h : s = withInstr be (.addi 3 0 5)) :
    Inv s ∧ nextIs (step s) (fun t => t.x 3 == 5) = true := by
  subst h
  exact ⟨⟨by decide, by decide, by decide, memExists_of_listed (by decide), by decide, by decide⟩, by decide⟩

/-- The invariant at the top of the 32-bit address space, with marks, before a branch to itself. -/
theorem witness_StepKeepsInvariant_marks (s : State)
    (h : s = withInstr { stored3000 with msr := 0x1000000000000000, pc := 0x2FFC } (.b 0 false false)) :
    Inv s ∧ nextIs (step s) (fun t => t.pc == 0x2FFC) = true := by
  subst h
  exact ⟨⟨by decide, by decide, by decide, memExists_of_listed (by decide), by decide, by decide⟩, by decide⟩

theorem witness_StepMarksWhatItWrites :
    nextIs (step (withInstr (xs be 0x3000 0 7) (.stb 3 1 0))) (fun t => t.mem.read 0x3000 == some 7) = true := by decide

theorem witness_NextInstructionFollows : ¬ IsBranch (.crand 0 0 0) ∧
    nextIs (exec (.crand 0 0 0) be) (fun t => t.pc == 0x1004) = true ∧ ¬ IsBranch (.sc 0) ∧
    nextIs (exec (.sc 0) be) (fun t => t.pc == 0xC00) = true ∧ ¬ IsBranch (.twi 31 0 0) ∧
    nextIs (exec (.twi 31 0 0) be) (fun t => t.pc == 0x700) = true ∧ ¬ IsBranch (.mtmsr 3 false) ∧
    nextIs (exec (.mtmsr 3 false) prob) (fun t => t.pc == 0x700) = true := by
  refine ⟨?_, by decide, ?_, by decide, ?_, by decide, ?_, by decide⟩ <;> exact not_false

theorem witness_StepKeepsModes :
    nextIs (step (withInstr be (.mtmsr 3 true))) (fun t => t.pc == 0x1004) = true ∧
      nextIs (step (withInstr { le with msr := 0x0000000000004001 } (.sc 0))) (fun t => t.sf && !t.le) = true := by decide

theorem witness_ProblemStateConfined : prob.pr = true ∧
    nextIs (step (withInstr prob (.addi 3 0 5))) (fun t => t.pr) = true ∧
    nextIs (step (withInstr prob (.mtmsr 3 false))) (fun t => !t.pr) = true := by decide

theorem witness_NoEntryToProblemState :
    (xs be 0 0 0x4000).pr = false ∧ nextIs (step (withInstr (xs be 0 0 0x4000) (.mtmsr 3 false))) (fun t => t.pr) = true := by
  decide

theorem witness_SprWriters :
    nextIs (exec (.mtspr 3 1) (xs be 0 0 7)) (fun t => t.xer != be.xer) = true ∧
    nextIs (exec (.mtspr 3 815) (xs be 0 0 7)) (fun t => t.tar != be.tar) = true ∧
    nextIs (exec (.bctar 0 0 0 true) be) (fun t => t.lr != be.lr && t.ctr != be.ctr) = true ∧
    nextIs (exec (.mtspr 3 27) (xs be 0 0 7)) (fun t => t.srr1 != be.srr1) = true ∧
    nextIs (exec (.sc 0) be) (fun t => t.srr0 != be.srr0) = true := by decide

theorem witness_InstructionFrames :
    nextIs (exec (.stq 4 1 0) (xs be 0x3000 0 0)) (fun t => t.stored.length == 16) = true ∧
    nextIs (exec (.twi 31 0 0) be) (fun t => t.pc == 0x700) = true := by decide

theorem witness_DecletCoding : (∀ k, k < 3 → ((0x999 : BitVec 12).extractLsb' (4 * k) 4).toNat ≤ 9) ∧
    ¬ ((0x0FF : BitVec 10) &&& 0x06E = 0x06E ∧ (0x0FF : BitVec 10) &&& 0x300 ≠ 0) := by decide

theorem witness_CbcdtdConverts :
    (∀ h k, h < 2 → k < 6 → (((xs be 0 0 0x0099999900123789).x 3).extractLsb' (32 * h + 4 * k) 4).toNat ≤ 9) ∧
    (∃ h k, h < 2 ∧ k < 6 ∧ 9 < (((xs be 0 0 0x00A0000000000000).x 3).extractLsb' (32 * h + 4 * k) 4).toNat) := by
  refine ⟨?_, 1, 5, by decide⟩
  intro h k hh hk
  interval_cases h <;> interval_cases k <;> decide

theorem witness_BcdRoundTrip :
    nextIs (exec (.cbcdtd 3 4) (xs be 0 0 0xFF999999FF999999)) (fun t => t.x 4 == 0x0003FCFF0003FCFF) = true := by decide

theorem witness_BcdAddition :
    (∀ k, k < 16 → ((0x9999999999999999 : DWord).extractLsb' (4 * k) 4).toNat ≤ 9) ∧
    (∀ k, k < 16 → (((xs be 0 1 0xFFFFFFFFFFFFFFFF).x 2).extractLsb' (4 * k) 4).toNat ≤ 9) ∧
    (xs be 0 1 0xFFFFFFFFFFFFFFFF).x 3 = (0x9999999999999999 : DWord) + 0x6666666666666666 ∧
    nextIs (exec (.addg6s 5 3 2) (xs be 0 1 0xFFFFFFFFFFFFFFFF)) (fun t => t.x 5 == 0) = true := by decide

/-- Each of the three forms, CTR at 1 and at 0, taken and not taken. -/
theorem witness_ConditionalBranches :
    BranchTaken be 16 0 ({ be with ctr := 0 }.ctr - 1) ∧ ¬ BranchTaken be 16 0 ({ be with ctr := 1 }.ctr - 1) ∧
    BranchTaken be 20 31 be.ctr ∧ ¬ BranchTaken be 12 31 be.ctr := by decide

theorem witness_CountRegisterBranches : (20 : BitVec 5).getLsbD 2 = true ∧ (12 : BitVec 5).getLsbD 4 = false ∧
    be.crBit 0 ≠ (12 : BitVec 5).getLsbD 3 ∧ be.crBit 0 = (4 : BitVec 5).getLsbD 3 := by decide

/-- A BO of each row of the table, its ignored bits set; with it `bclr` answers a next state. -/
theorem witness_BranchOptionTable :
    (0b00001#5 &&& 0b11110 = 0b00000) ∧ (0b00011#5 &&& 0b11110 = 0b00010) ∧ (0b00111#5 &&& 0b11100 = 0b00100) ∧
    (0b01001#5 &&& 0b11110 = 0b01000) ∧ (0b01011#5 &&& 0b11110 = 0b01010) ∧ (0b01111#5 &&& 0b11100 = 0b01100) ∧
    (0b11001#5 &&& 0b10110 = 0b10000) ∧ (0b11011#5 &&& 0b10110 = 0b10010) ∧ (0b11111#5 &&& 0b10100 = 0b10100) ∧
    ∀ bo : BitVec 5, nextIs (exec (.bclr bo 0 3 true) be) (fun _ => true) = true := by
  refine ⟨by decide, by decide, by decide, by decide, by decide, by decide, by decide, by decide, by decide, fun _ => rfl⟩

theorem witness_LogicalImmediates : (Instr.andiRc 3 4 0xFFFF = .andiRc 3 4 0xFFFF ∧ 0 = 0) ∧
    (Instr.andisRc 3 4 0xFFFF = .andisRc 3 4 0xFFFF ∧ 16 = 16) := by decide

theorem witness_EffectiveAddresses : be.sf = true ∧ bits32.sf = false ∧ (0 : RegNum) = 0 := by decide

theorem witness_ByteLoads : (xs be 0x2000 15 0).dr = false ∧
    admitted be.params.memMap ((xs be 0x2000 15 0).eaX 1 2).toNat = true ∧
    (xs be 0x2000 15 0).mem.read ((xs be 0x2000 15 0).eaX 1 2).toNat = some 0x87 ∧
    (xs be 0x2000 15 0).hv = true ∧ (xs be 0x2000 15 0).pr = false ∧
    (xs be 0x2000 15 0).mem.read ((xs be 0x2000 15 0).eaD 1 0).toNat = some 0x01 := by decide

/-- The access of an instruction passes its checks and every byte of it has a value. -/
def readable (i : Instr) (s : State) : Prop :=
  match dataAccess i s with
  | none => False
  | some a => a.permitted s ∧ (s.mem.readAll a.bytes).isSome

theorem witness_ByteReverseLoads : readable (.lhbrx 3 1 2) (xs be 0x2000 14 0) ∧ readable (.lwbrx 3 1 2) (xs le 0x2000 12 0) ∧
    readable (.ldbrx 3 1 2) (xs be 0x2000 8 0) := by
  unfold readable
  refine ⟨?_, ?_, ?_⟩ <;> exact ⟨by decide, by decide⟩

theorem witness_LoadQuadword : (30 : RegNum).toNat % 2 = 0 ∧ (30 : RegNum) ≠ 1 ∧ readable (.lq 30 1 0) (xs be 0x2000 0 0) ∧
    readable (.lq 30 1 0) (xs le 0x2000 0 0) := by
  unfold readable
  refine ⟨by decide, by decide, ?_, ?_⟩ <;> exact ⟨by decide, by decide⟩

theorem witness_LoadMultiple : (1 : RegNum).toNat < (28 : RegNum).toNat ∧ readable (.lmw 28 1 0) (xs be 0x2000 0 0) := by
  unfold readable
  exact ⟨by decide, by decide, by decide⟩

theorem witness_LoadString : ¬ InvalidForm (.lswi 30 1 12) ∧ readable (.lswi 30 1 12) (xs be 0x2001 0 0) := by
  unfold readable InvalidForm
  exact ⟨by decide, by decide, by decide⟩

theorem witness_PlainStores : readable (.stb 3 1 15) (xs le 0x2000 0 0) ∧ readable (.std 3 1 2) (xs be 0x2000 0 0) := by
  unfold readable
  refine ⟨?_, ?_⟩ <;> exact ⟨by decide, by decide⟩

theorem witness_ByteReverseStores : readable (.sthbrx 3 1 2) (xs be 0x2000 14 0) ∧
    readable (.stwbrx 3 1 2) (xs le 0x2000 12 0) ∧ readable (.stdbrx 3 1 2) (xs be 0x2000 8 0) := by
  unfold readable
  refine ⟨?_, ?_, ?_⟩ <;> exact ⟨by decide, by decide⟩

theorem witness_StoreQuadword : (30 : RegNum).toNat % 2 = 0 ∧ readable (.stq 30 1 0) (xs be 0x2000 0 0) ∧
    readable (.stq 30 1 0) (xs le 0x2000 0 0) := by
  unfold readable
  refine ⟨by decide, ?_, ?_⟩ <;> exact ⟨by decide, by decide⟩

theorem witness_StoreMultiple : readable (.stmw 28 1 0) (xs be 0x2000 0 0) := by
  unfold readable
  exact ⟨by decide, by decide⟩

theorem witness_DcbzZeroesBlock : be.params.dcbzBlock = 16 ∧ (xs prob 0x4FFF 0 0).dr = false ∧
    ∀ a, a / 16 = ((xs prob 0x4FFF 0 0).eaX 1 2).toNat / 16 → admitted prob.params.memMap a = true := by
  refine ⟨by decide, by decide, ?_⟩
  intro a h
  have e : ((xs prob 0x4FFF 0 0).eaX 1 2).toNat / 16 = 0x4FF := by decide
  have h1 : 0x4FF0 ≤ a := by omega
  have h2 : a ≤ 0x4FFF := by omega
  simp [admitted, prob, be, State.start, State.startUnlisted, Region.contains]
  omega

/-- One witness for each of the five clauses: translation, alignment, an address outside MemMap, an unwritten byte, and a
load that completes. -/
theorem witness_AccessChecksInOrder :
    { be with msr := 0x9000000000000010 }.dr = true ∧
    (∃ a, dataAccess (.std 3 1 1) (xs be 0x3000 0 0) = some a ∧ a.misaligned (xs be 0x3000 0 0)) ∧
    (∃ a, dataAccess (.std 3 1 0) (xs be 0x5000 0 0) = some a ∧ ¬ a.misaligned (xs be 0x5000 0 0) ∧
      ∃ b ∈ a.bytes, admitted be.params.memMap b = false) ∧
    (∃ a, dataAccess (.lbz 3 1 0) (xs be 0x4FFF 0 0) = some a ∧ a.permitted (xs be 0x4FFF 0 0) ∧
      ∃ b ∈ a.bytes, (xs be 0x4FFF 0 0).mem.read b = none) ∧
    readable (.lbz 3 1 0) (xs be 0x200F 0 0) ∧ ¬ LacksPrivilege (.lbz 3 1 0) be ∧ ¬ InvalidForm (.lbz 3 1 0) := by
  unfold readable
  refine ⟨by decide, ⟨_, rfl, by decide⟩, ⟨_, rfl, by decide, by decide⟩, ⟨_, rfl, by decide, by decide⟩,
    ⟨by decide, by decide⟩, not_false, not_false⟩

theorem witness_StoreThenLoad : nextIs (exec (.stdbrx 3 1 2) (xs le 0x3000 8 7)) (fun _ => true) = true ∧
    nextIs (exec (.sthbrx 3 1 2) (xs be 0x3000 8 7)) (fun _ => true) = true ∧
    nextIs (exec (.stwbrx 3 1 2) (xs be 0x3000 8 7)) (fun _ => true) = true ∧
    (4 : RegNum).toNat % 2 = 0 ∧ (4 : RegNum) ≠ 1 ∧ (xs le 0x3000 0 0).eaDS 1 4 = (xs le 0x3000 0 0).eaDQ 1 1 ∧
    nextIs (exec (.stq 6 1 4) (xs le 0x3000 0 0)) (fun _ => true) = true := by decide

theorem witness_MixedWidths : nextIs (exec (.std 3 1 2) (xs be 0x3000 8 7)) (fun _ => true) = true ∧
    (xs be 0x3000 8 7).eaX 1 2 = (xs be 0x3000 8 7).eaDS 1 2 ∧
    (xs be 0x3000 8 7).eaD 1 15 = (xs be 0x3000 8 7).byteAddr ((xs be 0x3000 8 7).eaDS 1 2) 7 := by decide

theorem witness_InvalidFormsRefused : InvalidForm (.lmw 0 0 0) ∧ InvalidForm (.lswi 29 0 16) ∧ ¬ InvalidForm (.lswi 29 1 16) ∧
    InvalidForm (.lq 31 0 0) ∧ ¬ InvalidForm (.lq 30 31 0) := by
  unfold InvalidForm
  decide

theorem witness_PrivilegeChecked : LacksPrivilege (.lbzcix 3 1 2) { be with msr := 0x8000000000000000 } ∧
    LacksPrivilege (.mfspr 3 26) prob ∧ LacksPrivilege (.mtspr 3 27) prob ∧ ¬ LacksPrivilege (.mtspr 3 815) prob ∧
    be.params.trapMode = .architected ∧ (inEnv prob).params.trapMode = .environment := by
  unfold LacksPrivilege
  decide

/-- 1 against -1: less as unsigned numbers, greater as signed ones (R251). -/
theorem witness_TrapWordImmediate : ((1 : DWord).setWidth 32).toInt = 1 ∧ (0xFFFF : BitVec 16).toInt = -1 ∧
    ((2 : BitVec 5).getLsbD 1 = true ∧ (1 : Int) % 2 ^ 64 < (-1) % 2 ^ 64) ∧
    be.params.trapMode = .architected ∧ (inEnv be).params.trapMode = .environment := by decide

theorem witness_SystemCallEnters : be.params.trapMode = .architected ∧ (inEnv prob).params.trapMode = .environment := by
  decide

theorem witness_SprMoves : ((815, .tar) : BitVec 10 × Spr) ∈
      ([(1, .xer), (8, .lr), (9, .ctr), (26, .srr0), (27, .srr1), (815, .tar)] : List (BitVec 10 × Spr)) ∧
    be.pr = false := by decide

theorem witness_SprNumberChecked : (0 : BitVec 10).toNat ∉ [1, 8, 9, 26, 27, 815] ∧
    (1023 : BitVec 10).toNat ∉ [1, 8, 9, 26, 27, 815] ∧ (27 : BitVec 10).toNat ∈ [26, 27] ∧ prob.pr = true ∧
    prob.params.trapMode = .architected ∧ (inEnv prob).params.trapMode = .environment := by decide

theorem witness_MoveToMsr : be.pr = false ∧ { be with msr := 0 }.pr = false := by decide

theorem witness_TlbInstructionsStop : be.pr = false ∧ prob.pr = true ∧ prob.params.trapMode = .architected ∧
    (inEnv prob).params.trapMode = .environment := by decide

end Sys2Proof.Tests
end

section
/-!
SUPPORT. Frames: how two of them compose, and the frame of each named update of the state. The frame of an instruction is
then read off its meaning, one update after another.
-/
namespace Sys2Proof.Machine

section Composition

variable {s t u : State} {gprs gprs' : List RegNum} {crBits crBits' : List CrBitNum} {sprs sprs' : List Spr}
  {bytes bytes' : List Nat}

/-- One change after another changes what either of them may change. -/
theorem Untouched.trans (hst : Untouched s t gprs crBits sprs bytes) (htu : Untouched t u gprs' crBits' sprs' bytes') :
    Untouched s u (gprs ++ gprs') (crBits ++ crBits') (sprs ++ sprs') (bytes ++ bytes') where
  gpr r hr := by
    rw [List.mem_append, not_or] at hr
    rw [htu.gpr r hr.2, hst.gpr r hr.1]
  cr b hb := by
    rw [List.mem_append, not_or] at hb
    rw [htu.cr b hb.2, hst.cr b hb.1]
  spr r hr := by
    rw [List.mem_append, not_or] at hr
    rw [htu.spr r hr.2, hst.spr r hr.1]
  mem a ha := by
    rw [List.mem_append, not_or] at ha
    rw [htu.mem a ha.2, hst.mem a ha.1]
  marks a := by rw [htu.marks, hst.marks, List.mem_append, or_assoc]
  params := htu.params.trans hst.params

theorem Frame.trans (hst : Frame s t gprs crBits sprs bytes) (htu : Frame t u gprs' crBits' sprs' bytes') :
    Frame s u (gprs ++ gprs') (crBits ++ crBits') (sprs ++ sprs') (bytes ++ bytes') :=
  ⟨hst.toUntouched.trans htu.toUntouched, htu.msr.trans hst.msr⟩

end Composition

/-! ### One frame per update -/

theorem frame_advance (s : State) : Frame s s.advance [] [] [] [] where
  gpr r _ := advance_x s r
  cr b _ := advance_crBit s b
  spr r _ := advance_spr s r
  mem _ _ := rfl
  marks a := by simp
  params := rfl
  msr := rfl

theorem frame_branchTo (s : State) (a : Addr) : Frame s (s.branchTo a) [] [] [] [] where
  gpr r _ := branchTo_x s a r
  cr b _ := branchTo_crBit s a b
  spr r _ := branchTo_spr s a r
  mem _ _ := rfl
  marks a := by simp
  params := rfl
  msr := rfl

theorem frame_setX (s : State) (r : RegNum) (v : DWord) : Frame s (s.setX r v) [r] [] [] [] where
  gpr q hq := setX_x_ne s v (by simpa using hq)
  cr b _ := setX_crBit s r v b
  spr q _ := setX_spr s r v q
  mem _ _ := rfl
  marks a := by simp
  params := rfl
  msr := rfl

/-- The four bits of a field are those it holds (R25). -/
theorem mem_fieldBits_iff (b : CrBitNum) (f : CrFieldNum) : b ∈ fieldBits f ↔ crFieldOf b = f := by
  revert b f
  decide

theorem frame_setCrField (s : State) (n : CrFieldNum) (v : BitVec 4) :
    Frame s (s.setCrField n v) [] (fieldBits n) [] [] where
  gpr q _ := setCrField_x s n v q
  cr b hb := by rw [crBit_setCrField, if_neg (mt (mem_fieldBits_iff b n).mpr hb)]
  spr q _ := setCrField_spr s n v q
  mem _ _ := rfl
  marks a := by simp
  params := rfl
  msr := rfl

theorem frame_setCompare (s : State) (n : CrFieldNum) (lt gt : Bool) :
    Frame s (s.setCompare n lt gt) [] (fieldBits n) [] [] :=
  frame_setCrField s n _

theorem frame_recordCr0 (s : State) (v : DWord) : Frame s (s.recordCr0 v) [] (fieldBits 0) [] [] :=
  frame_setCompare s 0 _ _

/-- Nothing at all may change where nothing is done. -/
theorem frame_refl (s : State) : Frame s s [] [] [] [] where
  gpr _ _ := rfl
  cr _ _ := rfl
  spr _ _ := rfl
  mem _ _ := rfl
  marks a := by simp
  params := rfl
  msr := rfl

theorem frame_recordIf (s : State) (rc : Bool) (v : DWord) : Frame s (s.recordIf rc v) [] (recordBits rc) [] [] := by
  cases rc
  · exact frame_refl s
  · exact frame_recordCr0 s v

theorem frame_setCrBit (s : State) (b : CrBitNum) (x : Bool) : Frame s (s.setCrBit b x) [] [b] [] [] where
  gpr q _ := setCrBit_x s b x q
  cr c hc := by rw [crBit_setCrBit, if_neg (by simpa using hc)]
  spr q _ := setCrBit_spr s b x q
  mem _ _ := rfl
  marks a := by simp
  params := rfl
  msr := rfl

theorem frame_setSpr (s : State) (r : Spr) (v : DWord) : Frame s (s.setSpr r v) [] [] [r] [] where
  gpr q _ := setSpr_x s r v q
  cr b _ := setSpr_crBit s r v b
  spr q hq := setSpr_spr_ne s v (by simpa using hq)
  mem a _ := by rw [setSpr_mem]
  marks a := by simp
  params := setSpr_params s r v
  msr := setSpr_msr s r v

/-- Linking is a write of LR where LK is 1, and nothing where it is 0 (R159). -/
theorem frame_linkIf (s : State) (lk : Bool) : Frame s (s.linkIf lk) [] [] (linkSpr lk) [] := by
  cases lk
  · exact frame_refl s
  · exact frame_setSpr s .lr s.nextPc

/-- CTR as a conditional branch leaves it is a write of CTR where `BO[2]` is 0, and nothing where it is 1 (R154). -/
theorem frame_ctrAfter (s : State) (bo : BitVec 5) : Frame s { s with ctr := s.ctrAfter bo } [] [] (ctrSpr bo) [] := by
  unfold ctrSpr
  split
  · next hbo =>
    have hkept : s.ctrAfter bo = s.ctr := by simp [State.ctrAfter, boDecrements, hbo]
    rw [hkept]
    exact frame_refl s
  · exact frame_setSpr s .ctr _

theorem frame_writeCells (s : State) (cells : List Host.Cell) :
    Frame s (s.writeCells cells) [] [] [] (cells.map Prod.fst) where
  gpr r _ := writeCells_x s cells r
  cr b _ := writeCells_crBit s cells b
  spr r _ := writeCells_spr s cells r
  mem _ ha := read_writeAll_other s.mem cells ha
  marks a := mem_addMarks cells s.stored a
  params := rfl
  msr := rfl

theorem frame_setWords (s : State) (rt : RegNum) (n : Nat) (bs : List Byte) :
    Frame s (s.setWords rt n bs) (regsFrom rt n) [] [] [] where
  gpr q hq := setWords_x_other s rt n bs q fun k hk e =>
    hq (List.mem_map.mpr ⟨k, List.mem_range.mpr hk, e.symm⟩)
  cr b _ := setWords_crBit s rt n bs b
  spr r _ := spr_of_fields (by simp) (by simp) (by simp) (by simp) (by simp) (by simp) r
  mem a _ := by rw [setWords_mem]
  marks a := by simp
  params := setWords_params s rt n bs
  msr := setWords_msr s rt n bs

/-- A write of the MSR changes nothing else. -/
theorem untouched_setMsr (s : State) (v : DWord) : Untouched s { s with msr := v } [] [] [] [] where
  gpr _ _ := rfl
  cr _ _ := rfl
  spr r _ := spr_of_fields rfl rfl rfl rfl rfl rfl r
  mem _ _ := rfl
  marks a := by simp
  params := rfl

/-! ### The next instruction, and branches -/

section Advance

variable {s t : State} {gprs : List RegNum} {crBits : List CrBitNum} {sprs : List Spr} {bytes : List Nat}

theorem Untouched.advance (h : Untouched s t gprs crBits sprs bytes) : Untouched s t.advance gprs crBits sprs bytes := by
  simpa using h.trans (frame_advance t).toUntouched

theorem Frame.advance (h : Frame s t gprs crBits sprs bytes) : Frame s t.advance gprs crBits sprs bytes := by
  simpa using h.trans (frame_advance t)

theorem Frame.branchTo (h : Frame s t gprs crBits sprs bytes) (a : Addr) :
    Frame s (t.branchTo a) gprs crBits sprs bytes := by
  simpa using h.trans (frame_branchTo t a)

end Advance

/-- A conditional branch changes CTR where it decrements it and LR where LK is 1, whether or not it is taken (R154, R159). -/
theorem frame_branchCond (s : State) (bo : BitVec 5) (bi : CrBitNum) (lk : Bool) (a : Addr) :
    Frame s (s.branchCond bo bi lk a) [] [] (ctrSpr bo ++ linkSpr lk) [] := by
  have horder : { s.linkIf lk with ctr := s.ctrAfter bo } = { s with ctr := s.ctrAfter bo }.linkIf lk := by
    cases lk <;> rfl
  have hboth := (frame_ctrAfter s bo).trans (frame_linkIf { s with ctr := s.ctrAfter bo } lk)
  unfold State.branchCond
  rw [horder]
  cases s.branchOk bo bi
  · exact hboth.advance
  · exact hboth.branchTo a

/-- A branch that does not decrement CTR changes LR alone (R157). -/
theorem frame_branchCond_of_not_decrements (s : State) (bo : BitVec 5) (bi : CrBitNum) (lk : Bool) (a : Addr)
    (h : boDecrements bo = false) : Frame s (s.branchCond bo bi lk a) [] [] (linkSpr lk) [] := by
  have hctr : ctrSpr bo = [] := if_pos (by simpa [boDecrements] using h)
  simpa [hctr] using frame_branchCond s bo bi lk a

/-! ### Storage -/

/-- A load changes at most the registers that `k` writes from the bytes. -/
theorem frame_of_load {s t : State} {ea : Addr} {aligned : Bool} {addrs : List Nat} {k : List Byte → State}
    {gprs : List RegNum} (h : s.load ea aligned addrs k = .next t) (hk : ∀ bs, Frame s (k bs) gprs [] [] []) :
    Frame s t gprs [] [] [] := by
  obtain ⟨-, bs, -, rfl⟩ := (load_eq_next_iff s ea aligned addrs k t).mp h
  exact (hk bs).advance

/-- A store of one byte for each address changes the bytes at those addresses and marks them. -/
theorem frame_of_store {s t : State} {ea : Addr} {aligned : Bool} {addrs : List Nat} {bs : List Byte}
    (h : s.store ea aligned addrs bs = .next t) (hl : bs.length = addrs.length) : Frame s t [] [] [] addrs := by
  obtain ⟨-, rfl⟩ := (store_eq_next_iff s ea aligned addrs bs t).mp h
  have hw := (frame_writeCells s (addrs.zip bs)).advance
  rwa [List.map_fst_zip (by omega)] at hw

theorem frame_of_storeValue {w : Nat} {s t : State} {ea : Addr} {n : Nat} {aligned : Bool} {v : BitVec w}
    (h : s.storeValue ea n aligned v = .next t) : Frame s t [] [] [] (s.span ea n) :=
  frame_of_store h (by rw [toStorage_length, span_length])

@[simp] theorem multipleBytes_length (s : State) (rs : RegNum) :
    (s.multipleBytes rs).length = 4 * (32 - rs.toNat) := by
  simp [State.multipleBytes, Nat.mul_comm]

@[simp] theorem blockSpan_length (s : State) (ea : Addr) : (s.blockSpan ea).length = s.params.dcbzBlock := by
  simp [State.blockSpan]

end Sys2Proof.Machine
end

section
/-!
SUPPORT. Interrupt entry bit by bit (R306, R310, R311): each raise that goes on is the interrupt Safety.lean describes.
-/
namespace Sys2Proof.Machine

/-- The mask of interrupt entry is the list of R306. -/
theorem getLsbD_msrClearedByInterrupt {i : Nat} (hi : i < 64) :
    msrClearedByInterrupt.getLsbD i = decide (i ∈ clearedBits) := by
  revert i
  decide

theorem getLsbD_srr1InfoMask (i : Nat) :
    srr1InfoMask.getLsbD i = decide ((27 ≤ i ∧ i ≤ 30) ∨ (16 ≤ i ∧ i ≤ 21)) := by
  rw [srr1InfoMask, BitVec.getLsbD_or, getLsbD_fieldMask _ _ (by decide), getLsbD_fieldMask _ _ (by decide),
    Bool.decide_or]

/-- The MSR a handler starts with, bit by bit (R306). -/
theorem getLsbD_handlerMsr (s : State) {i : Nat} (hi : i < 64) :
    s.handlerMsr.getLsbD i =
      if i = 63 then true
      else if i = 0 then s.params.msr0.getLsbD 0
      else if i ∈ clearedBits then false
      else s.msr.getLsbD i := by
  rw [State.handlerMsr, getLsbD_setBit _ _ _ (by decide) hi, getLsbD_setBit _ _ _ (by decide) hi, BitVec.getLsbD_and,
    BitVec.getLsbD_not, getLsbD_msrClearedByInterrupt hi]
  by_cases h63 : i = 63
  · simp [h63]
  · by_cases h0 : i = 0
    · simp [h0]
    · by_cases hc : i ∈ clearedBits <;> simp [h63, h0, hc, hi]

/-- SRR1 takes the bits of `info` where its mask has them and the MSR elsewhere (R306). -/
theorem getLsbD_merge_srr1InfoMask (msr info : DWord) {i : Nat} (hi : i < 64) :
    (merge srr1InfoMask msr info).getLsbD i =
      if (27 ≤ i ∧ i ≤ 30) ∨ (16 ≤ i ∧ i ≤ 21) then info.getLsbD i else msr.getLsbD i := by
  rw [getLsbD_merge _ _ _ _ hi, getLsbD_srr1InfoMask]
  simp only [decide_eq_true_eq]

/-- Interrupt entry changes SRR0 and SRR1 among the special purpose registers, and leaves the rest alone (R306). -/
theorem untouched_interrupt (s : State) (vec ret : Addr) (info : DWord) :
    Untouched s (s.interrupt vec ret info) [] [] [.srr0, .srr1] [] where
  gpr r _ := interrupt_x s vec ret info r
  cr b _ := interrupt_crBit s vec ret info b
  spr r hr := by
    cases r with
    | srr0 | srr1 => simp at hr
    | xer | lr | ctr | tar => rfl
  mem _ _ := rfl
  marks a := by simp
  params := rfl

/-- Interrupt entry, HV left as it was (R306). -/
theorem interrupted_interrupt (s : State) (vec ret : Addr) (info : DWord) :
    Interrupted s (s.interrupt vec ret info) vec ret info.getLsbD false where
  pc := rfl
  srr0 := wordAligned_toNat ret
  srr1 _ hi := getLsbD_merge_srr1InfoMask s.msr info hi
  msr i hi := by
    rw [interrupt_msr, getLsbD_handlerMsr s hi]
    by_cases h60 : i = 60
    · subst h60
      simp [clearedBits]
    · simp [h60]
  rest := untouched_interrupt s vec ret info

/-- A Program interrupt with one bit of information (R310). -/
theorem interrupted_program (s : State) {j : Nat} (hj : j < 64) :
    Interrupted s (s.interrupt programVector s.pc (fieldMask j j)) 0x700 s.pc (fun k => k = j) false := by
  have hinfo : (fieldMask j j).getLsbD = fun k => decide (k = j) := by
    funext k
    rw [getLsbD_fieldMask _ _ hj, decide_eq_decide]
    omega
  have h := interrupted_interrupt s programVector s.pc (fieldMask j j)
  rwa [hinfo] at h

/-- The System Call interrupt sets HV as well where LEV[0] is 1 (R311). -/
theorem interrupted_systemCallEntry (s : State) (lev : BitVec 7) :
    Interrupted s (s.systemCallEntry lev) 0xC00 s.nextPc (fun _ => false) (lev.getLsbD 0) := by
  have h := interrupted_interrupt s systemCallVector s.nextPc 0
  have hinfo : (0 : DWord).getLsbD = fun _ => false := funext fun _ => BitVec.getLsbD_zero
  rw [hinfo] at h
  unfold State.systemCallEntry
  cases hl : lev.getLsbD 0 <;> simp only [if_true, if_false, Bool.false_eq_true]
  · exact h
  · refine ⟨h.pc, h.srr0, h.srr1, fun i hi => ?_, ?_⟩
    · rw [getLsbD_setBit _ _ _ (by decide) hi, h.msr i hi]
      by_cases h60 : i = 60 <;> simp [h60]
    · simpa using h.rest.trans (untouched_setMsr _ _)

/-! ### What a raise that goes on is -/

theorem takesInterrupt_of_raiseTrap {s t : State} {trapOn : BitVec 5} {ra : RegNum} {si : BitVec 16}
    (h : s.raiseTrap = .next t) : TakesInterrupt (.twi trapOn ra si) s t := by
  obtain ⟨hmode, rfl⟩ := (raiseTrap_eq_next_iff s t).mp h
  exact .trap trapOn ra si rfl hmode (interrupted_program s (by decide))

theorem takesInterrupt_of_raisePrivileged {i : Instr} {s t : State} (hl : LacksPrivilege i s)
    (h : s.raisePrivileged = .next t) : TakesInterrupt i s t := by
  obtain ⟨hmode, rfl⟩ := (raisePrivileged_eq_next_iff s t).mp h
  exact .privilege hl hmode (interrupted_program s (by decide))

theorem takesInterrupt_of_raiseSystemCall {s t : State} {lev : BitVec 7} (h : s.raiseSystemCall lev = .next t) :
    TakesInterrupt (.sc lev) s t := by
  obtain ⟨hmode, rfl⟩ := (raiseSystemCall_eq_next_iff s t lev).mp h
  exact .systemCall lev rfl hmode (interrupted_systemCallEntry s lev)

end Sys2Proof.Machine
end

section
/-!
The frame of every instruction (O18): each family of instructions, then all of them.
-/
namespace Sys2Proof.Machine

/-- The instruction changes nothing but its own targets and `pc`. -/
abbrev TargetsOnly (i : Instr) (s t : State) : Prop :=
  Frame s t (gprTargets i) (crTargets i) (sprTargets i) (storeTargets i s)

/-- From s to t the instruction changes nothing but its own targets, or takes its interrupt: what the frame of every
instruction says of it. -/
def KeepsFrame (i : Instr) (s t : State) : Prop :=
  (Untouched s t (gprTargets i) (crTargets i) (sprTargets i) (storeTargets i s) ∧
    (t.msr = s.msr ∨ ∃ rs l, i = .mtmsr rs l)) ∨
  TakesInterrupt i s t

theorem TargetsOnly.keepsFrame {i : Instr} {s t : State} (h : TargetsOnly i s t) : KeepsFrame i s t :=
  .inl ⟨h.toUntouched, .inl h.msr⟩

theorem TakesInterrupt.keepsFrame {i : Instr} {s t : State} (h : TakesInterrupt i s t) : KeepsFrame i s t := .inr h

/-- An instruction that answers the next state u changes no more than u differs by. -/
theorem keepsFrame_of_next {i : Instr} {s t u : State} (h : exec i s = .next t) (hu : exec i s = .next u)
    (hf : TargetsOnly i s u) : KeepsFrame i s t := by
  rw [h] at hu
  cases hu
  exact hf.keepsFrame

/-- A result in a register, and CR0 recorded from it where the instruction records (R27). -/
theorem frame_setX_recordIf (s : State) (ra : RegNum) (rc : Bool) (v : DWord) :
    Frame s ((s.setX ra v).recordIf rc v).advance [ra] (recordBits rc) [] [] :=
  ((frame_setX s ra v).trans (frame_recordIf (s.setX ra v) rc v)).advance

theorem targetsOnly_cbcdtd {rs ra : RegNum} {s t : State} (h : exec (.cbcdtd rs ra) s = .next t) :
    TargetsOnly (.cbcdtd rs ra) s t := by
  change execCbcdtd rs ra s = .next t at h
  simp only [execCbcdtd] at h
  split at h
  · cases h
    exact (frame_setX s ra _).advance
  · cases h

theorem targetsOnly_bcctr {bo : BitVec 5} {bi : CrBitNum} {bh : BitVec 2} {lk : Bool} {s t : State}
    (h : exec (.bcctr bo bi bh lk) s = .next t) : TargetsOnly (.bcctr bo bi bh lk) s t := by
  change execBcctr bo bi bh lk s = .next t at h
  unfold execBcctr at h
  split at h
  · cases h
  · next hbo =>
    cases h
    exact frame_branchCond_of_not_decrements s bo bi lk _ (by simpa using hbo)

/-! ### Loads -/

theorem frame_of_loadZero {s t : State} {rt : RegNum} {ea : Addr} {n : Nat} {aligned : Bool}
    (h : s.loadZero rt ea n aligned = .next t) : Frame s t [rt] [] [] [] :=
  frame_of_load h fun _ => frame_setX s rt _

theorem frame_of_loadReversed {s t : State} {rt : RegNum} {ea : Addr} {n : Nat}
    (h : s.loadReversed rt ea n = .next t) : Frame s t [rt] [] [] [] :=
  frame_of_load h fun _ => frame_setX s rt _

theorem targetsOnly_lq {rtp ra : RegNum} {dq : BitVec 12} {s t : State} (h : exec (.lq rtp ra dq) s = .next t) :
    TargetsOnly (.lq rtp ra dq) s t := by
  change execLq rtp ra dq s = .next t at h
  unfold execLq at h
  split at h
  · cases h
  · exact frame_of_load h fun _ => (frame_setX s rtp _).trans (frame_setX _ (rtp + 1) _)

theorem targetsOnly_lmw {rt ra : RegNum} {d : BitVec 16} {s t : State} (h : exec (.lmw rt ra d) s = .next t) :
    TargetsOnly (.lmw rt ra d) s t := by
  change execLmw rt ra d s = .next t at h
  unfold execLmw at h
  split at h
  · cases h
  · exact frame_of_load h fun bs => frame_setWords s rt _ bs

theorem targetsOnly_lswi {rt ra : RegNum} {nb : BitVec 5} {s t : State} (h : exec (.lswi rt ra nb) s = .next t) :
    TargetsOnly (.lswi rt ra nb) s t := by
  change execLswi rt ra nb s = .next t at h
  simp only [execLswi] at h
  split at h
  · cases h
  · exact frame_of_load h fun bs => frame_setWords s rt _ bs

/-- Outside hypervisor state `lbzcix` raises PrivilegedInstruction before it looks at storage (R186, R320). -/
theorem keepsFrame_lbzcix {rt ra rb : RegNum} {s t : State} (h : exec (.lbzcix rt ra rb) s = .next t) :
    KeepsFrame (.lbzcix rt ra rb) s t := by
  change execLbzcix rt ra rb s = .next t at h
  unfold execLbzcix at h
  split at h
  · exact TargetsOnly.keepsFrame (frame_of_loadZero h)
  · next hhv =>
    have hl : LacksPrivilege (.lbzcix rt ra rb) s := by simpa [LacksPrivilege, State.hypervisor] using hhv
    exact (takesInterrupt_of_raisePrivileged hl h).keepsFrame

/-! ### Stores -/

theorem targetsOnly_stq {rsp ra : RegNum} {ds : BitVec 14} {s t : State} (h : exec (.stq rsp ra ds) s = .next t) :
    TargetsOnly (.stq rsp ra ds) s t := by
  change execStq rsp ra ds s = .next t at h
  unfold execStq at h
  split at h
  · cases h
  · exact frame_of_storeValue h

theorem targetsOnly_stmw {rs ra : RegNum} {d : BitVec 16} {s t : State} (h : exec (.stmw rs ra d) s = .next t) :
    TargetsOnly (.stmw rs ra d) s t :=
  frame_of_store h ((multipleBytes_length s rs).trans (span_length s _ _).symm)

theorem targetsOnly_dcbz {ra rb : RegNum} {s t : State} (h : exec (.dcbz ra rb) s = .next t) :
    TargetsOnly (.dcbz ra rb) s t :=
  frame_of_store h (List.length_replicate.trans (blockSpan_length s _).symm)

/-! ### System registers -/

/-- The registers confined to privileged state are numbers 26 and 27 (R40, R321). -/
theorem number_of_sprPrivileged {n : BitVec 10} {r : Spr} (hn : sprOf n = some r) (hp : sprPrivileged r = true) :
    n = 26 ∨ n = 27 := by
  unfold sprOf at hn
  split at hn
  case h_4 h26 => exact .inl (BitVec.eq_of_toNat_eq h26)
  case h_5 h27 => exact .inr (BitVec.eq_of_toNat_eq h27)
  all_goals cases hn <;> cases hp

/-- A move to or from an SPR that goes on has raised PrivilegedInstruction, or has reached the register (R264). -/
theorem keepsFrame_of_withSpr {i : Instr} {s t : State} {n : BitVec 10} {k : Spr → Out}
    (h : s.withSpr n k = .next t) (hl : (n = 26 ∨ n = 27) ∧ s.pr = true → LacksPrivilege i s)
    (hk : ∀ r, sprOf n = some r → k r = .next t → TargetsOnly i s t) : KeepsFrame i s t := by
  obtain ⟨r, hn, ⟨hp, hpr, hraise⟩ | ⟨-, hreach⟩⟩ := (withSpr_eq_next_iff s t n k).mp h
  · exact (takesInterrupt_of_raisePrivileged (hl ⟨number_of_sprPrivileged hn hp, hpr⟩) hraise).keepsFrame
  · exact (hk r hn hreach).keepsFrame

theorem keepsFrame_mtspr {rs : RegNum} {n : BitVec 10} {s t : State} (h : exec (.mtspr rs n) s = .next t) :
    KeepsFrame (.mtspr rs n) s t := by
  refine keepsFrame_of_withSpr (i := .mtspr rs n) h id fun r hn hreach => ?_
  cases hreach
  have htargets : sprTargets (.mtspr rs n) = [r] := by simp [sprTargets, hn]
  rw [TargetsOnly, htargets]
  exact (frame_setSpr s r _).advance

theorem keepsFrame_mfspr {rt : RegNum} {n : BitVec 10} {s t : State} (h : exec (.mfspr rt n) s = .next t) :
    KeepsFrame (.mfspr rt n) s t := by
  refine keepsFrame_of_withSpr (i := .mfspr rt n) h id fun r _ hreach => ?_
  cases hreach
  exact (frame_setX s rt _).advance

/-- `mtmsr` alone writes the MSR without an interrupt (R267). -/
theorem keepsFrame_mtmsr {rs : RegNum} {l : Bool} {s t : State} (h : exec (.mtmsr rs l) s = .next t) :
    KeepsFrame (.mtmsr rs l) s t := by
  change execMtmsr rs l s = .next t at h
  unfold execMtmsr at h
  split at h
  · cases h
    exact .inl ⟨(untouched_setMsr s _).advance, .inr ⟨rs, l, rfl⟩⟩
  · next hpr =>
    have hl : LacksPrivilege (.mtmsr rs l) s := by simpa [LacksPrivilege, State.privileged] using hpr
    exact (takesInterrupt_of_raisePrivileged hl h).keepsFrame

/-- A TLB instruction goes on only into the interrupt of problem state (R271 to R273). -/
theorem keepsFrame_of_tlb {i : Instr} {s t : State} (hl : s.pr = true → LacksPrivilege i s)
    (h : (if s.privileged then .refused (.noTlb s.pc) else s.raisePrivileged : Out) = .next t) : KeepsFrame i s t := by
  split at h
  · cases h
  · next hpr => exact (takesInterrupt_of_raisePrivileged (hl (by simpa [State.privileged] using hpr)) h).keepsFrame

theorem keepsFrame_twi {trapOn : BitVec 5} {ra : RegNum} {si : BitVec 16} {s t : State}
    (h : exec (.twi trapOn ra si) s = .next t) : KeepsFrame (.twi trapOn ra si) s t := by
  change execTwi trapOn ra si s = .next t at h
  unfold execTwi at h
  split at h
  · exact (takesInterrupt_of_raiseTrap h).keepsFrame
  · cases h
    exact TargetsOnly.keepsFrame (frame_advance s)

/-! ### All instructions -/

theorem exec_keepsFrame {i : Instr} {s t : State} (h : exec i s = .next t) : KeepsFrame i s t := by
  cases i with
  | cdtbcd _ ra => exact keepsFrame_of_next h rfl (frame_setX s ra _).advance
  | cbcdtd => exact (targetsOnly_cbcdtd h).keepsFrame
  | addg6s rt | addi rt => exact keepsFrame_of_next h rfl (frame_setX s rt _).advance
  | andiRc _ ra | andisRc _ ra => exact keepsFrame_of_next h rfl (frame_setX_recordIf s ra true _)
  | rlwinm _ ra _ _ _ rc | slw _ ra _ rc => exact keepsFrame_of_next h rfl (frame_setX_recordIf s ra rc _)
  | cmpi bf | cmp bf | cmpli bf | cmpl bf => exact keepsFrame_of_next h rfl (frame_setCompare s bf _ _).advance
  | crand bt => exact keepsFrame_of_next h rfl (frame_setCrBit s bt _).advance
  | mcrxrx bf => exact keepsFrame_of_next h rfl (frame_setCrField s bf _).advance
  | b _ _ lk => exact keepsFrame_of_next h rfl ((frame_linkIf s lk).branchTo _)
  | bc bo bi _ _ lk => exact keepsFrame_of_next h rfl (frame_branchCond s bo bi lk _)
  | bclr bo bi _ lk | bctar bo bi _ lk => exact keepsFrame_of_next h rfl (frame_branchCond s bo bi lk _)
  | bcctr => exact (targetsOnly_bcctr h).keepsFrame
  | lbzcix => exact keepsFrame_lbzcix h
  | lbz => exact TargetsOnly.keepsFrame (frame_of_loadZero h)
  | lhbrx | lwbrx | ldbrx => exact TargetsOnly.keepsFrame (frame_of_loadReversed h)
  | lq => exact (targetsOnly_lq h).keepsFrame
  | lmw => exact (targetsOnly_lmw h).keepsFrame
  | lswi => exact (targetsOnly_lswi h).keepsFrame
  | stb | std | sthbrx | stwbrx | stdbrx => exact TargetsOnly.keepsFrame (frame_of_storeValue h)
  | stq => exact (targetsOnly_stq h).keepsFrame
  | stmw => exact (targetsOnly_stmw h).keepsFrame
  | dcbz => exact (targetsOnly_dcbz h).keepsFrame
  | mtspr => exact keepsFrame_mtspr h
  | mfspr => exact keepsFrame_mfspr h
  | mtmsr => exact keepsFrame_mtmsr h
  | tlbie | tlbiel | tlbsync => exact keepsFrame_of_tlb id h
  | twi => exact keepsFrame_twi h
  | sc => exact (takesInterrupt_of_raiseSystemCall h).keepsFrame
  | setvl => cases h

/-- Settles O18: the case split over the instructions, each frame read off the updates its meaning makes. -/
theorem instructionFrames : Obligations.InstructionFrames := fun _ _ _ h => exec_keepsFrame h

end Sys2Proof.Machine
end

section
/-!
Fetching (O5) and placing one instruction (O7): a step from a fetch that answers a word, and what the placing of log entry
11 makes of each condition of the fetch.
-/
namespace Sys2Proof.Machine

/-- A step whose fetched word decodes is the instruction's meaning. -/
theorem step_of_fetch {s : State} {w : IWord} {i : Instr} (hf : s.fetch = .ok w) (hd : decode w = some i) :
    step s = exec i s := by
  simp only [step, hf, hd]

/-- Settles O5: the hypotheses are the conditions under which the fetch answers the word. -/
theorem stepRunsDecodedInstruction : Obligations.StepRunsDecodedInstruction := by
  intro s b0 b1 b2 b3 i _ hir haddrs hread hdec
  refine step_of_fetch (w := iwordOfBytes s.le b0 b1 b2 b3) ?_ hdec
  exact (fetch_eq_ok_iff s _).mpr
    ⟨hir, (admits_iff s _).mpr fun a ha => (haddrs a ha).1, fun a ha => (haddrs a ha).2, b0, b1, b2, b3, hread, rfl⟩

/-! ### The state after placing a word -/

/-- A word of the table that decodes from its bytes decodes (R116). -/
theorem decode_tableWord {nbits w : Nat} {i : Instr} (h : decodeTableWord nbits w = some i) :
    decode (tableWord nbits w) = some i := by
  obtain ⟨b0, b1, b2, b3, hbytes, hword⟩ := iwordOfBytes_iwordBytes false (tableWord nbits w)
  unfold decodeTableWord decodeBytes at h
  rw [hbytes] at h
  simp only [hword] at h
  cases hd : decode (tableWord nbits w) with
  | none => simp [hd] at h
  | some j => simpa [hd] using h

section Place

variable (s : State) (w : IWord)

/-- Placing clears IR and keeps every other bit of the MSR. -/
theorem getLsbD_placeWord_msr {k : Nat} (hk : k < 64) :
    (s.placeWord w).msr.getLsbD k = if k = 5 then false else s.msr.getLsbD k := by
  rw [placeWord_msr]
  cases hir : s.ir
  · by_cases h5 : k = 5
    · subst h5
      simpa [State.ir] using hir
    · simp [h5]
  · exact getLsbD_setBit false s.msr k (by decide) hk

theorem placeWord_ir : (s.placeWord w).ir = false := getLsbD_placeWord_msr s w (k := 5) (by decide)

theorem placeWord_le : (s.placeWord w).le = s.le := getLsbD_placeWord_msr s w (k := 0) (by decide)

/-- The placed word is fetched from the addresses it was put at. -/
theorem placeWord_fetchSpan : (s.placeWord w).fetchSpan = s.fetchSpan := by
  have hsf : (s.placeWord w).sf = s.sf := getLsbD_placeWord_msr s w (k := 63) (by decide)
  simp only [State.fetchSpan, State.span, State.byteAddr, State.truncate, hsf, placeWord_pc]

/-- A MemMap with some single addresses added holds those and what it held before (R64). -/
theorem admitted_append_single {addrs : List Nat} (haddrs : ∀ a ∈ addrs, a < 2 ^ 64) (map : List Region) (a : Nat) :
    admitted (addrs.map (fun a => ⟨a, a⟩) ++ map) a = true ↔ admitted map a = true ∨ a ∈ addrs := by
  have hsingle : ∀ b, Region.contains ⟨b, b⟩ a = true ↔ b = a := fun b => by
    simp only [Region.contains, Bool.and_eq_true, decide_eq_true_eq]
    omega
  simp only [admitted, Bool.and_eq_true, decide_eq_true_eq, List.any_append, List.any_map, Bool.or_eq_true,
    List.any_eq_true, Function.comp_apply, hsingle, exists_eq_right]
  constructor
  · rintro ⟨hlt, hmem | hmap⟩
    · exact .inr hmem
    · exact .inl ⟨hlt, hmap⟩
  · rintro (⟨hlt, hmap⟩ | hmem)
    · exact ⟨hlt, .inr hmap⟩
    · exact ⟨haddrs a hmem, .inl hmem⟩

/-- MemMap gains the addresses of the fetch that it lacks, and nothing else of the parameters changes. -/
theorem placeWord_memMap :
    ∃ memMap, (s.placeWord w).params = { s.params with memMap := memMap } ∧
      (∀ a, admitted memMap a = true ↔ admitted s.params.memMap a = true ∨ a ∈ s.fetchSpan) ∧
      ((∀ a ∈ s.fetchSpan, admitted s.params.memMap a = true) → memMap = s.params.memMap) := by
  rw [placeWord_params, ← admits_iff]
  by_cases h : s.admits s.fetchSpan = true
  · refine ⟨s.params.memMap, if_pos h, fun a => ⟨.inl, fun ha => ?_⟩, fun _ => rfl⟩
    exact ha.elim id ((admits_iff s _).mp h a)
  · exact ⟨_, if_neg h, admitted_append_single (fun a ha => mem_span_lt s _ _ a ha) _, fun hc => absurd hc h⟩

theorem placeWord_admits : (s.placeWord w).admits s.fetchSpan = true := by
  obtain ⟨memMap, hparams, hmap, -⟩ := placeWord_memMap s w
  rw [admits_iff, hparams]
  exact fun a ha => (hmap a).mpr (.inr ha)

theorem mem_placeWord_stored (a : Nat) : a ∈ (s.placeWord w).stored ↔ a ∈ s.stored ∧ a ∉ s.fetchSpan := by
  simp

/-- Only the addresses of the fetch are written. -/
theorem read_placeWord_mem_other {a : Nat} (ha : a ∉ s.fetchSpan) : (s.placeWord w).mem.read a = s.mem.read a := by
  rw [placeWord_mem]
  refine read_writeAll_other _ _ fun hmem => ha ?_
  obtain ⟨⟨b, c⟩, hcell, rfl⟩ := List.mem_map.mp hmem
  exact (List.of_mem_zip hcell).1

/-- The bytes of the word are read back at the addresses of the fetch. -/
theorem readAll_placeWord_mem : (s.placeWord w).mem.readAll s.fetchSpan = some (iwordBytes s.le w) := by
  obtain ⟨b0, b1, b2, b3, hbytes, -⟩ := iwordOfBytes_iwordBytes s.le w
  refine readAll_writeAll _ _ _ (span_nodup s _ _ (by decide)) ?_
  rw [hbytes, State.fetchSpan, span_length]
  rfl

/-- The next fetch after placing a word answers that word (R67). -/
theorem fetch_placeWord : (s.placeWord w).fetch = .ok w := by
  obtain ⟨b0, b1, b2, b3, hbytes, hword⟩ := iwordOfBytes_iwordBytes s.le w
  rw [fetch_eq_ok_iff, placeWord_fetchSpan, placeWord_le, readAll_placeWord_mem, hbytes]
  exact ⟨placeWord_ir s w, placeWord_admits s w, fun a ha hm => ((mem_placeWord_stored s w a).mp hm).2 ha,
    b0, b1, b2, b3, rfl, hword.symm⟩

end Place

/-- Settles O7: the fetch finds the placed word, and each field of the placed state is as its lemma above says. -/
theorem placedInstructionRuns : Obligations.PlacedInstructionRuns := by
  intro s nbits w i h
  exact ⟨step_of_fetch (fetch_placeWord s _) (decode_tableWord h), rfl, fun _ => rfl, fun _ => rfl,
    fun r => spr_of_fields rfl rfl rfl rfl rfl rfl r, fun _ => read_placeWord_mem_other s _,
    fun _ => getLsbD_placeWord_msr s _, mem_placeWord_stored s _, placeWord_memMap s _⟩

end Sys2Proof.Machine
end

section
/-!
`addi` (O33) and `rlwinm` (O35): the sum as an integer, the rotated word and its mask bit by bit, and CR0 as the record form
leaves it (R27), which every recording instruction shares.
-/
namespace Sys2Proof.Machine

/-! ### Arithmetic -/

/-- Adding a sign-extended immediate is adding its signed value, modulo 2^64 (R115, R181). -/
theorem toNat_add_sextImm (a : DWord) (imm : BitVec 16) :
    ((a + sextImm imm).toNat : Int) = ((a.toNat : Int) + imm.toInt) % 2 ^ 64 := by
  have himm : (sextImm imm).toInt = imm.toInt := BitVec.toInt_signExtend_of_le (by decide)
  have hsum := BitVec.toInt_add a (sextImm imm)
  have hnat := BitVec.toNat_add a (sextImm imm)
  rw [BitVec.toInt_eq_toNat_cond] at himm
  have := (sextImm imm).isLt
  rw [hnat]
  push_cast
  split at himm <;> omega

/-- `RA0(ra)` as a number: zero when the field is 0 (R12). -/
theorem ra0_toNat (s : State) (ra : RegNum) :
    ((s.ra0 ra).toNat : Int) = if ra = 0 then 0 else ((s.x ra).toNat : Int) := by
  unfold State.ra0
  split <;> simp

/-- Settles O33: the next state is the register write, whose frame and value are known. -/
theorem addImmediate : Obligations.AddImmediate := by
  intro rt ra si s
  refine ⟨(s.setX rt (s.ra0 ra + sextImm si)).advance, rfl, setX_nextPc s rt _, ?_, (frame_setX s rt _).advance⟩
  rw [advance_x, setX_x_same, toNat_add_sextImm, ra0_toNat]

/-! ### The record form -/

/-- Bit k of field f has place 3 - k in it (R25). -/
theorem crBit_append (s : State) (f : CrFieldNum) (k : BitVec 2) :
    s.crBit (f ++ k) = (s.crField f).getLsbD (3 - k.toNat) := by
  have hbit : ∀ (f : CrFieldNum) (k : BitVec 2), crFieldOf (f ++ k) = f ∧ crPlaceOf (f ++ k) = 3 - k.toNat := by decide
  rw [State.crBit, (hbit f k).1, (hbit f k).2]

/-- A field that holds a compare result shows it bit by bit (R26, R170). -/
theorem fieldIs_of_crField {t : State} {f : CrFieldNum} {lt gt so : Bool} (h : t.crField f = compareField lt gt so) :
    FieldIs t f lt (!lt && gt) (!lt && !gt) so := by
  obtain ⟨h3, h2, h1, h0⟩ := compareField_bits lt gt so
  simp only [FieldIs, crBit_append, h]
  exact ⟨h3, h2, h1, h0⟩

theorem lowWord_eq_setWidth (v : DWord) : lowWord v = v.setWidth 32 := (BitVec.setWidth_eq_extractLsb' (by decide)).symm

/-- CR0 recorded from the value that stands in the register afterwards (R27). -/
theorem recordsCr0_of_crField {s t : State} {ra : RegNum} {v : DWord} (hx : t.x ra = v)
    (hcr : t.crField 0 = compareField (decide (s.recordValue v < 0)) (decide (s.recordValue v > 0)) s.xerSO) :
    RecordsCr0 s t ra := by
  intro r hr
  have hval : s.recordValue v = r := by rw [State.recordValue, lowWord_eq_setWidth, hr, hx]
  rw [hval] at hcr
  obtain ⟨hlt, hgt, heq, hso⟩ := fieldIs_of_crField hcr
  refine ⟨hlt, hgt.trans ?_, heq.trans ?_, hso⟩
  · simp only [← decide_not, ← Bool.decide_and, decide_eq_decide]
    omega
  · simp only [← decide_not, ← Bool.decide_and, decide_eq_decide]
    omega

/-- A result written and recorded is recorded from the register that holds it. -/
theorem recordsCr0_setX (s : State) (ra : RegNum) (v : DWord) :
    RecordsCr0 s ((s.setX ra v).recordCr0 v).advance ra :=
  recordsCr0_of_crField (v := v) (by simp) (crField_setCrField_self (s.setX ra v) 0 _)

/-! ### Rotation and mask -/

theorem getLsbD_lowWord (v : DWord) (k : Nat) : (lowWord v).getLsbD k = (decide (k < 32) && v.getLsbD k) := by
  rw [lowWord_eq_setWidth, BitVec.getLsbD_setWidth]

/-- Rotation left counts the bits round (R11). -/
theorem getLsbD_rotl32 (w : BitVec 32) {n k : Nat} (hn : n < 32) (hk : k < 32) :
    (rotl32 w n).getLsbD k = w.getLsbD ((k + 32 - n) % 32) := by
  rw [rotl32, BitVec.getLsbD_or, BitVec.getLsbD_shiftLeft, BitVec.getLsbD_ushiftRight]
  by_cases h : k < n
  · have hsum : 32 - n + k = (k + 32 - n) % 32 := by omega
    simp [h, hsum]
  · have hdiff : (k + 32 - n) % 32 = k - n := by omega
    have hout : w.getLsbD (32 - n + k) = false := BitVec.getLsbD_of_ge _ _ (by omega)
    simp [h, hk, hdiff, hout]

/-- The mask from mb to me in IBM positions, bit by bit: between them, or outside when it wraps (R11). -/
theorem getLsbD_ibmMask {mb me k : Nat} (hmb : mb < 64) (hme : me < 64) (hk : k < 64) :
    (ibmMask mb me).getLsbD k =
      if mb ≤ me then decide (mb ≤ 63 - k) && decide (63 - k ≤ me)
      else decide (mb ≤ 63 - k) || decide (63 - k ≤ me) := by
  unfold ibmMask
  split
  · rw [getLsbD_fieldMask _ _ (by omega), ← Bool.decide_and, decide_eq_decide]
    omega
  · rw [BitVec.getLsbD_or, getLsbD_fieldMask _ _ (by omega), getLsbD_fieldMask _ _ (by omega), ← Bool.decide_or,
      ← Bool.decide_or, decide_eq_decide]
    omega

/-- The rotated word stands in both halves of the result, under the mask (R223). -/
theorem getLsbD_rotateAndMask (v : DWord) (sh mb me : BitVec 5) {k : Nat} (hk : k < 64) :
    (rotateAndMask v sh mb me).getLsbD k =
      (v.getLsbD ((k % 32 + 32 - sh.toNat) % 32) && (ibmMask (mb.toNat + 32) (me.toNat + 32)).getLsbD k) := by
  have hrot : ∀ j < 32, (rotl32 (lowWord v) sh.toNat).getLsbD j = v.getLsbD ((j + 32 - sh.toNat) % 32) := fun j hj => by
    rw [getLsbD_rotl32 _ sh.isLt hj, getLsbD_lowWord]
    simp [Nat.mod_lt]
  simp only [rotateAndMask, BitVec.getLsbD_and, BitVec.getLsbD_append]
  by_cases h : k < 32
  · simp only [h, if_true, hrot k h, Nat.mod_eq_of_lt h]
  · have hmod : k % 32 = k - 32 := by omega
    simp only [h, if_false, hrot (k - 32) (by omega), hmod]

/-- The low-order word of the result: the rotated bits that the mask covers. -/
theorem getLsbD_rotateAndMask_low (v : DWord) (sh mb me : BitVec 5) {k : Nat} (hk : k < 32) :
    (rotateAndMask v sh mb me).getLsbD k =
      (v.getLsbD ((k + 32 - sh.toNat) % 32) &&
        (if mb.toNat ≤ me.toNat then decide (mb.toNat ≤ 31 - k) && decide (31 - k ≤ me.toNat)
          else decide (mb.toNat ≤ 31 - k) || decide (31 - k ≤ me.toNat))) := by
  have hmb : mb.toNat + 32 ≤ 63 - k ↔ mb.toNat ≤ 31 - k := by omega
  have hme : 63 - k ≤ me.toNat + 32 ↔ 31 - k ≤ me.toNat := by omega
  rw [getLsbD_rotateAndMask _ _ _ _ (by omega), getLsbD_ibmMask (by omega) (by omega) (by omega), Nat.mod_eq_of_lt hk]
  simp only [hmb, hme, Nat.add_le_add_iff_right]

/-- The high-order word of the result: the rotated word when the mask wraps, zero when it does not. -/
theorem getLsbD_rotateAndMask_high (v : DWord) (sh mb me : BitVec 5) {k : Nat} (hk : k < 32) :
    (rotateAndMask v sh mb me).getLsbD (32 + k) =
      (v.getLsbD ((k + 32 - sh.toNat) % 32) && decide (me.toNat < mb.toNat)) := by
  have hmod : (32 + k) % 32 = k := by omega
  have hmask : (ibmMask (mb.toNat + 32) (me.toNat + 32)).getLsbD (32 + k) = decide (me.toNat < mb.toNat) := by
    rw [getLsbD_ibmMask (by omega) (by omega) (by omega)]
    by_cases h : mb.toNat ≤ me.toNat
    · have hout : ¬ mb.toNat + 32 ≤ 63 - (32 + k) := by omega
      simp [h, hout]
    · have hin : 63 - (32 + k) ≤ me.toNat + 32 := by omega
      simp [h, hin]
      omega
  rw [getLsbD_rotateAndMask _ _ _ _ (by omega), hmod, hmask]

/-- Settles O35: the next state writes and records the rotated word under the mask, whose bits are known. -/
theorem rotateUnderMask : Obligations.RotateUnderMask := by
  intro rs ra sh mb me rc s
  refine ⟨((s.setX ra (rotateAndMask (s.x rs) sh mb me)).recordIf rc (rotateAndMask (s.x rs) sh mb me)).advance, rfl,
    by simp, frame_setX_recordIf s ra rc _, ?_, fun k hk => ?_⟩
  · rintro rfl
    exact recordsCr0_setX s ra _
  · rw [advance_x, recordIf_x, setX_x_same]
    exact ⟨getLsbD_rotateAndMask_low _ _ _ _ hk, getLsbD_rotateAndMask_high _ _ _ _ hk⟩

end Sys2Proof.Machine
end

section
/-!
Start states (O8 to O10): what a list of registers leaves in each of them, and the invariant of the state they start.
-/
namespace Sys2Proof.Machine

/-! ### Listed registers -/

/-- `read` reads the register that the entries `entry v` list: it holds the value listed, and no other entry writes it. -/
structure ReadsEntry {α : Type} (read : State → α) (entry : α → RegisterValue) : Prop where
  listed : ∀ (s : State) v, read (s.withRegister (entry v)) = v
  other : ∀ (s : State) e, (∀ v, e ≠ entry v) → read (s.withRegister e) = read s

theorem readsEntry_x (r : RegNum) : ReadsEntry (·.x r) (.x r) where
  listed s v := setX_x_same s r v
  other s e he := by
    cases e with
    | x q v => exact setX_x_ne s v fun hq => he v (by rw [hq])
    | crf n v => exact setCrField_x s n v r
    | spr q v => exact setSpr_x s q v r

theorem readsEntry_crField (n : CrFieldNum) : ReadsEntry (·.crField n) (.crf n) where
  listed s v := crField_setCrField_self s n v
  other s e he := by
    cases e with
    | x r v => rfl
    | crf m v => exact crField_setCrField_ne s v fun hm => he v (by rw [hm])
    | spr r v => cases r <;> rfl

theorem readsEntry_spr (r : Spr) : ReadsEntry (·.spr r) (.spr r) where
  listed s v := setSpr_spr_same s r v
  other s e he := by
    cases e with
    | x q v => exact setX_spr s q v r
    | crf n v => exact setCrField_spr s n v r
    | spr q v => exact setSpr_spr_ne s v fun hq => he v (by rw [hq])

section Entries

variable {α : Type} {read : State → α} {entry : α → RegisterValue}

theorem ReadsEntry.foldl_unlisted (h : ReadsEntry read entry) {registers : List RegisterValue}
    (hnone : ∀ v, entry v ∉ registers) (s : State) : read (registers.foldl State.withRegister s) = read s := by
  induction registers generalizing s with
  | nil => rfl
  | cons e rest ih =>
    rw [List.foldl_cons, ih (fun v hv => hnone v (List.mem_cons_of_mem _ hv)),
      h.other s e fun v hv => hnone v (hv ▸ List.mem_cons_self)]

theorem ReadsEntry.foldl_listed (h : ReadsEntry read entry) {registers : List RegisterValue} {v : α}
    (hv : entry v ∈ registers) (hone : ∀ w, entry w ∈ registers → w = v) (s : State) :
    read (registers.foldl State.withRegister s) = v := by
  induction registers generalizing s with
  | nil => cases hv
  | cons e rest ih =>
    have hrest : ∀ w, entry w ∈ rest → w = v := fun w hw => hone w (List.mem_cons_of_mem _ hw)
    rw [List.foldl_cons]
    by_cases hlater : entry v ∈ rest
    · exact ih hlater hrest _
    · obtain rfl : entry v = e := (List.mem_cons.mp hv).resolve_right hlater
      rw [h.foldl_unlisted (fun w hw => hlater (hrest w hw ▸ hw)), h.listed]

end Entries

/-! ### The invariant at the start -/

/-- The invariant of a start state rests on what R351 asks of the parameters and of the listed bytes. -/
theorem inv_start {p : Params} (registers : List RegisterValue) {bytes : Memory} (hp : p.wf = true) (hwf : bytes.wf)
    (hexists : ∀ a, (bytes.read a).isSome → admitted p.memMap a = true) : Inv (State.start p registers bytes) := by
  simp only [Params.wf, Bool.and_eq_true, Bool.or_eq_true, beq_iff_eq, decide_eq_true_eq] at hp
  obtain ⟨⟨⟨hentry, hmode⟩, -⟩, -⟩ := hp
  exact
    { pcAligned := by rw [start_pc, hentry]
      pcInMode := fun hsf => by
        rw [State.sf, start_msr] at hsf
        rw [start_pc]
        exact hmode.resolve_left (by rw [hsf]; exact Bool.false_ne_true)
      memWf := by rwa [start_mem]
      memExists := by rwa [start_mem, start_params]
      marksOrdered := by rw [start_stored]; exact List.Pairwise.nil
      marksWritten := by simp }

/-- Settles O10: each register read off the list, and the invariant off the parameters and the listed bytes. -/
theorem startInvariant : Obligations.StartInvariant := by
  rintro p registers bytes s rfl hp hwf hexists
  exact ⟨inv_start registers hp hwf hexists, start_pc .., start_msr .., start_mem .., start_stored .., start_params ..,
    fun r v hv hone => (readsEntry_x r).foldl_listed hv hone _,
    fun n v hv hone => (readsEntry_crField n).foldl_listed hv hone _,
    fun r v hv hone => (readsEntry_spr r).foldl_listed hv hone _,
    fun r hnone => ((readsEntry_x r).foldl_unlisted hnone _).trans (startUnlisted_x p bytes r),
    fun n hnone => ((readsEntry_crField n).foldl_unlisted hnone _).trans (startUnlisted_crField p bytes n),
    fun r hnone => ((readsEntry_spr r).foldl_unlisted hnone _).trans (startUnlisted_spr p bytes r)⟩

/-- Settles O9: reset is a start state whose parameters R351 allows, with no byte listed. -/
theorem resetInvariant : Obligations.ResetInvariant := by
  rw [Obligations.ResetInvariant, reset_eq_start]
  exact inv_start [] (by decide) ⟨.nil, List.forall_mem_nil _⟩ fun _ ha => nomatch ha

/-- Settles O8: reset is the start state of its parameters with nothing listed. -/
theorem resetState : Obligations.ResetState := by
  refine ⟨rfl, rfl, rfl, rfl, fun _ => rfl, rfl, startUnlisted_x _ _, ?_, startUnlisted_spr _ _⟩
  simp only [State.cr, State.reset, startUnlisted_crField]
  rfl

end Sys2Proof.Machine
end

section
/-!
The Condition Register as one image (O32), and the instructions that write one bit or one field of it from a flag: `crand`
(O31) and `mcrxrx` (O57).
-/
namespace Sys2Proof.Machine

/-- Bit j of field n is bit 28 - 4n + j of the image (R25). -/
theorem getLsbD_cr (s : State) (n : CrFieldNum) {j : Nat} (hj : j < 4) :
    s.cr.getLsbD (28 - 4 * n.toNat + j) = (s.crField n).getLsbD j := by
  have hn : n = 0 ∨ n = 1 ∨ n = 2 ∨ n = 3 ∨ n = 4 ∨ n = 5 ∨ n = 6 ∨ n = 7 := by
    revert n
    decide
  simp only [State.cr, BitVec.getLsbD_append]
  rcases hn with rfl | rfl | rfl | rfl | rfl | rfl | rfl | rfl <;> interval_cases j <;> rfl

theorem extractLsb'_cr (s : State) (n : CrFieldNum) : s.cr.extractLsb' (28 - 4 * n.toNat) 4 = s.crField n := by
  refine BitVec.eq_of_getLsbD_eq fun j hj => ?_
  rw [BitVec.getLsbD_extractLsb', getLsbD_cr s n hj]
  simp [hj]

theorem crFieldOf_toNat (b : CrBitNum) : (crFieldOf b).toNat = b.toNat / 4 := by
  revert b
  decide

theorem crBit_eq_getLsbD_cr (s : State) (b : CrBitNum) : s.crBit b = s.cr.getLsbD (31 - b.toNat) := by
  have hplace : 28 - 4 * (crFieldOf b).toNat + crPlaceOf b = 31 - b.toNat := by
    rw [crFieldOf_toNat, crPlaceOf]
    omega
  rw [State.crBit, ← getLsbD_cr s _ (crPlaceOf_lt b), hplace]

/-- Settles O32: the fields are cut out of the image, and a bit is read in its field. -/
theorem conditionRegisterImage : Obligations.ConditionRegisterImage := by
  refine fun s => ⟨extractLsb'_cr s, fun b => ⟨crBit_eq_getLsbD_cr s b, fun n hn => ?_⟩⟩
  obtain rfl : crFieldOf b = n := BitVec.eq_of_toNat_eq ((crFieldOf_toNat b).trans hn.symm)
  rfl

/-- Settles O31: the next state is the write of one bit, whose value and frame are known. -/
theorem crandWritesOneBit : Obligations.CrandWritesOneBit := by
  intro bt ba bb s
  refine ⟨(s.setCrBit bt (s.crBit ba && s.crBit bb)).advance, rfl, setCrBit_nextPc s bt _, ?_,
    (frame_setCrBit s bt _).advance⟩
  rw [advance_crBit, crBit_setCrBit, if_pos rfl]

/-- A field made of four bits shows them bit by bit, the first the most significant (R25). -/
theorem fieldIs_setCrField_ofBool (s : State) (f : CrFieldNum) (b0 b1 b2 b3 : Bool) :
    FieldIs (s.setCrField f (BitVec.ofBool b0 ++ BitVec.ofBool b1 ++ BitVec.ofBool b2 ++ BitVec.ofBool b3)) f
      b0 b1 b2 b3 := by
  simp only [FieldIs, crBit_append, crField_setCrField_self]
  revert b0 b1 b2 b3
  decide

/-- Settles O57: the next state is the write of the field that holds the four flags. -/
theorem xerFlagsCopied : Obligations.XerFlagsCopied := by
  intro bf s
  refine ⟨(s.setCrField bf s.xerExtended).advance, rfl, setCrField_nextPc s bf _, ?_, (frame_setCrField s bf _).advance⟩
  simp only [FieldIs, advance_crBit]
  exact fieldIs_setCrField_ofBool s bf s.xerOV s.xerOV32 s.xerCA s.xerCA32

end Sys2Proof.Machine
end

section
/-!
The recording instructions `andi.` and `andis.` (O34) and `slw` (O36): the value each writes, bit by bit or as a number.
-/
namespace Sys2Proof.Machine

theorem getLsbD_zextImm (ui : BitVec 16) {k : Nat} (hk : k < 64) :
    (zextImm ui).getLsbD k = (decide (k < 16) && ui.getLsbD k) := by
  rw [zextImm, BitVec.getLsbD_setWidth, decide_eq_true hk, Bool.true_and]
  by_cases h : k < 16
  · simp [h]
  · simp [h, BitVec.getLsbD_of_ge ui k (Nat.le_of_not_lt h)]

/-- The immediate of `andis.` stands in bits 31:16 (R213). -/
theorem getLsbD_zextImmShifted (ui : BitVec 16) {k : Nat} (hk : k < 64) :
    (zextImmShifted ui).getLsbD k = (decide (16 ≤ k) && decide (k < 32) && ui.getLsbD (k - 16)) := by
  rw [zextImmShifted, BitVec.getLsbD_setWidth, BitVec.getLsbD_append, decide_eq_true hk, Bool.true_and]
  by_cases hlow : k < 16
  · simp [hlow, Nat.not_le.mpr hlow]
  · by_cases hhigh : k < 32
    · simp [hlow, hhigh, Nat.le_of_not_lt hlow]
    · simp [hlow, hhigh, BitVec.getLsbD_of_ge ui (k - 16) (by omega)]

/-- Settles O34: either form writes and records the AND with its immediate, whose bits are known. -/
theorem logicalImmediates : Obligations.LogicalImmediates := by
  intro rs ra ui s i shift hi
  obtain ⟨imm, hexec, hbits⟩ : ∃ imm : DWord,
      exec i s = .next ((s.setX ra (s.x rs &&& imm)).recordCr0 (s.x rs &&& imm)).advance ∧
      ∀ k < 64, imm.getLsbD k = (decide (shift ≤ k) && decide (k < shift + 16) && ui.getLsbD (k - shift)) := by
    rcases hi with ⟨rfl, rfl⟩ | ⟨rfl, rfl⟩
    · exact ⟨zextImm ui, rfl, fun k hk => by simp [getLsbD_zextImm ui hk]⟩
    · exact ⟨zextImmShifted ui, rfl, fun k hk => getLsbD_zextImmShifted ui hk⟩
  refine ⟨_, hexec, by simp, frame_setX_recordIf s ra true _, recordsCr0_setX s ra _, fun k hk => ?_⟩
  rw [advance_x, recordCr0_x, setX_x_same, BitVec.getLsbD_and, hbits k hk, Bool.and_left_comm, ← Bool.and_assoc]

/-- The result of `slw` as a number: a product modulo 2^32, or zero (R225). -/
theorem shiftLeftWord_toNat (v amount : DWord) :
    (shiftLeftWord v amount).toNat =
      if 31 < amount.toNat % 64 then 0 else v.toNat % 2 ^ 32 * 2 ^ (amount.toNat % 64) % 2 ^ 32 := by
  have hn : (amount.extractLsb' 0 6).toNat = amount.toNat % 64 := by simp
  have hlow : (lowWord v).toNat = v.toNat % 2 ^ 32 := by rw [lowWord_eq_setWidth, BitVec.toNat_setWidth]
  simp only [shiftLeftWord, hn, gt_iff_lt]
  split
  · rfl
  · rw [BitVec.toNat_setWidth, BitVec.toNat_shiftLeft, hlow, Nat.shiftLeft_eq]
    omega

end Sys2Proof.Machine

namespace Sys2Proof
open Machine

/-- Settles O36: the next state writes and records the shifted word, whose value is known. It stands outside the model's
namespace, where the function of that name is. -/
theorem shiftLeftWord : Obligations.ShiftLeftWord := by
  intro rs ra rb rc s
  refine ⟨((s.setX ra (Machine.shiftLeftWord (s.x rs) (s.x rb))).recordIf rc _).advance, rfl, by simp,
    frame_setX_recordIf s ra rc _, ?_, ?_⟩
  · rintro rfl
    exact recordsCr0_setX s ra _
  · rw [advance_x, recordIf_x, setX_x_same, shiftLeftWord_toNat]

end Sys2Proof
end

section
/-!
The special purpose registers: the moves to and from them (O55), and which instructions write each of them, read off the
frame of every instruction (O17).
-/
namespace Sys2Proof.Machine

/-- The number of each special purpose register (R40). -/
def sprNumber : Spr → BitVec 10
  | .xer => 1
  | .lr => 8
  | .ctr => 9
  | .srr0 => 26
  | .srr1 => 27
  | .tar => 815

theorem sprOf_eq_some_iff (n : BitVec 10) (r : Spr) : sprOf n = some r ↔ n = sprNumber r := by
  constructor
  · intro h
    refine BitVec.eq_of_toNat_eq ?_
    unfold sprOf at h
    split at h <;> cases h <;> assumption
  · rintro rfl
    cases r <;> rfl

/-- A defined register that the privilege state permits is reached (R264). -/
theorem withSpr_of_permitted {s : State} {n : BitVec 10} {r : Spr} (k : Spr → Out) (hn : sprOf n = some r)
    (hp : sprPrivileged r = true → s.pr = false) : s.withSpr n k = k r := by
  have hnostop : (sprPrivileged r && s.pr) = false := by
    cases hr : sprPrivileged r
    · rfl
    · exact hp hr
  simp only [State.withSpr, hn, hnostop, Bool.false_eq_true, if_false]

/-- A privileged register in problem state raises PrivilegedInstruction (R264, R320). -/
theorem withSpr_of_privileged {s : State} {n : BitVec 10} {r : Spr} (k : Spr → Out) (hn : sprOf n = some r)
    (hp : sprPrivileged r = true) (hpr : s.pr = true) : s.withSpr n k = s.raisePrivileged := by
  simp only [State.withSpr, hn, hp, hpr, Bool.and_self, if_true]

/-- The registers confined to privileged state are SRR0 and SRR1 (R40, R321). -/
theorem sprPrivileged_iff (r : Spr) : sprPrivileged r = true ↔ r = .srr0 ∨ r = .srr1 := by cases r <;> decide

/-- Settles O55: each of the six numbers names its register, which a permitted move reaches. -/
theorem sprMoves : Obligations.SprMoves := by
  intro n r x s hmem hpriv
  have hn : sprOf n = some r := by
    rw [sprOf_eq_some_iff]
    simp only [List.mem_cons, Prod.mk.injEq, List.not_mem_nil, or_false] at hmem
    rcases hmem with ⟨rfl, rfl⟩ | ⟨rfl, rfl⟩ | ⟨rfl, rfl⟩ | ⟨rfl, rfl⟩ | ⟨rfl, rfl⟩ | ⟨rfl, rfl⟩ <;> rfl
  have hpermitted : sprPrivileged r = true → s.pr = false := fun hr => hpriv ((sprPrivileged_iff r).mp hr)
  exact
    ⟨⟨(s.setSpr r (s.x x)).advance, withSpr_of_permitted _ hn hpermitted, setSpr_nextPc s r _,
        by rw [advance_spr, setSpr_spr_same], (frame_setSpr s r _).advance⟩,
      ⟨(s.setX x (s.spr r)).advance, withSpr_of_permitted _ hn hpermitted, setX_nextPc s x _,
        by rw [advance_x, setX_x_same], (frame_setX s x _).advance⟩⟩

/-! ### Writers -/

/-- A branch with LK = 1 (R159). -/
abbrev LinkingBranch (i : Instr) : Prop :=
  (∃ li aa, i = .b li aa true) ∨ (∃ bo bi bd aa, i = .bc bo bi bd aa true) ∨
    (∃ bo bi bh, i = .bclr bo bi bh true ∨ i = .bcctr bo bi bh true ∨ i = .bctar bo bi bh true)

/-- A conditional branch with `BO[2] = 0`, in a form that decrements CTR (R154, R157). -/
abbrev DecrementingBranch (i : Instr) : Prop :=
  (∃ bo bi bd aa lk, bo.getLsbD 2 = false ∧ i = .bc bo bi bd aa lk) ∨
    (∃ bo bi bh lk, bo.getLsbD 2 = false ∧ (i = .bclr bo bi bh lk ∨ i = .bctar bo bi bh lk))

/-- The instruction writes the register without an interrupt: `mtspr` by its number, or a branch. -/
inductive Writes (i : Instr) : Spr → Prop where
  | move {rs : RegNum} {n : BitVec 10} {r : Spr} (h : i = .mtspr rs n) (hn : sprOf n = some r) : Writes i r
  | link (h : LinkingBranch i) : Writes i .lr
  | count (h : DecrementingBranch i) : Writes i .ctr

theorem mem_linkSpr_iff (r : Spr) (lk : Bool) : r ∈ linkSpr lk ↔ r = .lr ∧ lk = true := by
  cases lk <;> simp [linkSpr]

theorem mem_ctrSpr_iff (r : Spr) (bo : BitVec 5) : r ∈ ctrSpr bo ↔ r = .ctr ∧ bo.getLsbD 2 = false := by
  unfold ctrSpr
  cases bo.getLsbD 2 <;> simp

/-- A conditional branch writes CTR or LR, by its BO and its LK. -/
theorem writes_of_mem_branch {i : Instr} {r : Spr} {bo : BitVec 5} {lk : Bool} (h : r ∈ ctrSpr bo ++ linkSpr lk)
    (hcount : bo.getLsbD 2 = false → DecrementingBranch i) (hlink : lk = true → LinkingBranch i) : Writes i r := by
  rcases List.mem_append.mp h with h | h
  · obtain ⟨rfl, hbo⟩ := (mem_ctrSpr_iff r bo).mp h
    exact .count (hcount hbo)
  · obtain ⟨rfl, hlk⟩ := (mem_linkSpr_iff r lk).mp h
    exact .link (hlink hlk)

/-- A target of an instruction is a register it writes in one of the three ways. -/
theorem writes_of_mem_sprTargets {i : Instr} {r : Spr} (h : r ∈ sprTargets i) : Writes i r := by
  cases i with
  | mtspr rs n => exact .move rfl (Option.mem_toList.mp h)
  | b li aa lk =>
    obtain ⟨rfl, rfl⟩ := (mem_linkSpr_iff r lk).mp h
    exact .link (.inl ⟨li, aa, rfl⟩)
  | bcctr bo bi bh lk =>
    obtain ⟨rfl, rfl⟩ := (mem_linkSpr_iff r lk).mp h
    exact .link (.inr (.inr ⟨bo, bi, bh, .inr (.inl rfl)⟩))
  | bc bo bi bd aa lk =>
    exact writes_of_mem_branch h (fun hbo => .inl ⟨bo, bi, bd, aa, lk, hbo, rfl⟩)
      fun hlk => .inr (.inl ⟨bo, bi, bd, aa, by rw [hlk]⟩)
  | bclr bo bi bh lk =>
    exact writes_of_mem_branch h (fun hbo => .inr ⟨bo, bi, bh, lk, hbo, .inl rfl⟩)
      fun hlk => .inr (.inr ⟨bo, bi, bh, .inl (by rw [hlk])⟩)
  | bctar bo bi bh lk =>
    exact writes_of_mem_branch h (fun hbo => .inr ⟨bo, bi, bh, lk, hbo, .inr rfl⟩)
      fun hlk => .inr (.inr ⟨bo, bi, bh, .inr (.inr (by rw [hlk]))⟩)
  | _ => cases h

/-- An interrupt keeps every special purpose register but SRR0 and SRR1 (R306). -/
theorem TakesInterrupt.spr {i : Instr} {s t : State} (h : TakesInterrupt i s t) {r : Spr} (h0 : r ≠ .srr0)
    (h1 : r ≠ .srr1) : t.spr r = s.spr r := by
  cases h with
  | trap _ _ _ _ _ entry | systemCall _ _ _ entry | privilege _ _ entry => exact entry.rest.spr r (by simp [h0, h1])

/-- A register that changes has been written, or the instruction has taken an interrupt. -/
theorem writes_or_takesInterrupt {i : Instr} {s t : State} (h : exec i s = .next t) {r : Spr} (hr : t.spr r ≠ s.spr r) :
    Writes i r ∨ TakesInterrupt i s t := by
  obtain ⟨⟨hkept, -⟩⟩ | htaken := exec_keepsFrame h
  · exact .inl (writes_of_mem_sprTargets (Decidable.byContradiction fun hmem => hr (hkept.spr r hmem)))
  · exact .inr htaken

/-- A register other than SRR0 and SRR1 changes only where an instruction writes it. -/
theorem writes_of_spr_ne {i : Instr} {s t : State} (h : exec i s = .next t) {r : Spr} (h0 : r ≠ .srr0) (h1 : r ≠ .srr1)
    (hr : t.spr r ≠ s.spr r) : Writes i r :=
  (writes_or_takesInterrupt h hr).resolve_right fun htaken => hr (htaken.spr h0 h1)

/-- The three ways, the move with the number of its register. -/
theorem Writes.move_or_link_or_count {i : Instr} {r : Spr} (h : Writes i r) :
    (∃ rs, i = .mtspr rs (sprNumber r)) ∨ (r = .lr ∧ LinkingBranch i) ∨ (r = .ctr ∧ DecrementingBranch i) := by
  cases h with
  | move h hn => exact .inl ⟨_, (sprOf_eq_some_iff _ r).mp hn ▸ h⟩
  | link h => exact .inr (.inl ⟨rfl, h⟩)
  | count h => exact .inr (.inr ⟨rfl, h⟩)

/-- `mtspr` of a privileged register in problem state takes the interrupt of R264. -/
theorem takesInterrupt_of_mtspr_problem {s t : State} {rs : RegNum} {r : Spr} (hp : sprPrivileged r = true)
    (hpr : s.pr = true) (h : exec (.mtspr rs (sprNumber r)) s = .next t) :
    TakesInterrupt (.mtspr rs (sprNumber r)) s t := by
  have hn : sprOf (sprNumber r) = some r := (sprOf_eq_some_iff _ r).mpr rfl
  have hraise : exec (.mtspr rs (sprNumber r)) s = s.raisePrivileged := withSpr_of_privileged _ hn hp hpr
  exact takesInterrupt_of_raisePrivileged ⟨number_of_sprPrivileged hn hp, hpr⟩ (hraise ▸ h)

/-- SRR0 and SRR1 change by `mtspr` in privileged state or by an interrupt (R41, R306). -/
theorem mtspr_or_takesInterrupt_of_spr_ne {i : Instr} {s t : State} (h : exec i s = .next t) {r : Spr}
    (hp : sprPrivileged r = true) (hr : t.spr r ≠ s.spr r) :
    (s.pr = false ∧ ∃ rs, i = .mtspr rs (sprNumber r)) ∨ TakesInterrupt i s t := by
  obtain hw | htaken := writes_or_takesInterrupt h hr
  · obtain ⟨rs, rfl⟩ | ⟨rfl, -⟩ | ⟨rfl, -⟩ := hw.move_or_link_or_count
    · cases hpr : s.pr
      · exact .inl ⟨rfl, rs, rfl⟩
      · exact .inr (takesInterrupt_of_mtspr_problem hp hpr h)
    · cases hp
    · cases hp
  · exact .inr htaken

/-- Settles O17: what changes is a target of the instruction or of an interrupt, and the targets have these writers. -/
theorem sprWriters : Obligations.SprWriters := by
  intro i s t h
  have hmove : ∀ r : Spr, Writes i r → r ≠ .lr → r ≠ .ctr → ∃ rs, i = .mtspr rs (sprNumber r) := fun r hw hl hc =>
    hw.move_or_link_or_count.resolve_right (by simp [hl, hc])
  refine ⟨fun hx => ?_, fun ht => ?_, fun hl => ?_, fun hc => ?_, fun h01 => ?_⟩
  · exact hmove .xer (writes_of_spr_ne h (by decide) (by decide) hx) (by decide) (by decide)
  · exact hmove .tar (writes_of_spr_ne h (by decide) (by decide) ht) (by decide) (by decide)
  · obtain hw | ⟨-, hw⟩ | ⟨hne, -⟩ := (writes_of_spr_ne (r := .lr) h (by decide) (by decide) hl).move_or_link_or_count
    · exact .inl hw
    · exact .inr hw
    · cases hne
  · obtain hw | ⟨hne, -⟩ | ⟨-, hw⟩ := (writes_of_spr_ne (r := .ctr) h (by decide) (by decide) hc).move_or_link_or_count
    · exact .inl hw
    · cases hne
    · exact .inr hw
  · obtain h0 | h1 := h01
    · exact (mtspr_or_takesInterrupt_of_spr_ne (r := .srr0) h rfl h0).imp_left fun ⟨hpr, rs, hi⟩ => ⟨hpr, rs, .inl hi⟩
    · exact (mtspr_or_takesInterrupt_of_spr_ne (r := .srr1) h rfl h1).imp_left fun ⟨hpr, rs, hi⟩ => ⟨hpr, rs, .inr hi⟩

end Sys2Proof.Machine
end

section
/-!
What an instruction can do to `pc` and to storage: the four ways one of them ends, and the invariant (O11) and the next
instruction (O13) read off them.
-/
namespace Sys2Proof.Machine

/-- From s to u only registers are written: `pc`, the computation mode, storage, its marks and the parameters are kept. -/
structure RegistersOnly (s u : State) : Prop where
  pc : u.pc = s.pc
  sf : u.sf = s.sf
  mem : u.mem = s.mem
  stored : u.stored = s.stored
  params : u.params = s.params

/-- The ways an instruction ends that answers a next state: past register writes at the next instruction or, for a branch,
at a target; past a store of bytes that exist; or in its interrupt, which keeps storage. -/
inductive Ends (i : Instr) (s : State) : State → Prop where
  | onward {u : State} (regs : RegistersOnly s u) : Ends i s u.advance
  | branch {u : State} (isBranch : IsBranch i) (regs : RegistersOnly s u) (a : Addr) : Ends i s (u.branchTo a)
  | store {cells : List Host.Cell} (exist : ∀ c ∈ cells, admitted s.params.memMap c.1 = true) :
      Ends i s (s.writeCells cells).advance
  | interrupt {t : State} (taken : TakesInterrupt i s t) (mem : t.mem = s.mem) (stored : t.stored = s.stored) : Ends i s t

/-! ### Register writes -/

theorem RegistersOnly.refl (s : State) : RegistersOnly s s := ⟨rfl, rfl, rfl, rfl, rfl⟩

theorem RegistersOnly.trans {s u v : State} (hsu : RegistersOnly s u) (huv : RegistersOnly u v) : RegistersOnly s v :=
  ⟨huv.pc.trans hsu.pc, huv.sf.trans hsu.sf, huv.mem.trans hsu.mem, huv.stored.trans hsu.stored,
    huv.params.trans hsu.params⟩

theorem registersOnly_setX (s : State) (r : RegNum) (v : DWord) : RegistersOnly s (s.setX r v) :=
  ⟨rfl, rfl, rfl, rfl, rfl⟩

theorem registersOnly_setCrField (s : State) (n : CrFieldNum) (v : BitVec 4) : RegistersOnly s (s.setCrField n v) :=
  ⟨rfl, rfl, rfl, rfl, rfl⟩

theorem registersOnly_recordIf (s : State) (rc : Bool) (v : DWord) : RegistersOnly s (s.recordIf rc v) := by
  cases rc
  · exact .refl s
  · exact registersOnly_setCrField s 0 _

theorem registersOnly_setX_recordIf (s : State) (ra : RegNum) (rc : Bool) (v : DWord) :
    RegistersOnly s ((s.setX ra v).recordIf rc v) :=
  (registersOnly_setX s ra v).trans (registersOnly_recordIf _ rc v)

theorem registersOnly_setSpr (s : State) (r : Spr) (v : DWord) : RegistersOnly s (s.setSpr r v) :=
  ⟨setSpr_pc s r v, sf_of_msr (setSpr_msr s r v), setSpr_mem s r v, setSpr_stored s r v, setSpr_params s r v⟩

theorem registersOnly_linkIf (s : State) (lk : Bool) : RegistersOnly s (s.linkIf lk) := by
  cases lk
  · exact .refl s
  · exact registersOnly_setSpr s .lr _

theorem registersOnly_setWords (s : State) (rt : RegNum) (n : Nat) (bs : List Byte) :
    RegistersOnly s (s.setWords rt n bs) :=
  setWords_induction (fun u r v hu => hu.trans (registersOnly_setX u r v)) s rt n bs (.refl s)

/-- `mtmsr` never writes the computation mode (R267). -/
theorem registersOnly_mtmsr (s : State) (l : Bool) (v : DWord) :
    RegistersOnly s { s with msr := if l then mtmsrEeRi s.msr v else mtmsrAll s.msr v } where
  pc := rfl
  sf := by
    cases l
    · simp [State.sf, mtmsrAll, getLsbD_setBit, getLsbD_copyField, -BitVec.getLsbD_eq_getElem]
    · simp [State.sf, mtmsrEeRi, getLsbD_setBit, -BitVec.getLsbD_eq_getElem]
  mem := rfl
  stored := rfl
  params := rfl

/-! ### How the shared operations end -/

section Shared

variable {i : Instr} {s t : State}

/-- An instruction that answers the next state u ends as u does. -/
theorem Ends.of_next {u : State} (h : exec i s = .next t) (hu : exec i s = .next u) (he : Ends i s u) : Ends i s t := by
  rw [h] at hu
  cases hu
  exact he

/-- An instruction that goes on has not met its refusal. -/
theorem next_of_refusal_or {c : Prop} [Decidable c] {r : Refusal} {o : Out}
    (h : (if c then .refused r else o : Out) = .next t) : o = .next t := by
  split at h
  · cases h
  · exact h

theorem ends_branchCond (hb : IsBranch i) (bo : BitVec 5) (bi : CrBitNum) (lk : Bool) (a : Addr) :
    Ends i s (s.branchCond bo bi lk a) := by
  have hregs : RegistersOnly s { s.linkIf lk with ctr := s.ctrAfter bo } :=
    (registersOnly_linkIf s lk).trans (registersOnly_setSpr (s.linkIf lk) .ctr (s.ctrAfter bo))
  unfold State.branchCond
  cases s.branchOk bo bi
  · exact .onward hregs
  · exact .branch hb hregs a

theorem ends_of_load {ea : Addr} {aligned : Bool} {addrs : List Nat} {k : List Byte → State}
    (hk : ∀ bs, RegistersOnly s (k bs)) (h : s.load ea aligned addrs k = .next t) : Ends i s t := by
  obtain ⟨-, bs, -, rfl⟩ := (load_eq_next_iff s ea aligned addrs k t).mp h
  exact .onward (hk bs)

theorem ends_of_store {ea : Addr} {aligned : Bool} {addrs : List Nat} {bs : List Byte}
    (h : s.store ea aligned addrs bs = .next t) : Ends i s t := by
  obtain ⟨⟨-, -, hadmits⟩, rfl⟩ := (store_eq_next_iff s ea aligned addrs bs t).mp h
  exact .store fun c hc => (admits_iff s addrs).mp hadmits c.1 (List.of_mem_zip hc).1

theorem ends_of_raisePrivileged (hl : LacksPrivilege i s) (h : s.raisePrivileged = .next t) : Ends i s t := by
  obtain ⟨-, ht⟩ := (raisePrivileged_eq_next_iff s t).mp h
  exact .interrupt (takesInterrupt_of_raisePrivileged hl h) (by rw [ht, interrupt_mem]) (by rw [ht, interrupt_stored])

/-- A privileged instruction raises where it is not permitted, and otherwise ends as its meaning does. -/
theorem ends_of_permitted_or {c : Prop} [Decidable c] {o : Out} (hl : ¬ c → LacksPrivilege i s)
    (ho : o = .next t → Ends i s t) (h : (if c then o else s.raisePrivileged) = .next t) : Ends i s t := by
  split at h
  · exact ho h
  · next hc => exact ends_of_raisePrivileged (hl hc) h

theorem ends_of_withSpr {n : BitVec 10} {k : Spr → Out} (hl : (n = 26 ∨ n = 27) ∧ s.pr = true → LacksPrivilege i s)
    (hk : ∀ r, k r = .next t → Ends i s t) (h : s.withSpr n k = .next t) : Ends i s t := by
  obtain ⟨r, hn, ⟨hp, hpr, hraise⟩ | ⟨-, hreach⟩⟩ := (withSpr_eq_next_iff s t n k).mp h
  · exact ends_of_raisePrivileged (hl ⟨number_of_sprPrivileged hn hp, hpr⟩) hraise
  · exact hk r hreach

end Shared

/-! ### How every instruction ends -/

theorem pr_of_not_privileged {s : State} (h : ¬ s.privileged = true) : s.pr = true := by
  simpa [State.privileged] using h

theorem lacksPrivilege_lbzcix {s : State} {rt ra rb : RegNum} (h : ¬ s.hypervisor = true) :
    LacksPrivilege (.lbzcix rt ra rb) s := by
  simpa [LacksPrivilege, State.hypervisor] using h

theorem ends_twi {trapOn : BitVec 5} {ra : RegNum} {si : BitVec 16} {s t : State}
    (h : exec (.twi trapOn ra si) s = .next t) : Ends (.twi trapOn ra si) s t := by
  change execTwi trapOn ra si s = .next t at h
  unfold execTwi at h
  split at h
  · obtain ⟨-, ht⟩ := (raiseTrap_eq_next_iff s t).mp h
    exact .interrupt (takesInterrupt_of_raiseTrap h) (by rw [ht, interrupt_mem]) (by rw [ht, interrupt_stored])
  · cases h
    exact .onward (.refl s)

theorem ends_sc {lev : BitVec 7} {s t : State} (h : exec (.sc lev) s = .next t) : Ends (.sc lev) s t := by
  obtain ⟨-, ht⟩ := (raiseSystemCall_eq_next_iff s t lev).mp h
  exact .interrupt (takesInterrupt_of_raiseSystemCall h) (by rw [ht, systemCallEntry_mem])
    (by rw [ht, systemCallEntry_stored])

theorem ends_cbcdtd {rs ra : RegNum} {s t : State} (h : exec (.cbcdtd rs ra) s = .next t) : Ends (.cbcdtd rs ra) s t := by
  change execCbcdtd rs ra s = .next t at h
  simp only [execCbcdtd] at h
  split at h
  · cases h
    exact .onward (registersOnly_setX s ra _)
  · cases h

theorem exec_ends {i : Instr} {s t : State} (h : exec i s = .next t) : Ends i s t := by
  cases i with
  | cdtbcd _ ra => exact .of_next h rfl (.onward (registersOnly_setX s ra _))
  | cbcdtd => exact ends_cbcdtd h
  | addg6s rt | addi rt => exact .of_next h rfl (.onward (registersOnly_setX s rt _))
  | andiRc _ ra | andisRc _ ra => exact .of_next h rfl (.onward (registersOnly_setX_recordIf s ra true _))
  | rlwinm _ ra _ _ _ rc | slw _ ra _ rc => exact .of_next h rfl (.onward (registersOnly_setX_recordIf s ra rc _))
  | cmpi bf | cmp bf | cmpli bf | cmpl bf | mcrxrx bf =>
    exact .of_next h rfl (.onward (registersOnly_setCrField s bf _))
  | crand bt => exact .of_next h rfl (.onward (registersOnly_setCrField s (crFieldOf bt) _))
  | b _ _ lk => exact .of_next h rfl (.branch (by trivial) (registersOnly_linkIf s lk) _)
  | bc bo bi _ _ lk => exact .of_next h rfl (ends_branchCond (by trivial) bo bi lk _)
  | bclr bo bi _ lk | bctar bo bi _ lk => exact .of_next h rfl (ends_branchCond (by trivial) bo bi lk _)
  | bcctr bo bi _ lk =>
    cases next_of_refusal_or h
    exact ends_branchCond (by trivial) bo bi lk _
  | lbzcix rt => exact ends_of_permitted_or lacksPrivilege_lbzcix (ends_of_load fun _ => registersOnly_setX s rt _) h
  | lbz rt | lhbrx rt | lwbrx rt | ldbrx rt => exact ends_of_load (fun _ => registersOnly_setX s rt _) h
  | lq rtp =>
    exact ends_of_load (fun _ => (registersOnly_setX s rtp _).trans (registersOnly_setX _ (rtp + 1) _))
      (next_of_refusal_or h)
  | lmw rt | lswi rt => exact ends_of_load (fun bs => registersOnly_setWords s rt _ bs) (next_of_refusal_or h)
  | stb | std | sthbrx | stwbrx | stdbrx | stmw | dcbz => exact ends_of_store h
  | stq => exact ends_of_store (next_of_refusal_or h)
  | mtspr =>
    refine ends_of_withSpr id (fun r hreach => ?_) h
    cases hreach
    exact .onward (registersOnly_setSpr s r _)
  | mfspr rt =>
    refine ends_of_withSpr id (fun r hreach => ?_) h
    cases hreach
    exact .onward (registersOnly_setX s rt _)
  | mtmsr rs l =>
    refine ends_of_permitted_or pr_of_not_privileged (fun hwrite => ?_) h
    cases hwrite
    exact .onward (registersOnly_mtmsr s l _)
  | tlbie | tlbiel | tlbsync =>
    exact ends_of_permitted_or (o := .refused (.noTlb s.pc)) pr_of_not_privileged (fun hrefused => nomatch hrefused) h
  | twi => exact ends_twi h
  | sc => exact ends_sc h
  | setvl => cases h

/-! ### The next instruction -/

/-- `NextPC` as a number (R31). -/
theorem nextPc_toNat (s : State) :
    s.nextPc.toNat = (s.pc.toNat + 4) % (if s.sf then 2 ^ 64 else 2 ^ 32) := by
  have hsum : s.nextPc.toNat = _ := byteAddr_toNat s s.pc 4
  cases hsf : s.sf <;> simpa [hsf] using hsum

theorem RegistersOnly.nextPc {s u : State} (h : RegistersOnly s u) : u.nextPc = s.nextPc := by
  refine BitVec.eq_of_toNat_eq ?_
  rw [nextPc_toNat, nextPc_toNat, h.pc, h.sf]

/-- Settles O13: the way each instruction ends says where `pc` stands. -/
theorem nextInstructionFollows : Obligations.NextInstructionFollows := by
  refine ⟨nextPc_toNat, fun i s t hnb h => ?_⟩
  cases exec_ends h with
  | onward regs => exact .inl regs.nextPc
  | branch isBranch => exact absurd isBranch hnb
  | store => exact .inl (writeCells_nextPc s _)
  | interrupt taken => exact .inr taken

/-! ### The invariant -/

theorem Inv.registersOnly {s u : State} (hs : Inv s) (h : RegistersOnly s u) : Inv u where
  pcAligned := by rw [h.pc]; exact hs.pcAligned
  pcInMode := by rw [h.sf, h.pc]; exact hs.pcInMode
  memWf := by rw [h.mem]; exact hs.memWf
  memExists := by rw [h.mem, h.params]; exact hs.memExists
  marksOrdered := by rw [h.stored]; exact hs.marksOrdered
  marksWritten := by rw [h.stored, h.mem]; exact hs.marksWritten

theorem Inv.advance {s : State} (hs : Inv s) : Inv s.advance where
  pcAligned := by
    have hpc := hs.pcAligned
    rw [advance_pc, nextPc_toNat]
    split <;> omega
  pcInMode hsf := truncate_lt s _ hsf
  memWf := hs.memWf
  memExists := hs.memExists
  marksOrdered := hs.marksOrdered
  marksWritten := hs.marksWritten

theorem Inv.branchTo {s : State} (hs : Inv s) (a : Addr) : Inv (s.branchTo a) where
  pcAligned := by rw [branchTo_pc, wordAligned_toNat, Nat.mul_mod_left]
  pcInMode hsf := by
    rw [branchTo_pc, wordAligned_toNat]
    exact (Nat.div_mul_le_self _ 4).trans_lt (truncate_lt s a hsf)
  memWf := hs.memWf
  memExists := hs.memExists
  marksOrdered := hs.marksOrdered
  marksWritten := hs.marksWritten

/-- A store of bytes that exist keeps the invariant: each of them has a value and a mark afterwards (R63, R79). -/
theorem Inv.writeCells {s : State} (hs : Inv s) {cells : List Host.Cell}
    (hexist : ∀ c ∈ cells, admitted s.params.memMap c.1 = true) : Inv (s.writeCells cells) where
  pcAligned := hs.pcAligned
  pcInMode := hs.pcInMode
  memWf := wf_writeAll hs.memWf cells fun c hc => lt_of_admitted (hexist c hc)
  memExists a ha := by
    by_cases hcell : a ∈ cells.map Prod.fst
    · obtain ⟨c, hc, rfl⟩ := List.mem_map.mp hcell
      exact hexist c hc
    · rw [writeCells_mem, read_writeAll_other _ _ hcell] at ha
      exact hs.memExists a ha
  marksOrdered := marksWf_addMarks cells hs.marksOrdered
  marksWritten a ha := by
    rw [writeCells_stored, mem_addMarks] at ha
    exact read_writeAll_isSome s.mem cells (ha.symm.imp_right (hs.marksWritten a))

/-- A handler starts in 64-bit mode at a fixed vector (R306, R307). -/
theorem TakesInterrupt.pc_sf_params {i : Instr} {s t : State} (h : TakesInterrupt i s t) :
    (t.pc = 0x700 ∨ t.pc = 0xC00) ∧ t.sf = true ∧ t.params = s.params := by
  cases h with
  | trap _ _ _ _ _ entry | privilege _ _ entry =>
    exact ⟨.inl entry.pc, entry.msr 63 (by decide), entry.rest.params⟩
  | systemCall _ _ _ entry => exact ⟨.inr entry.pc, entry.msr 63 (by decide), entry.rest.params⟩

theorem Inv.interrupt {i : Instr} {s t : State} (hs : Inv s) (h : TakesInterrupt i s t) (hmem : t.mem = s.mem)
    (hstored : t.stored = s.stored) : Inv t := by
  obtain ⟨hpc, hsf, hparams⟩ := h.pc_sf_params
  exact
    { pcAligned := by rcases hpc with hpc | hpc <;> rw [hpc] <;> rfl
      pcInMode := fun hoff => nomatch hsf.symm.trans hoff
      memWf := by rw [hmem]; exact hs.memWf
      memExists := by rw [hmem, hparams]; exact hs.memExists
      marksOrdered := by rw [hstored]; exact hs.marksOrdered
      marksWritten := by rw [hstored, hmem]; exact hs.marksWritten }

theorem Ends.inv {i : Instr} {s t : State} (h : Ends i s t) (hs : Inv s) : Inv t := by
  cases h with
  | onward regs => exact (hs.registersOnly regs).advance
  | branch _ regs a => exact (hs.registersOnly regs).branchTo a
  | store exist => exact (hs.writeCells exist).advance
  | interrupt taken mem stored => exact hs.interrupt taken mem stored

/-- Settles O11: a step that goes on performs an instruction, and each way one ends keeps the invariant. -/
theorem stepKeepsInvariant : Obligations.StepKeepsInvariant := by
  intro s t hs h
  obtain ⟨w, i, -, -, hexec⟩ := (step_eq_next_iff s t).mp h
  exact (exec_ends hexec).inv hs

end Sys2Proof.Machine
end

section
/-!
The stops of a fetch and of decoding (O6), each from the first check that fails (R67, R315).
-/
namespace Sys2Proof.Machine

/-- The bytes at the addresses cannot all be read exactly where one of them is unwritten (R17). -/
theorem readAll_eq_none_iff (m : Memory) (addrs : List Nat) :
    m.readAll addrs = none ↔ ∃ a ∈ addrs, m.read a = none := by
  induction addrs with
  | nil => simp [Memory.readAll]
  | cons a rest ih =>
    simp only [Memory.readAll, List.exists_mem_cons_iff, ← ih]
    cases m.read a <;> cases m.readAll rest <;> simp

theorem admits_eq_false_iff (s : State) (addrs : List Nat) :
    s.admits addrs = false ↔ ∃ a ∈ addrs, admitted s.params.memMap a = false := by
  simp [State.admits]

section FetchStops

variable {s : State}

theorem step_of_fetch_error {e : Stop} (h : s.fetch = .error e) : step s = stopOut e := by
  simp only [step, h]

theorem step_of_ir (h : s.ir = true) : step s = .refused (.translation s.pc) :=
  step_of_fetch_error (e := .refused (.translation s.pc)) (by simp only [State.fetch, h, if_true])

/-- A byte of the word that does not exist (R64, R67). -/
theorem fetch_of_not_admits (hir : s.ir = false) (h : s.admits s.fetchSpan = false) :
    s.fetch = .error (.fault (.instructionStorage s.pc)) := by
  simp [State.fetch, hir, h]

/-- A byte of the word that was stored to in this run (R79). -/
theorem fetch_of_mem_stored (hir : s.ir = false) (hadmits : s.admits s.fetchSpan = true)
    (h : ∃ a ∈ s.fetchSpan, a ∈ s.stored) : s.fetch = .error (.refused (.modifiedCode s.pc)) := by
  have hmarked : s.fetchSpan.any (s.stored.contains ·) = true := by simpa using h
  simp only [State.fetch, hir, hadmits, hmarked, Bool.false_eq_true, Bool.not_true, if_false, if_true]

/-- A byte of the word that nothing has written (R17, R67). -/
theorem fetch_of_unwritten (hir : s.ir = false) (hadmits : s.admits s.fetchSpan = true)
    (hmarks : ∀ a ∈ s.fetchSpan, a ∉ s.stored) (h : ∃ a ∈ s.fetchSpan, s.mem.read a = none) :
    s.fetch = .error (.refused (.unwritten s.pc)) := by
  have hunmarked : s.fetchSpan.any (s.stored.contains ·) = false := by simpa using hmarks
  have hread := (readAll_eq_none_iff _ _).mpr h
  simp only [State.fetch, hir, hadmits, hunmarked, hread, Bool.false_eq_true, Bool.not_true, if_false]

/-- A fetched word that matches no row (R118). -/
theorem step_of_undecodable {w : IWord} (hf : s.fetch = .ok w) (hd : decode w = none) :
    step s = .fault (.illegalInstruction w s.pc) := by
  simp only [step, hf, hd]

end FetchStops

/-- Settles O6: each clause is the first check of the fetch that fails, or the decoder's refusal after all have passed. -/
theorem stepStopsInOrder : Obligations.StepStopsInOrder := by
  refine fun s _ => ⟨step_of_ir, fun hir => ⟨fun h => ?_, fun hexist => ?_⟩⟩
  · exact step_of_fetch_error (fetch_of_not_admits hir ((admits_eq_false_iff s _).mpr h))
  · have hadmits : s.admits s.fetchSpan = true := (admits_iff s _).mpr hexist
    refine ⟨fun h => step_of_fetch_error (fetch_of_mem_stored hir hadmits h), fun hmarks => ⟨fun h => ?_, ?_⟩⟩
    · exact step_of_fetch_error (fetch_of_unwritten hir hadmits hmarks h)
    · intro b0 b1 b2 b3 hread hdec
      exact step_of_undecodable ((fetch_eq_ok_iff s _).mpr ⟨hir, hadmits, hmarks, b0, b1, b2, b3, hread, rfl⟩) hdec

end Sys2Proof.Machine
end

section
/-!
What every step keeps: the marks and the values of storage (O12), read off the way an instruction ends; the modes (O14, O16),
read off what can write the MSR.
-/
namespace Sys2Proof.Machine

/-- From s to t storage only grows: a byte that changes is marked, no mark and no value is lost, and what is newly marked has
a value (R63, R79). -/
structure StorageGrows (s t : State) : Prop where
  changed : ∀ a, t.mem.read a ≠ s.mem.read a → a ∈ t.stored
  marks : ∀ a ∈ s.stored, a ∈ t.stored
  values : ∀ a, (s.mem.read a).isSome → (t.mem.read a).isSome
  marked : ∀ a ∈ t.stored, a ∈ s.stored ∨ (t.mem.read a).isSome

theorem storageGrows_of_eq {s t : State} (hmem : t.mem = s.mem) (hstored : t.stored = s.stored) : StorageGrows s t where
  changed _ h := absurd (by rw [hmem]) h
  marks _ h := by rwa [hstored]
  values _ h := by rwa [hmem]
  marked _ h := .inl (by rwa [hstored] at h)

theorem storageGrows_writeCells (s : State) (cells : List Host.Cell) : StorageGrows s (s.writeCells cells) where
  changed a h := (mem_addMarks cells s.stored a).mpr
    (.inr (Decidable.byContradiction fun hcell => h (read_writeAll_other s.mem cells hcell)))
  marks a h := (mem_addMarks cells s.stored a).mpr (.inl h)
  values _ h := read_writeAll_isSome s.mem cells (.inr h)
  marked a h := ((mem_addMarks cells s.stored a).mp h).imp_right fun hcell =>
    read_writeAll_isSome s.mem cells (.inl hcell)

theorem StorageGrows.advance {s t : State} (h : StorageGrows s t) : StorageGrows s t.advance :=
  ⟨h.changed, h.marks, h.values, h.marked⟩

theorem Ends.storageGrows {i : Instr} {s t : State} (h : Ends i s t) : StorageGrows s t := by
  cases h with
  | onward regs | branch _ regs => exact storageGrows_of_eq regs.mem regs.stored
  | store => exact (storageGrows_writeCells s _).advance
  | interrupt _ mem stored => exact storageGrows_of_eq mem stored

/-- Settles O12: a step that goes on performs an instruction, and each way one ends lets storage only grow. -/
theorem stepMarksWhatItWrites : Obligations.StepMarksWhatItWrites := by
  intro s t h a
  obtain ⟨w, i, -, -, hexec⟩ := (step_eq_next_iff s t).mp h
  have hgrows := (exec_ends hexec).storageGrows
  exact ⟨hgrows.changed a, hgrows.marks a, hgrows.values a, hgrows.marked a⟩

/-! ### Writers of the MSR -/

/-- The MSR that `mtmsr` writes from the value `v` (R267). -/
def mtmsrResult (l : Bool) (msr v : DWord) : DWord := if l then mtmsrEeRi msr v else mtmsrAll msr v

/-- `mtmsr` in privileged state writes its result and goes on (R267). -/
theorem exec_mtmsr_of_privileged {s : State} (rs : RegNum) (l : Bool) (hpr : s.pr = false) :
    exec (.mtmsr rs l) s = .next { s with msr := mtmsrResult l s.msr (s.x rs) }.advance := by
  change execMtmsr rs l s = _
  simp [execMtmsr, State.privileged, hpr, mtmsrResult]

theorem exec_mtmsr_of_problem {s : State} (rs : RegNum) (l : Bool) (hpr : s.pr = true) :
    exec (.mtmsr rs l) s = s.raisePrivileged := by
  change execMtmsr rs l s = _
  simp [execMtmsr, State.privileged, hpr]

/-- The MSR is written by `mtmsr` in privileged state and by an interrupt alone (R267, R306). -/
theorem msr_of_exec {i : Instr} {s t : State} (h : exec i s = .next t) :
    t.msr = s.msr ∨ (s.pr = false ∧ ∃ l v, t.msr = mtmsrResult l s.msr v) ∨ TakesInterrupt i s t := by
  obtain ⟨-, hmsr | ⟨rs, l, rfl⟩⟩ | htaken := exec_keepsFrame h
  · exact .inl hmsr
  · cases hpr : s.pr
    · rw [exec_mtmsr_of_privileged rs l hpr] at h
      cases h
      exact .inr (.inl ⟨rfl, l, s.x rs, rfl⟩)
    · rw [exec_mtmsr_of_problem rs l hpr] at h
      exact .inr (.inr (takesInterrupt_of_raisePrivileged hpr h))
  · exact .inr (.inr htaken)

/-- `mtmsr` writes neither LE nor any bit of the high-order word (R267). -/
theorem getLsbD_mtmsrResult_kept (l : Bool) (msr v : DWord) {k : Nat} (hkept : k = 0 ∨ 32 ≤ k) (hk : k < 64) :
    (mtmsrResult l msr v).getLsbD k = msr.getLsbD k := by
  have hout : ∀ lo hi : Nat, 0 < lo → hi < 32 → ¬ (lo ≤ k ∧ k ≤ hi) := by omega
  have hne : ∀ j : Nat, 0 < j → j < 32 → k ≠ j := by omega
  cases l
  · simp [mtmsrResult, mtmsrAll, getLsbD_setBit, getLsbD_copyField, hk, hout, hne, -BitVec.getLsbD_eq_getElem]
  · simp [mtmsrResult, mtmsrEeRi, getLsbD_setBit, hk, hne, -BitVec.getLsbD_eq_getElem]

/-- `mtmsr` that sets PR where it was clear sets IR with it (R267). -/
theorem mtmsrResult_ir_of_pr {l : Bool} {msr v : DWord} (hold : msr.getLsbD 14 = false)
    (hnew : (mtmsrResult l msr v).getLsbD 14 = true) : (mtmsrResult l msr v).getLsbD 5 = true := by
  cases l
  · have hpr : (mtmsrAll msr v).getLsbD 14 = v.getLsbD 14 := by
      simp [mtmsrAll, getLsbD_setBit, getLsbD_copyField, -BitVec.getLsbD_eq_getElem]
    have hir : (mtmsrAll msr v).getLsbD 5 = (v.getLsbD 5 || v.getLsbD 14) := by
      simp [mtmsrAll, getLsbD_setBit, -BitVec.getLsbD_eq_getElem]
    exact hir.trans (by rw [hpr.symm.trans hnew, Bool.or_true])
  · have hkept : (mtmsrEeRi msr v).getLsbD 14 = msr.getLsbD 14 := by
      simp [mtmsrEeRi, getLsbD_setBit, -BitVec.getLsbD_eq_getElem]
    exact absurd (hold.symm.trans (hkept.symm.trans hnew)) Bool.false_ne_true

/-- The modes a handler starts in, at a fixed vector (R306, R307). -/
structure HandlerModes (s t : State) : Prop where
  vector : t.pc = 0x700 ∨ t.pc = 0xC00
  sf : t.sf = true
  le : t.le = s.params.msr0.getLsbD 0
  pr : t.pr = false
  ir : t.ir = false
  dr : t.dr = false
  hv : s.hv = true → t.hv = true

theorem Interrupted.handlerModes {s t : State} {vec ret : Addr} {info : Nat → Bool} {setHv : Bool}
    (h : Interrupted s t vec ret info setHv) (hvec : vec = 0x700 ∨ vec = 0xC00) : HandlerModes s t where
  vector := by rwa [h.pc]
  sf := h.msr 63 (by decide)
  le := h.msr 0 (by decide)
  pr := h.msr 14 (by decide)
  ir := h.msr 5 (by decide)
  dr := h.msr 4 (by decide)
  hv hv := (h.msr 60 (by decide)).trans (by rw [State.hv] at hv; simp [hv])

theorem TakesInterrupt.handlerModes {i : Instr} {s t : State} (h : TakesInterrupt i s t) :
    s.params.trapMode = .architected ∧ HandlerModes s t := by
  cases h with
  | trap _ _ _ _ mode entry | privilege _ mode entry => exact ⟨mode, entry.handlerModes (.inl rfl)⟩
  | systemCall _ _ mode entry => exact ⟨mode, entry.handlerModes (.inr rfl)⟩

theorem params_of_exec {i : Instr} {s t : State} (h : exec i s = .next t) : t.params = s.params := by
  obtain ⟨hkept, -⟩ | htaken := exec_keepsFrame h
  · exact hkept.params
  · obtain ⟨-, -, hparams⟩ := htaken.pc_sf_params
    exact hparams

/-- Where the high-order word and bit 0 of the MSR are kept, so are SF, HV and LE (R60). -/
theorem modes_of_msr_kept {s t : State} (h : ∀ k < 64, k = 0 ∨ 32 ≤ k → t.msr.getLsbD k = s.msr.getLsbD k) :
    t.sf = s.sf ∧ t.hv = s.hv ∧ t.le = s.le ∧ t.msr.extractLsb' 32 32 = s.msr.extractLsb' 32 32 := by
  refine ⟨h 63 (by decide) (by decide), h 60 (by decide) (by decide), h 0 (by decide) (by decide), ?_⟩
  refine BitVec.eq_of_getLsbD_eq fun k hk => ?_
  rw [BitVec.getLsbD_extractLsb', BitVec.getLsbD_extractLsb', h (32 + k) (by omega) (by omega)]

/-- Settles O14: the MSR is kept, written by `mtmsr` in privileged state, or the handler's. -/
theorem stepKeepsModes : Obligations.StepKeepsModes := by
  intro s t h
  obtain ⟨w, i, -, -, hexec⟩ := (step_eq_next_iff s t).mp h
  refine ⟨params_of_exec hexec, ?_⟩
  obtain hmsr | ⟨hpr, l, v, hmsr⟩ | htaken := msr_of_exec hexec
  · obtain ⟨hsf, hhv, hle, hhigh⟩ := modes_of_msr_kept (s := s) (t := t) fun k _ _ => by rw [hmsr]
    have hpr : t.pr = s.pr := by rw [State.pr, State.pr, hmsr]
    exact ⟨fun hv => hhv.trans hv, .inl ⟨hsf, hle, fun hp => hpr.trans hp, hhigh⟩⟩
  · obtain ⟨hsf, hhv, hle, hhigh⟩ := modes_of_msr_kept (s := s) (t := t) fun k hk hkept => by
      rw [hmsr, getLsbD_mtmsrResult_kept l _ _ hkept hk]
    exact ⟨fun hv => hhv.trans hv, .inl ⟨hsf, hle, fun hp => absurd (hpr.symm.trans hp) Bool.false_ne_true, hhigh⟩⟩
  · obtain ⟨hmode, hm⟩ := htaken.handlerModes
    exact ⟨hm.hv, .inr ⟨hmode, hm.vector, hm.sf, hm.le, hm.pr, hm.ir, hm.dr⟩⟩

/-- Settles O16: only `mtmsr` sets PR, and it sets IR with it, which refuses the next fetch. -/
theorem noEntryToProblemState : Obligations.NoEntryToProblemState := by
  intro s t hpr h htpr
  obtain ⟨w, i, -, -, hexec⟩ := (step_eq_next_iff s t).mp h
  refine step_of_ir ?_
  rw [State.pr] at hpr htpr
  rw [State.ir]
  obtain hmsr | ⟨-, l, v, hmsr⟩ | htaken := msr_of_exec hexec
  · rw [hmsr, hpr] at htpr
    cases htpr
  · rw [hmsr] at htpr ⊢
    exact mtmsrResult_ir_of_pr hpr htpr
  · obtain ⟨-, hmodes⟩ := htaken.handlerModes
    exact nomatch hmodes.pr.symm.trans htpr

end Sys2Proof.Machine
end

section
/-!
Effective addresses as numbers (O37): the sum with a displacement as an integer, and the reduction of the computation mode.
-/
namespace Sys2Proof.Machine

/-- The modulus of addresses in the mode of s (R61). -/
def State.addressModulus (s : State) : Int := if s.sf then 2 ^ 64 else 2 ^ 32

theorem addressModulus_dvd (s : State) : s.addressModulus ∣ 2 ^ 64 := by
  unfold State.addressModulus
  cases s.sf <;> decide

/-- The address the mode has is the address reduced by its modulus (R61). -/
theorem truncate_toNat_emod (s : State) (a : Addr) : ((s.truncate a).toNat : Int) = a.toNat % s.addressModulus := by
  rw [truncate_toNat, State.addressModulus]
  have ha := a.isLt
  cases s.sf <;> simp only [if_true, if_false, Bool.false_eq_true] <;> omega

/-- Adding a doubleword is adding the number it stands for as a signed one, modulo 2^64. -/
theorem toNat_add_toInt (a v : DWord) : ((a + v).toNat : Int) = ((a.toNat : Int) + v.toInt) % 2 ^ 64 := by
  have hcond := BitVec.toInt_eq_toNat_cond v
  rw [BitVec.toNat_add, hcond]
  push_cast
  split <;> omega

/-- A sum with RA0, as an address of the mode: the sum of the numbers, reduced by the modulus (R61). -/
theorem truncate_ra0_add_toNat (s : State) (ra : RegNum) (v : DWord) :
    ((s.truncate (s.ra0 ra + v)).toNat : Int) =
      ((if ra = 0 then 0 else ((s.x ra).toNat : Int)) + v.toInt) % s.addressModulus := by
  rw [truncate_toNat_emod, toNat_add_toInt, Int.emod_emod_of_dvd _ (addressModulus_dvd s), ra0_toNat]

/-- A field with zeros below it, sign-extended, is the field's signed value times a power of two (R115). -/
theorem toInt_signExtend_append_zero {n m : Nat} (v : BitVec n) (h : n + m ≤ 64) :
    ((v ++ 0#m).signExtend 64).toInt = 2 ^ m * v.toInt := by
  rw [BitVec.toInt_signExtend_of_le h, BitVec.toInt_append_zero]

/-- Settles O37: every form is a sum with RA0, or with EA, in the mode of s. -/
theorem effectiveAddresses : Obligations.EffectiveAddresses := by
  intro s ra rb m base hm hbase
  obtain rfl : m = s.addressModulus := hm
  subst hbase
  refine ⟨fun d => ?_, fun ds => ?_, fun dq => ?_, ?_, ?_, fun ea k => ?_⟩
  · have hd : (sextImm d).toInt = d.toInt := BitVec.toInt_signExtend_of_le (by decide)
    rw [State.eaD, truncate_ra0_add_toNat, hd]
  · have hds : (dsImm ds).toInt = 4 * ds.toInt := toInt_signExtend_append_zero ds (by decide)
    rw [State.eaDS, truncate_ra0_add_toNat, hds]
  · have hdq : (dqImm dq).toInt = 16 * dq.toInt := toInt_signExtend_append_zero dq (by decide)
    rw [State.eaDQ, truncate_ra0_add_toNat, hdq]
  · rw [State.eaX, truncate_toNat_emod, BitVec.toNat_add, ← ra0_toNat]
    push_cast
    exact Int.emod_emod_of_dvd _ (addressModulus_dvd s)
  · rw [State.eaBase, truncate_toNat_emod, ra0_toNat]
  · rw [State.byteAddr, truncate_toNat_emod, BitVec.toNat_add, BitVec.toNat_ofNat, Nat.add_mod_mod]
    push_cast
    exact Int.emod_emod_of_dvd _ (addressModulus_dvd s)

end Sys2Proof.Machine
end

section
/-!
Data accesses: each storage instruction as the load or the store its data access describes, with the checks of R81, and
those checks in their order (O48).
-/
namespace Sys2Proof.Machine

/-- The alignment check of an access as the meanings make it (R65). -/
def DataAccess.aligned (a : DataAccess) (s : State) : Bool :=
  (if a.always then isMultiple a.ea a.unit else s.alignOk a.ea a.unit) && !(a.bigEndianOnly && s.le)

theorem isMultiple_eq_true_iff (ea : Addr) (n : Nat) : isMultiple ea n = true ↔ ea.toNat % n = 0 := by simp [isMultiple]

theorem alignOk_eq_true_iff (s : State) (ea : Addr) (n : Nat) :
    s.alignOk ea n = true ↔ ea.toNat % n = 0 ∨ s.params.misalign = .split := by
  simp [State.alignOk, isMultiple_eq_true_iff, or_comm]

/-- An access whose unit is one byte has no alignment check (R65). -/
@[simp] theorem alignOk_one (s : State) (ea : Addr) : s.alignOk ea 1 = true :=
  (alignOk_eq_true_iff s ea 1).mpr (.inl (Nat.mod_one _))

theorem DataAccess.aligned_eq_true_iff (a : DataAccess) (s : State) : a.aligned s = true ↔ ¬ a.misaligned s := by
  have hmode : s.params.misalign = .split ↔ ¬ s.params.misalign = .fault := by cases s.params.misalign <;> simp
  rw [DataAccess.aligned, DataAccess.misaligned, Bool.and_eq_true, not_or]
  refine and_congr ?_ ?_
  · cases a.always
    · simp [alignOk_eq_true_iff, hmode, or_iff_not_imp_left]
    · simp [isMultiple_eq_true_iff]
  · cases a.bigEndianOnly <;> simp

theorem DataAccess.permitted_iff (a : DataAccess) (s : State) :
    a.permitted s ↔ s.dr = false ∧ a.aligned s = true ∧ s.admits a.bytes = true := by
  rw [a.aligned_eq_true_iff, admits_iff]

section Kinds

variable (s : State) (dir : Access) (ea : Addr) (bytes : List Nat) (n : Nat)

theorem aligned_plain : (⟨dir, ea, bytes, n, false, false⟩ : DataAccess).aligned s = s.alignOk ea n := by
  simp [DataAccess.aligned]

/-- The quadword accesses are aligned whatever MISALIGN is (R194, R236). -/
theorem aligned_always : (⟨dir, ea, bytes, n, true, false⟩ : DataAccess).aligned s = isMultiple ea n := by
  simp [DataAccess.aligned]

/-- The multiple and string accesses raise Alignment in Little-Endian mode (R200, R242, R286). -/
theorem aligned_bigEndianOnly :
    (⟨dir, ea, bytes, n, false, true⟩ : DataAccess).aligned s = (!s.le && s.alignOk ea n) := by
  simp [DataAccess.aligned, Bool.and_comm]

end Kinds

/-! ### Invalid forms of the storage instructions (R120) -/

theorem getLsbD_zero_eq_false_iff (r : RegNum) : r.getLsbD 0 = false ↔ r.toNat % 2 = 0 := by
  rw [BitVec.getLsbD, Nat.testBit_zero, decide_eq_false_iff_not]
  exact Nat.mod_two_ne_one

theorem lq_form_valid {rtp ra : RegNum} (heven : rtp.toNat % 2 = 0) (hne : rtp ≠ ra) :
    (rtp.getLsbD 0 || rtp == ra) = false := by
  simp only [(getLsbD_zero_eq_false_iff _).mpr heven, Bool.false_or, beq_eq_false_iff_ne, ne_eq, hne, not_false_eq_true]

theorem lmw_form_valid {rt ra : RegNum} (h : ra.toNat < rt.toNat) : rt.ule ra = false := by
  simpa [BitVec.ule] using h

theorem lswi_form_valid {rt ra : RegNum} {nb : BitVec 5} (h : ¬ InvalidForm (.lswi rt ra nb)) :
    inWrappedRange rt ra (stringRegs (nbCount nb)) = false := by
  rw [inWrappedRange, decide_eq_false_iff_not]
  refine fun hk => h ⟨(ra - rt).toNat, hk, ?_⟩
  rw [BitVec.toNat_sub]
  omega

/-! ### Each instruction as its access -/

section Exec

variable {s : State} {a : DataAccess}

theorem exec_lbzcix_eq_load {rt ra rb : RegNum} (h : dataAccess (.lbzcix rt ra rb) s = some a)
    (hhv : s.hypervisor = true) :
    exec (.lbzcix rt ra rb) s = s.load a.ea (a.aligned s) a.bytes fun bs => s.setX rt (fromStorage s.le 64 bs) := by
  change execLbzcix rt ra rb s = _
  cases h
  rw [execLbzcix, if_pos hhv, aligned_plain, alignOk_one, State.loadZero]

theorem exec_lbz_eq_load {rt ra : RegNum} {d : BitVec 16} (h : dataAccess (.lbz rt ra d) s = some a) :
    exec (.lbz rt ra d) s = s.load a.ea (a.aligned s) a.bytes fun bs => s.setX rt (fromStorage s.le 64 bs) := by
  cases h
  rw [aligned_plain, alignOk_one]
  rfl

/-- The byte-reverse load of n bytes (R196 to R198). -/
abbrev IsReverseLoad (rt ra rb : RegNum) (i : Instr) (n : Nat) : Prop :=
  (i = .lhbrx rt ra rb ∧ n = 2) ∨ (i = .lwbrx rt ra rb ∧ n = 4) ∨ (i = .ldbrx rt ra rb ∧ n = 8)

theorem dataAccess_reverseLoad {rt ra rb : RegNum} {i : Instr} {n : Nat} (hi : IsReverseLoad rt ra rb i n) (s : State) :
    dataAccess i s = some ⟨.load, s.eaX ra rb, s.span (s.eaX ra rb) n, n, false, false⟩ := by
  rcases hi with ⟨rfl, rfl⟩ | ⟨rfl, rfl⟩ | ⟨rfl, rfl⟩ <;> rfl

theorem exec_reverseLoad_eq_load {rt ra rb : RegNum} {i : Instr} {n : Nat} (hi : IsReverseLoad rt ra rb i n)
    (h : dataAccess i s = some a) :
    exec i s = s.load a.ea (a.aligned s) a.bytes fun bs => s.setX rt (rev n (fromStorage s.le 64 bs)) := by
  have hexec : exec i s = s.loadReversed rt (s.eaX ra rb) n := by
    rcases hi with ⟨rfl, rfl⟩ | ⟨rfl, rfl⟩ | ⟨rfl, rfl⟩ <;> rfl
  cases (dataAccess_reverseLoad hi s).symm.trans h
  rw [hexec, aligned_plain, State.loadReversed]

theorem exec_lq_eq_load {rtp ra : RegNum} {dq : BitVec 12} (heven : rtp.toNat % 2 = 0) (hne : rtp ≠ ra)
    (h : dataAccess (.lq rtp ra dq) s = some a) :
    exec (.lq rtp ra dq) s = s.load a.ea (a.aligned s) a.bytes fun bs =>
      (s.setX rtp ((fromStorage s.le 128 bs).extractLsb' 64 64)).setX (rtp + 1)
        ((fromStorage s.le 128 bs).extractLsb' 0 64) := by
  change execLq rtp ra dq s = _
  cases h
  simp only [execLq, lq_form_valid heven hne, Bool.false_eq_true, if_false, aligned_always]

theorem exec_lmw_eq_load {rt ra : RegNum} {d : BitVec 16} (hform : ra.toNat < rt.toNat)
    (h : dataAccess (.lmw rt ra d) s = some a) :
    exec (.lmw rt ra d) s = s.load a.ea (a.aligned s) a.bytes fun bs => s.setWords rt (32 - rt.toNat) bs := by
  change execLmw rt ra d s = _
  cases h
  simp only [execLmw, lmw_form_valid hform, Bool.false_eq_true, if_false, aligned_bigEndianOnly]

theorem exec_lswi_eq_load {rt ra : RegNum} {nb : BitVec 5} (hform : ¬ InvalidForm (.lswi rt ra nb))
    (h : dataAccess (.lswi rt ra nb) s = some a) :
    exec (.lswi rt ra nb) s =
      s.load a.ea (a.aligned s) a.bytes fun bs => s.setWords rt (stringRegs (nbCount nb)) bs := by
  change execLswi rt ra nb s = _
  cases h
  simp only [execLswi, lswi_form_valid hform, Bool.false_eq_true, if_false, aligned_bigEndianOnly, alignOk_one,
    Bool.and_true]
  rfl

/-- The store of n of RS's bytes in the byte order of the mode (R232, R234). -/
abbrev IsPlainStore (s : State) (rs ra : RegNum) (i : Instr) (ea : Addr) (n : Nat) : Prop :=
  (∃ d, i = .stb rs ra d ∧ ea = s.eaD ra d ∧ n = 1) ∨ (∃ ds, i = .std rs ra ds ∧ ea = s.eaDS ra ds ∧ n = 8)

theorem dataAccess_plainStore {rs ra : RegNum} {i : Instr} {ea : Addr} {n : Nat} (hi : IsPlainStore s rs ra i ea n) :
    dataAccess i s = some ⟨.store, ea, s.span ea n, n, false, false⟩ := by
  rcases hi with ⟨d, rfl, rfl, rfl⟩ | ⟨ds, rfl, rfl, rfl⟩ <;> rfl

theorem exec_plainStore_eq_store {rs ra : RegNum} {i : Instr} {ea : Addr} {n : Nat} (hi : IsPlainStore s rs ra i ea n)
    (h : dataAccess i s = some a) :
    exec i s = s.store a.ea (a.aligned s) a.bytes (toStorage s.le n (s.x rs)) := by
  have hexec : exec i s = s.storeValue ea n (s.alignOk ea n) (s.x rs) := by
    rcases hi with ⟨d, rfl, rfl, rfl⟩ | ⟨ds, rfl, rfl, rfl⟩
    · rw [alignOk_one]
      rfl
    · rfl
  cases (dataAccess_plainStore hi).symm.trans h
  rw [hexec, aligned_plain, State.storeValue]

/-- The byte-reverse store of n bytes (R238 to R240). -/
abbrev IsReverseStore (rs ra rb : RegNum) (i : Instr) (n : Nat) : Prop :=
  (i = .sthbrx rs ra rb ∧ n = 2) ∨ (i = .stwbrx rs ra rb ∧ n = 4) ∨ (i = .stdbrx rs ra rb ∧ n = 8)

theorem dataAccess_reverseStore {rs ra rb : RegNum} {i : Instr} {n : Nat} (hi : IsReverseStore rs ra rb i n)
    (s : State) :
    dataAccess i s = some ⟨.store, s.eaX ra rb, s.span (s.eaX ra rb) n, n, false, false⟩ := by
  rcases hi with ⟨rfl, rfl⟩ | ⟨rfl, rfl⟩ | ⟨rfl, rfl⟩ <;> rfl

theorem exec_reverseStore_eq_store {rs ra rb : RegNum} {i : Instr} {n : Nat} (hi : IsReverseStore rs ra rb i n)
    (h : dataAccess i s = some a) :
    exec i s = s.store a.ea (a.aligned s) a.bytes (toStorage s.le n (rev n (s.x rs))) := by
  have hexec : exec i s = s.storeReversed (s.eaX ra rb) n (s.x rs) := by
    rcases hi with ⟨rfl, rfl⟩ | ⟨rfl, rfl⟩ | ⟨rfl, rfl⟩ <;> rfl
  cases (dataAccess_reverseStore hi s).symm.trans h
  rw [hexec, aligned_plain, State.storeReversed, State.storeValue]

theorem exec_stq_eq_store {rsp ra : RegNum} {ds : BitVec 14} (heven : rsp.toNat % 2 = 0)
    (h : dataAccess (.stq rsp ra ds) s = some a) :
    exec (.stq rsp ra ds) s =
      s.store a.ea (a.aligned s) a.bytes (toStorage s.le 16 (s.x rsp ++ s.x (rsp + 1))) := by
  change execStq rsp ra ds s = _
  cases h
  simp only [execStq, (getLsbD_zero_eq_false_iff _).mpr heven, Bool.false_eq_true, if_false, aligned_always, State.storeValue]

theorem exec_stmw_eq_store {rs ra : RegNum} {d : BitVec 16} (h : dataAccess (.stmw rs ra d) s = some a) :
    exec (.stmw rs ra d) s = s.store a.ea (a.aligned s) a.bytes (s.multipleBytes rs) := by
  cases h
  rw [aligned_bigEndianOnly]
  rfl

theorem exec_dcbz_eq_store {ra rb : RegNum} (h : dataAccess (.dcbz ra rb) s = some a) :
    exec (.dcbz ra rb) s = s.store a.ea (a.aligned s) a.bytes (List.replicate s.params.dcbzBlock 0) := by
  cases h
  rw [aligned_plain, alignOk_one]
  rfl

end Exec

/-- The instruction performs the data access: it is a load or a store of the bytes of the access, with its checks. -/
inductive Performs (i : Instr) (s : State) (a : DataAccess) : Prop where
  | load (dir : a.dir = .load) (k : List Byte → State) (h : exec i s = s.load a.ea (a.aligned s) a.bytes k)
  | store (dir : a.dir = .store) (bs : List Byte) (h : exec i s = s.store a.ea (a.aligned s) a.bytes bs)

theorem performs_of_dataAccess {i : Instr} {s : State} {a : DataAccess} (h : dataAccess i s = some a)
    (hpriv : ¬ LacksPrivilege i s) (hform : ¬ InvalidForm i) : Performs i s a := by
  cases i with
  | lbzcix rt ra rb =>
    have hhv : s.hypervisor = true := not_imp_comm.mp lacksPrivilege_lbzcix hpriv
    exact .load (by cases h; rfl) _ (exec_lbzcix_eq_load h hhv)
  | lbz => exact .load (by cases h; rfl) _ (exec_lbz_eq_load h)
  | lhbrx rt ra rb => exact .load (by cases h; rfl) _ (exec_reverseLoad_eq_load (.inl ⟨rfl, rfl⟩) h)
  | lwbrx rt ra rb => exact .load (by cases h; rfl) _ (exec_reverseLoad_eq_load (.inr (.inl ⟨rfl, rfl⟩)) h)
  | ldbrx rt ra rb => exact .load (by cases h; rfl) _ (exec_reverseLoad_eq_load (.inr (.inr ⟨rfl, rfl⟩)) h)
  | lq rtp ra =>
    obtain ⟨hodd, hne⟩ := not_or.mp hform
    exact .load (by cases h; rfl) _ (exec_lq_eq_load (Nat.mod_two_ne_one.mp hodd) hne h)
  | lmw => exact .load (by cases h; rfl) _ (exec_lmw_eq_load (Nat.lt_of_not_le hform) h)
  | lswi => exact .load (by cases h; rfl) _ (exec_lswi_eq_load hform h)
  | stb rs ra d => exact .store (by cases h; rfl) _ (exec_plainStore_eq_store (.inl ⟨d, rfl, rfl, rfl⟩) h)
  | std rs ra ds => exact .store (by cases h; rfl) _ (exec_plainStore_eq_store (.inr ⟨ds, rfl, rfl, rfl⟩) h)
  | sthbrx rs ra rb => exact .store (by cases h; rfl) _ (exec_reverseStore_eq_store (.inl ⟨rfl, rfl⟩) h)
  | stwbrx rs ra rb => exact .store (by cases h; rfl) _ (exec_reverseStore_eq_store (.inr (.inl ⟨rfl, rfl⟩)) h)
  | stdbrx rs ra rb => exact .store (by cases h; rfl) _ (exec_reverseStore_eq_store (.inr (.inr ⟨rfl, rfl⟩)) h)
  | stq => exact .store (by cases h; rfl) _ (exec_stq_eq_store (Nat.mod_two_ne_one.mp hform) h)
  | stmw => exact .store (by cases h; rfl) _ (exec_stmw_eq_store h)
  | dcbz => exact .store (by cases h; rfl) _ (exec_dcbz_eq_store h)
  | _ => cases h

/-! ### The checks in their order (R81) -/

section Checks

variable {i : Instr} {s : State} {a : DataAccess}

/-- The first check that fails is how the instruction ends. -/
theorem Performs.exec_of_accessStop (h : Performs i s a) {e : Stop}
    (he : s.accessStop a.dir a.ea (a.aligned s) a.bytes = some e) : exec i s = stopOut e := by
  cases h with
  | load dir k h => rw [h, State.load, ← dir, he]
  | store dir bs h => rw [h, State.store, ← dir, he]

theorem accessStop_of_permitted (hp : a.permitted s) : s.accessStop a.dir a.ea (a.aligned s) a.bytes = none :=
  (accessStop_eq_none_iff ..).mpr ((a.permitted_iff s).mp hp)

/-- A permitted load whose bytes have values goes on with the registers written from them (R62). -/
theorem load_of_permitted (hp : a.permitted s) {bs : List Byte} (hread : s.mem.readAll a.bytes = some bs)
    (k : List Byte → State) : s.load a.ea (a.aligned s) a.bytes k = .next (k bs).advance :=
  (load_eq_next_iff ..).mpr ⟨(a.permitted_iff s).mp hp, bs, hread, rfl⟩

/-- A permitted store goes on with its bytes written (R63). -/
theorem store_of_permitted (hp : a.permitted s) (bs : List Byte) :
    s.store a.ea (a.aligned s) a.bytes bs = .next (s.writeCells (a.bytes.zip bs)).advance :=
  (store_eq_next_iff ..).mpr ⟨(a.permitted_iff s).mp hp, rfl⟩

theorem Performs.exec_of_unwritten (h : Performs i s a) (hp : a.permitted s) (hdir : a.dir = .load)
    (hread : s.mem.readAll a.bytes = none) : exec i s = .refused (.unwritten s.pc) := by
  cases h with
  | load dir k h => rw [h, State.load, ← dir, accessStop_of_permitted hp, hread]
  | store dir => exact nomatch hdir.symm.trans dir

theorem Performs.exec_of_permitted (h : Performs i s a) (hp : a.permitted s)
    (hread : a.dir = .load → ∃ bs, s.mem.readAll a.bytes = some bs) : ∃ t, exec i s = .next t := by
  cases h with
  | load dir k h =>
    obtain ⟨bs, hbs⟩ := hread dir
    exact ⟨_, h.trans (load_of_permitted hp hbs k)⟩
  | store dir bs h => exact ⟨_, h.trans (store_of_permitted hp bs)⟩

end Checks

/-- Settles O48: the instruction is the load or the store of its access, and each clause is its first check that fails. -/
theorem accessChecksInOrder : Obligations.AccessChecksInOrder := by
  intro i s a ha hpriv hform
  have h := performs_of_dataAccess ha hpriv hform
  refine ⟨fun hdr => ?_, fun hdr hmis => ?_, fun hdr hmis hexist => ?_, fun hp hdir hnone => ?_, fun hp hsome => ?_⟩
  · refine h.exec_of_accessStop (e := .refused (.translation s.pc)) ?_
    simp only [State.accessStop, hdr, if_true]
  · refine h.exec_of_accessStop (e := .fault (.alignment a.ea s.pc)) ?_
    have haligned : a.aligned s = false := by simpa using mt (a.aligned_eq_true_iff s).mp (not_not_intro hmis)
    simp only [State.accessStop, hdr, haligned, Bool.not_false, Bool.false_eq_true, if_false, if_true]
  · refine h.exec_of_accessStop (e := .fault (.dataStorage a.ea a.dir s.pc)) ?_
    have haligned : a.aligned s = true := (a.aligned_eq_true_iff s).mpr hmis
    have hadmits : s.admits a.bytes = false := (admits_eq_false_iff s _).mpr hexist
    simp only [State.accessStop, hdr, haligned, hadmits, Bool.not_false, Bool.not_true, Bool.false_eq_true, if_false,
      if_true]
  · exact h.exec_of_unwritten hp hdir ((readAll_eq_none_iff _ _).mpr hnone)
  · refine h.exec_of_permitted hp fun hdir => Option.ne_none_iff_exists'.mp fun hnone => ?_
    obtain ⟨b, hb, hread⟩ := (readAll_eq_none_iff _ _).mp hnone
    exact absurd (hsome hdir b hb) (by simp [hread])

end Sys2Proof.Machine
end

section
/-!
SUPPORT. Bytes: each byte of joined bytes, of a value read from storage or laid out for it, and of a reversed value; and two
values with the same bytes.
-/
namespace Sys2Proof.Machine

/-- Bit i of joined bytes is bit i mod 8 of the byte at place i div 8 from the end. -/
theorem getLsbD_joinBytes_reverse (w : Nat) (bs : List Byte) {i : Nat} (hi : i < w) :
    (joinBytes w bs.reverse).getLsbD i = (bs.getD (i / 8) 0).getLsbD (i % 8) := by
  induction bs generalizing i with
  | nil => simp [joinBytes]
  | cons b rest ih =>
    rw [List.reverse_cons, joinBytes_concat, BitVec.getLsbD_or, BitVec.getLsbD_shiftLeft, BitVec.getLsbD_setWidth]
    by_cases h8 : i < 8
    · have hdiv : i / 8 = 0 := by omega
      have hmod : i % 8 = i := by omega
      simp [hi, h8, hdiv, hmod]
    · have hdiv : i / 8 = (i - 8) / 8 + 1 := by omega
      have hmod : i % 8 = (i - 8) % 8 := by omega
      have hout : b.getLsbD i = false := BitVec.getLsbD_of_ge b i (by omega)
      rw [ih (by omega), hdiv, hmod, hout, List.getD_cons_succ]
      simp [hi, h8]

theorem byte_joinBytes_reverse (w : Nat) (bs : List Byte) {k : Nat} (hk : 8 * k + 8 ≤ w) :
    (joinBytes w bs.reverse).extractLsb' (8 * k) 8 = bs.getD k 0 := by
  refine BitVec.eq_of_getLsbD_eq fun j hj => ?_
  have hdiv : (8 * k + j) / 8 = k := by omega
  have hmod : (8 * k + j) % 8 = j := by omega
  rw [BitVec.getLsbD_extractLsb', getLsbD_joinBytes_reverse w bs (by omega), hdiv, hmod]
  simp [hj]

theorem byte_joinBytes (w : Nat) (bs : List Byte) {k : Nat} (hk : 8 * k + 8 ≤ w) :
    (joinBytes w bs).extractLsb' (8 * k) 8 = bs.reverse.getD k 0 := by
  rw [← byte_joinBytes_reverse w bs.reverse hk, List.reverse_reverse]

/-- Joined bytes leave zeros above them. -/
theorem joinBytes_toNat_lt (w : Nat) (bs : List Byte) : (joinBytes w bs).toNat < 2 ^ (8 * bs.length) := by
  refine Nat.lt_pow_two_of_testBit _ fun i hi => ?_
  change (joinBytes w bs).getLsbD i = false
  by_cases hw : i < w
  · have hout : bs.reverse.length ≤ i / 8 := by
      rw [List.length_reverse]
      omega
    rw [← List.reverse_reverse bs, getLsbD_joinBytes_reverse w _ hw, List.getD_eq_default _ _ hout]
    exact BitVec.getLsbD_zero
  · exact BitVec.getLsbD_of_ge _ _ (Nat.le_of_not_lt hw)

/-- The place in an n-byte value of the byte at offset k in storage: from the low end in Little-Endian mode, from the high
end in Big-Endian mode (R62, R63). -/
def bytePlace (le : Bool) (n k : Nat) : Nat := if le then k else n - 1 - k

/-- The byte at offset k in storage is the byte of the value at its place (R62). -/
theorem byte_fromStorage (le : Bool) {w n k : Nat} {bs : List Byte} (hl : bs.length = n) (hk : k < n) (hw : 8 * n ≤ w) :
    (fromStorage le w bs).extractLsb' (8 * bytePlace le n k) 8 = bs.getD k 0 := by
  cases le
  · have hback : n - 1 - (n - 1 - k) = k := by omega
    simp only [fromStorage, bytePlace, Bool.false_eq_true, if_false]
    rw [byte_joinBytes w bs (by omega), List.getD_reverse _ (by omega), hl, hback]
  · exact byte_joinBytes_reverse w bs (by omega : 8 * k + 8 ≤ w)

theorem fromStorage_singleton (le : Bool) (w : Nat) (b : Byte) : fromStorage le w [b] = b.setWidth w := by
  cases le <;> simp [fromStorage, joinBytes]

theorem bytesOf_getD {w : Nat} (v : BitVec w) {n k : Nat} (hk : k < n) :
    (bytesOf n v).getD k 0 = v.extractLsb' (8 * (n - 1 - k)) 8 := by
  simp [bytesOf, List.getD_eq_getElem?_getD, hk]

/-- The byte laid out at offset k is the byte of the value at its place (R63). -/
theorem toStorage_getD (le : Bool) {w : Nat} (v : BitVec w) {n k : Nat} (hk : k < n) :
    (toStorage le n v).getD k 0 = v.extractLsb' (8 * bytePlace le n k) 8 := by
  cases le
  · exact bytesOf_getD v hk
  · have hback : n - 1 - (n - 1 - k) = k := by omega
    simp only [toStorage, bytePlace, if_true]
    rw [List.getD_reverse _ (by rwa [bytesOf_length]), bytesOf_length, bytesOf_getD v (by omega), hback]

/-- Reversed, byte k is the byte at the mirrored place (R195). -/
theorem byteOf_rev (v : DWord) {n k : Nat} (hk : k < n) (hn : n ≤ 8) : byteOf (rev n v) k = byteOf v (n - 1 - k) := by
  rw [byteOf, rev, byte_joinBytes_reverse 64 _ (by omega), bytesOf_getD v hk, byteOf]

theorem rev_toNat_lt (n : Nat) (v : DWord) : (rev n v).toNat < 2 ^ (8 * n) := by
  simpa [rev] using joinBytes_toNat_lt 64 (bytesOf n v).reverse

/-- The place as the byte-reverse accesses have it. -/
theorem bytePlace_not_eq (le : Bool) (n k : Nat) : bytePlace (!le) n k = if le then n - 1 - k else k := by
  cases le <;> rfl

theorem bytePlace_lt (le : Bool) {n k : Nat} (hk : k < n) : bytePlace le n k < n := by
  unfold bytePlace
  split <;> omega

theorem bytePlace_not (le : Bool) {n k : Nat} (hk : k < n) : n - 1 - bytePlace (!le) n k = bytePlace le n k := by
  cases le
  · rfl
  · exact (by omega : n - 1 - (n - 1 - k) = k)

theorem bytePlace_bytePlace (le : Bool) {n k : Nat} (hk : k < n) : bytePlace le n (bytePlace le n k) = k := by
  unfold bytePlace
  split <;> omega

theorem getLsbD_byteOf (v : DWord) (i : Nat) : (byteOf v (i / 8)).getLsbD (i % 8) = v.getLsbD i := by
  have hsplit : 8 * (i / 8) + i % 8 = i := Nat.div_add_mod i 8
  rw [byteOf, BitVec.getLsbD_extractLsb', hsplit]
  simp [Nat.mod_lt]

/-- A value with v's n low-order bytes and zeros above is v modulo 2^(8n). -/
theorem toNat_eq_mod_of_bytes {u v : DWord} {n : Nat} (hlt : u.toNat < 2 ^ (8 * n))
    (h : ∀ k < n, byteOf u k = byteOf v k) : u.toNat = v.toNat % 2 ^ (8 * n) := by
  refine Nat.eq_of_testBit_eq fun i => ?_
  rw [Nat.testBit_mod_two_pow]
  by_cases hi : i < 8 * n
  · have hbit : u.getLsbD i = v.getLsbD i := by rw [← getLsbD_byteOf u, ← getLsbD_byteOf v, h (i / 8) (by omega)]
    rw [decide_eq_true hi, Bool.true_and]
    exact hbit
  · simp [hi, Nat.testBit_lt_two_pow (hlt.trans_le (Nat.pow_le_pow_right (by decide) (Nat.le_of_not_lt hi)))]

theorem eq_of_bytes {u v : DWord} (h : ∀ k < 8, byteOf u k = byteOf v k) : u = v :=
  BitVec.eq_of_toNat_eq ((toNat_eq_mod_of_bytes (n := 8) u.isLt h).trans (Nat.mod_eq_of_lt v.isLt))

end Sys2Proof.Machine
end

section
/-!
The loads: `lbz` and `lbzcix` (O38), the byte-reverse loads (O39), `lq` (O40) and `lmw` (O41), each as the register writes a
permitted access ends in, and their bytes.
-/
namespace Sys2Proof.Machine

/-- The first byte of an access lies at its effective address, which the mode has truncated (R61). -/
theorem byteAddr_truncate_zero (s : State) (a : Addr) : s.byteAddr (s.truncate a) 0 = s.truncate a := by
  refine BitVec.eq_of_toNat_eq ?_
  rw [State.byteAddr, truncate_toNat, BitVec.add_zero, truncate_toNat]
  split <;> simp

theorem span_one (s : State) (ea : Addr) : s.span ea 1 = [(s.byteAddr ea 0).toNat] := rfl

/-- Settles O38: either instruction is the load of the one byte at EA, which joins to the number it is. -/
theorem byteLoads : Obligations.ByteLoads := by
  intro rt ra s i ea b hi hdr hexist hread
  obtain ⟨hexec, hea⟩ : exec i s = s.loadZero rt ea 1 true ∧ s.byteAddr ea 0 = ea := by
    rcases hi with ⟨d, rfl, rfl⟩ | ⟨rb, rfl, rfl, hhv, hpr⟩
    · exact ⟨rfl, byteAddr_truncate_zero s _⟩
    · have hyp : s.hypervisor = true := by simp [State.hypervisor, hhv, hpr]
      exact ⟨if_pos hyp, byteAddr_truncate_zero s _⟩
  have hbytes : s.span ea 1 = [ea.toNat] := by rw [span_one, hea]
  have hvalue : (fromStorage s.le 64 [b]).toNat = b.toNat := by
    rw [fromStorage_singleton, BitVec.toNat_setWidth_of_le (by decide)]
  have hnext : s.loadZero rt ea 1 true = .next (s.setX rt (fromStorage s.le 64 [b])).advance := by
    refine (load_eq_next_iff ..).mpr ⟨⟨hdr, rfl, ?_⟩, [b], ?_, rfl⟩
    · simpa [hbytes, admits_iff] using hexist
    · rw [hbytes, readAll_eq_some_iff]
      simpa using hread
  exact ⟨_, hexec.trans hnext, setX_nextPc .., by rw [advance_x, setX_x_same, hvalue], (frame_setX ..).advance⟩

/-- Settles O39: the next state holds the reversed value, whose bytes are those read. -/
theorem byteReverseLoads : Obligations.ByteReverseLoads := by
  intro rt ra rb s i n a bs hi ha hp hread
  have hn : n ≤ 8 := by omega
  have hl : bs.length = n := by
    cases (dataAccess_reverseLoad hi s).symm.trans ha
    exact (readAll_length hread).trans (span_length ..)
  refine ⟨_, (exec_reverseLoad_eq_load hi ha).trans (load_of_permitted hp hread _), setX_nextPc .., (frame_setX ..).advance,
    ?_, fun k hk => ?_⟩
  · rw [advance_x, setX_x_same]
    exact rev_toNat_lt n _
  · rw [advance_x, setX_x_same, ← bytePlace_not_eq, byteOf_rev _ (bytePlace_lt _ hk) hn, bytePlace_not _ hk]
    exact byte_fromStorage s.le hl hk (by omega)

/-! ### The quadword load -/

/-- A register is not its successor. -/
theorem ne_succ (r : RegNum) : r ≠ r + 1 := by
  revert r
  decide

theorem byteOf_extractLsb'_high (q : BitVec 128) {j : Nat} (hj : j < 8) :
    byteOf (q.extractLsb' 64 64) j = q.extractLsb' (8 * (8 + j)) 8 := by
  refine BitVec.eq_of_getLsbD_eq fun i hi => ?_
  have hsum : 64 + (8 * j + i) = 8 * (8 + j) + i := by omega
  simp only [byteOf, BitVec.getLsbD_extractLsb', hsum, hi, (by omega : 8 * j + i < 64), decide_true, Bool.true_and]

theorem byteOf_extractLsb'_low (q : BitVec 128) {j : Nat} (hj : j < 8) :
    byteOf (q.extractLsb' 0 64) j = q.extractLsb' (8 * j) 8 := by
  refine BitVec.eq_of_getLsbD_eq fun i hi => ?_
  simp only [byteOf, BitVec.getLsbD_extractLsb', Nat.zero_add, hi, (by omega : 8 * j + i < 64), decide_true, Bool.true_and]

/-- The doublewords of a quadword read from storage: the byte at offset k of the first or the second eight is at its place
in the one half or the other, by the byte order (R194). -/
theorem bytes_of_quadword (le : Bool) {bs : List Byte} (hl : bs.length = 16) {k : Nat} (hk : k < 8) :
    byteOf ((fromStorage le 128 bs).extractLsb' 64 64) (if le then k else 7 - k) = bs.getD (if le then 8 + k else k) 0 ∧
      byteOf ((fromStorage le 128 bs).extractLsb' 0 64) (if le then k else 7 - k) =
        bs.getD (if le then k else 8 + k) 0 := by
  have hbyte : ∀ j < 16, ∀ p, bytePlace le 16 j = p → (fromStorage le 128 bs).extractLsb' (8 * p) 8 = bs.getD j 0 :=
    fun j hj p hp => hp ▸ byte_fromStorage le hl hj (by decide)
  have hplace : (if le then k else 7 - k) < 8 := by split <;> omega
  rw [byteOf_extractLsb'_high _ hplace, byteOf_extractLsb'_low _ hplace]
  constructor
  · refine hbyte _ (by split <;> omega) _ ?_
    cases le
    · exact (by omega : 16 - 1 - k = 8 + (7 - k))
    · rfl
  · refine hbyte _ (by split <;> omega) _ ?_
    cases le
    · exact (by omega : 16 - 1 - (8 + k) = 7 - k)
    · rfl

/-- Settles O40: the next state holds the two halves of the quadword, whose bytes are those read. -/
theorem loadQuadword : Obligations.LoadQuadword := by
  intro rtp ra dq s a bs heven hne ha hp hread
  have hl : bs.length = 16 := by
    cases ha
    exact (readAll_length hread).trans (span_length ..)
  refine ⟨_, (exec_lq_eq_load heven hne ha).trans (load_of_permitted hp hread _), ?_,
    ((frame_setX ..).trans (frame_setX ..)).advance, fun k hk => ?_⟩
  · rw [advance_pc, setX_nextPc, setX_nextPc]
  · rw [advance_x, advance_x, setX_x_ne _ _ (ne_succ rtp), setX_x_same, setX_x_same]
    exact bytes_of_quadword s.le hl hk

/-! ### The multiple load -/

theorem eq_add_ofNat_sub {r q : RegNum} (h : r.toNat ≤ q.toNat) : q = r + BitVec.ofNat 5 (q.toNat - r.toNat) := by
  refine BitVec.eq_of_toNat_eq ?_
  rw [BitVec.toNat_add, BitVec.toNat_ofNat]
  omega

/-- The registers from r to the last one are those numbered r or more. -/
theorem mem_regsFrom_last_iff (r q : RegNum) : q ∈ regsFrom r (32 - r.toNat) ↔ r.toNat ≤ q.toNat := by
  simp only [regsFrom, List.mem_map, List.mem_range]
  constructor
  · rintro ⟨k, hk, rfl⟩
    rw [BitVec.toNat_add, BitVec.toNat_ofNat]
    omega
  · exact fun h => ⟨q.toNat - r.toNat, by omega, (eq_add_ofNat_sub h).symm⟩

/-- A packed word has the four bytes of its place in the string, the first the most significant, and zeros above (R200). -/
theorem byteOf_packWord (bs : List Byte) (k : Nat) {j : Nat} (hj : j < 4) :
    byteOf (packWord bs k) (3 - j) = bs.getD (4 * k + j) 0 := by
  rw [byteOf, packWord, byte_joinBytes 64 _ (by omega)]
  interval_cases j <;> rfl

theorem packWord_toNat_lt (bs : List Byte) (k : Nat) : (packWord bs k).toNat < 2 ^ 32 := joinBytes_toNat_lt 64 _

/-- Settles O41: the next state holds the packed words, each in its register. -/
theorem loadMultiple : Obligations.LoadMultiple := by
  intro rt ra d s a bs hform ha hp hread
  refine ⟨_, (exec_lmw_eq_load hform ha).trans (load_of_permitted hp hread _),
    nextPc_of_msr_pc (setWords_msr ..) (setWords_pc ..), (frame_setWords ..).advance, mem_regsFrom_last_iff rt,
    fun r hr => ?_⟩
  have hword : (s.setWords rt (32 - rt.toNat) bs).advance.x r = packWord bs (r.toNat - rt.toNat) := by
    rw [advance_x]
    conv_lhs => rw [eq_add_ofNat_sub hr]
    exact setWords_x s rt _ bs (by omega) (by omega)
  rw [hword]
  exact ⟨packWord_toNat_lt bs _, fun j hj => byteOf_packWord bs _ hj⟩

end Sys2Proof.Machine
end

section
/-!
The stores: `stb` and `std` (O43), the byte-reverse stores (O44), `stq` (O45), `stmw` (O46) and `dcbz` (O47), each as the
state after a permitted store, and the bytes it holds.
-/
namespace Sys2Proof.Machine

/-- t is s after a store of the bytes `bs` at the addresses `addrs`: they are read back, and nothing else has changed. -/
structure AfterStore (s t : State) (addrs : List Nat) (bs : List Byte) : Prop where
  pc : t.pc = s.nextPc
  frame : Frame s t [] [] [] addrs
  bytes : t.mem.readAll addrs = some bs

theorem afterStore_of_next {s t : State} {ea : Addr} {aligned : Bool} {addrs : List Nat} {bs : List Byte}
    (h : s.store ea aligned addrs bs = .next t) (hl : bs.length = addrs.length) (hn : addrs.Nodup) :
    AfterStore s t addrs bs where
  pc := by
    obtain ⟨-, rfl⟩ := (store_eq_next_iff ..).mp h
    exact writeCells_nextPc ..
  frame := frame_of_store h hl
  bytes := by
    obtain ⟨-, rfl⟩ := (store_eq_next_iff ..).mp h
    exact readAll_writeAll s.mem addrs bs hn hl

/-- An instruction that is a permitted store of one byte for each of different addresses ends in the state after it. -/
theorem exists_afterStore {i : Instr} {s : State} {a : DataAccess} {addrs : List Nat} {bs : List Byte}
    (h : exec i s = s.store a.ea (a.aligned s) a.bytes bs) (hp : a.permitted s) (haddrs : a.bytes = addrs)
    (hl : bs.length = addrs.length) (hn : addrs.Nodup) : ∃ t, exec i s = .next t ∧ AfterStore s t addrs bs := by
  subst haddrs
  have hnext := store_of_permitted hp bs
  exact ⟨_, h.trans hnext, afterStore_of_next hnext hl hn⟩

theorem read_of_readAll {m : Memory} {addrs : List Nat} {bs : List Byte} (h : m.readAll addrs = some bs) {k : Nat}
    (hk : k < addrs.length) : m.read (addrs[k]) = some (bs.getD k 0) := by
  have hlen := readAll_length h
  have hget := congrArg (·[k]?) ((readAll_eq_some_iff m addrs bs).mp h)
  simpa [hk, hlen, List.getD_eq_getElem?_getD] using hget

/-- After a store to the n bytes from EA on, the byte at offset k is the k-th stored. -/
theorem AfterStore.read_byteAddr {s t : State} {ea : Addr} {n : Nat} {bs : List Byte} (h : AfterStore s t (s.span ea n) bs)
    {k : Nat} (hk : k < n) : t.mem.read (s.byteAddr ea k).toNat = some (bs.getD k 0) := by
  have hread := read_of_readAll h.bytes (k := k) (by rwa [span_length])
  simpa [State.span] using hread

/-- Settles O43: RS's low-order bytes are laid out in the byte order of the mode. -/
theorem plainStores : Obligations.PlainStores := by
  intro rs ra s i ea n a hi ha hp
  have hn : n ≤ 8 := by omega
  have hbytes : a.bytes = s.span ea n := by
    cases (dataAccess_plainStore hi).symm.trans ha
    rfl
  obtain ⟨t, ht, hafter⟩ := exists_afterStore (exec_plainStore_eq_store hi ha) hp hbytes
    ((toStorage_length ..).trans (span_length ..).symm) (span_nodup s ea n (by omega))
  refine ⟨t, ht, hafter.pc, hafter.frame, fun k hk => ?_⟩
  rw [hafter.read_byteAddr hk, toStorage_getD _ _ hk]
  rfl

/-- A reversed value laid out in the byte order of the mode has the byte of the other order at each offset (R237). -/
theorem toStorage_rev_getD (le : Bool) (v : DWord) {n k : Nat} (hk : k < n) (hn : n ≤ 8) :
    (toStorage le n (rev n v)).getD k 0 = byteOf v (bytePlace (!le) n k) := by
  have hplace : n - 1 - bytePlace le n k = bytePlace (!le) n k := by simpa using bytePlace_not (!le) hk
  rw [toStorage_getD _ _ hk, ← hplace]
  exact byteOf_rev v (bytePlace_lt le hk) hn

/-- Settles O44: RS's bytes are laid out reversed. -/
theorem byteReverseStores : Obligations.ByteReverseStores := by
  intro rs ra rb s i n a hi ha hp
  have hn : n ≤ 8 := by omega
  have hbytes : a.bytes = s.span (s.eaX ra rb) n := by
    cases (dataAccess_reverseStore hi s).symm.trans ha
    rfl
  obtain ⟨t, ht, hafter⟩ := exists_afterStore (exec_reverseStore_eq_store hi ha) hp hbytes
    ((toStorage_length ..).trans (span_length ..).symm) (span_nodup s _ n (by omega))
  refine ⟨t, ht, hafter.pc, hafter.frame, fun k hk => ?_⟩
  rw [hafter.read_byteAddr hk, toStorage_rev_getD _ _ hk hn, bytePlace_not_eq]

/-! ### The quadword store -/

/-- The bytes of a quadword as storage takes them: those of the even register first in Big-Endian mode and last in
Little-Endian mode (R236). -/
theorem toStorage_quadword_getD (le : Bool) (even odd : DWord) {k : Nat} (hk : k < 8) :
    (toStorage le 16 (even ++ odd)).getD (if le then 8 + k else k) 0 = byteOf even (if le then k else 7 - k) ∧
      (toStorage le 16 (even ++ odd)).getD (if le then k else 8 + k) 0 = byteOf odd (if le then k else 7 - k) := by
  cases le
  · have hhigh : 8 * (16 - 1 - k) - 64 = 8 * (7 - k) := by omega
    have hlow : 16 - 1 - (8 + k) = 7 - k := by omega
    simp only [Bool.false_eq_true, if_false]
    rw [toStorage_getD _ _ (by omega), toStorage_getD _ _ (by omega)]
    simp only [bytePlace, Bool.false_eq_true, if_false, hlow]
    exact ⟨(slice_append_high even odd _ (by omega)).trans (by rw [hhigh, byteOf]), slice_append_low even odd _ (by omega)⟩
  · have hhigh : 8 * (8 + k) - 64 = 8 * k := by omega
    simp only [if_true]
    rw [toStorage_getD _ _ (by omega), toStorage_getD _ _ (by omega)]
    simp only [bytePlace, if_true]
    exact ⟨(slice_append_high even odd _ (by omega)).trans (by rw [hhigh, byteOf]), slice_append_low even odd _ (by omega)⟩

/-- Settles O45: the pair is laid out as one quadword. -/
theorem storeQuadword : Obligations.StoreQuadword := by
  intro rsp ra ds s a heven ha hp
  have hbytes : a.bytes = s.span (s.eaDS ra ds) 16 := by
    cases ha
    rfl
  obtain ⟨t, ht, hafter⟩ := exists_afterStore (exec_stq_eq_store heven ha) hp hbytes
    ((toStorage_length ..).trans (span_length ..).symm) (span_nodup s _ _ (by decide))
  refine ⟨t, ht, hafter.pc, hafter.frame, fun k hk => ?_⟩
  obtain ⟨heven', hodd'⟩ := toStorage_quadword_getD s.le (s.x rsp) (s.x (rsp + 1)) hk
  rw [hafter.read_byteAddr (by split <;> omega), hafter.read_byteAddr (by split <;> omega), heven', hodd']
  exact ⟨rfl, rfl⟩

/-! ### The multiple store -/

/-- The bytes of the j-th place of the m-th group, in a list of groups of one length. -/
theorem getD_flatMap_range {α : Type} (f : Nat → List α) (d : α) {c n m j : Nat} (hc : ∀ k, (f k).length = c) (hm : m < n)
    (hj : j < c) : ((List.range n).flatMap f).getD (c * m + j) d = (f m).getD j d := by
  induction n with
  | zero => omega
  | succ n ih =>
    have hlen : ((List.range n).flatMap f).length = c * n := by simp [hc, Nat.mul_comm]
    rw [List.range_succ, List.flatMap_append]
    by_cases hmn : m < n
    · have hlt : c * m + j < c * n := calc
        c * m + j < c * m + c := Nat.add_lt_add_left hj _
        _ = c * (m + 1) := (Nat.mul_succ c m).symm
        _ ≤ c * n := Nat.mul_le_mul_left c hmn
      rw [List.getD_append _ _ _ _ (by rwa [hlen]), ih hmn]
    · obtain rfl : m = n := by omega
      rw [List.getD_append_right _ _ _ _ (by omega), hlen, Nat.add_sub_cancel_left]
      simp

/-- The word of register r among the bytes of a multiple store (R242). -/
theorem multipleBytes_getD (s : State) {rs r : RegNum} (h : rs.toNat ≤ r.toNat) {j : Nat} (hj : j < 4) :
    (s.multipleBytes rs).getD (4 * (r.toNat - rs.toNat) + j) 0 = byteOf (s.x r) (3 - j) := by
  rw [State.multipleBytes, getD_flatMap_range _ _ (fun _ => bytesOf_length 4 _) (by omega) hj, ← eq_add_ofNat_sub h,
    bytesOf_getD _ hj]
  rfl

/-- Settles O46: the low-order words are laid out one after another. -/
theorem storeMultiple : Obligations.StoreMultiple := by
  intro rs ra d s a ha hp
  have hbytes : a.bytes = s.span (s.eaD ra d) (4 * (32 - rs.toNat)) := by
    cases ha
    rfl
  obtain ⟨t, ht, hafter⟩ := exists_afterStore (exec_stmw_eq_store ha) hp hbytes
    ((multipleBytes_length ..).trans (span_length ..).symm) (span_nodup s _ _ (by omega))
  refine ⟨t, ht, hafter.pc, hafter.frame, fun r hr j hj => ?_⟩
  rw [hafter.read_byteAddr (by omega), multipleBytes_getD s hr hj]

/-! ### The cache block -/

theorem dcbzBlock_pos (p : Params) : 0 < p.dcbzBlock := Nat.mul_pos (by decide) (Nat.two_pow_pos _)

/-- The block that holds EA is every address with EA's quotient by the block size (R269). -/
theorem mem_blockSpan_iff (s : State) (ea : Addr) (a : Nat) :
    a ∈ s.blockSpan ea ↔ a / s.params.dcbzBlock = ea.toNat / s.params.dcbzBlock := by
  have hpos := dcbzBlock_pos s.params
  simp only [State.blockSpan, State.blockStart, List.mem_map, List.mem_range]
  constructor
  · rintro ⟨k, hk, rfl⟩
    rw [Nat.mul_comm, Nat.mul_add_div hpos, Nat.div_eq_of_lt hk, Nat.add_zero]
  · intro h
    exact ⟨a % s.params.dcbzBlock, Nat.mod_lt _ hpos, by rw [← h, Nat.div_add_mod']⟩

theorem blockSpan_nodup (s : State) (ea : Addr) : (s.blockSpan ea).Nodup :=
  List.Nodup.map (fun _ _ h => Nat.add_left_cancel h) List.nodup_range

/-- Settles O47: the block is a store of zeros with no alignment check. -/
theorem dcbzZeroesBlock : Obligations.DcbzZeroesBlock := by
  rintro ra rb s _ rfl hdr hexist
  have hp : (⟨.store, s.eaX ra rb, s.blockSpan (s.eaX ra rb), 1, false, false⟩ : DataAccess).permitted s := by
    rw [DataAccess.permitted_iff, aligned_plain, alignOk_one, admits_iff]
    exact ⟨hdr, rfl, fun a ha => hexist a ((mem_blockSpan_iff s _ a).mp ha)⟩
  obtain ⟨t, ht, hafter⟩ := exists_afterStore (exec_dcbz_eq_store rfl) hp rfl (by simp) (blockSpan_nodup s _)
  refine ⟨t, ht, hafter.pc, hafter.frame, fun a => ⟨mem_blockSpan_iff s _ a, fun ha => ?_⟩⟩
  obtain ⟨k, hk, rfl⟩ := List.mem_iff_getElem.mp ((mem_blockSpan_iff s _ a).mpr ha)
  rw [read_of_readAll hafter.bytes hk]
  simp [List.getD_eq_getElem?_getD]

end Sys2Proof.Machine
end

section
/-!
Loads after stores (O49, O50): a store leaves the next load of its bytes permitted, at the same addresses, with the bytes
stored; the value is then read off the bytes.
-/
namespace Sys2Proof.Machine

/-! ### Accesses in two states with the same registers and modes -/

section SameModes

variable {s t : State}

theorem ra0_congr (hx : ∀ r, t.x r = s.x r) (ra : RegNum) : t.ra0 ra = s.ra0 ra := by rw [State.ra0, State.ra0, hx]

theorem eaX_congr (hmsr : t.msr = s.msr) (hx : ∀ r, t.x r = s.x r) (ra rb : RegNum) : t.eaX ra rb = s.eaX ra rb := by
  rw [State.eaX, State.eaX, truncate_of_msr hmsr, ra0_congr hx, hx]

theorem eaD_congr (hmsr : t.msr = s.msr) (hx : ∀ r, t.x r = s.x r) (ra : RegNum) (d : BitVec 16) :
    t.eaD ra d = s.eaD ra d := by
  rw [State.eaD, State.eaD, truncate_of_msr hmsr, ra0_congr hx]

theorem eaDQ_congr (hmsr : t.msr = s.msr) (hx : ∀ r, t.x r = s.x r) (ra : RegNum) (dq : BitVec 12) :
    t.eaDQ ra dq = s.eaDQ ra dq := by
  rw [State.eaDQ, State.eaDQ, truncate_of_msr hmsr, ra0_congr hx]

/-- The checks of an access depend on the MSR and the parameters alone (R81). -/
theorem permitted_congr (hmsr : t.msr = s.msr) (hparams : t.params = s.params) (a : DataAccess) :
    a.permitted t ↔ a.permitted s := by
  simp only [DataAccess.permitted, DataAccess.misaligned, State.dr, State.le, hmsr, hparams]

end SameModes

section AfterStore

variable {s t : State} {addrs : List Nat} {bs : List Byte}

theorem AfterStore.x (h : AfterStore s t addrs bs) (r : RegNum) : t.x r = s.x r := h.frame.gpr r List.not_mem_nil

theorem AfterStore.le (h : AfterStore s t addrs bs) : t.le = s.le := by rw [State.le, State.le, h.frame.msr]

/-- A store that goes on has passed its checks. -/
theorem permitted_of_store {a : DataAccess} (h : s.store a.ea (a.aligned s) a.bytes bs = .next t) : a.permitted s := by
  obtain ⟨hchecks, -⟩ := (store_eq_next_iff ..).mp h
  exact (a.permitted_iff s).mpr hchecks

/-- A load of the bytes just stored is permitted and reads them. -/
theorem AfterStore.loadable {ea : Addr} {n unit : Nat} {always : Bool} (h : AfterStore s t (s.span ea n) bs)
    (hp : (⟨.store, ea, s.span ea n, unit, always, false⟩ : DataAccess).permitted s) :
    (⟨.load, ea, t.span ea n, unit, always, false⟩ : DataAccess).permitted t ∧
      t.mem.readAll (t.span ea n) = some bs := by
  rw [span_of_msr h.frame.msr]
  exact ⟨(permitted_congr h.frame.msr h.frame.params _).mpr hp, h.bytes⟩

end AfterStore

/-- A byte-reverse store and load of one width at one address: RS's low-order bytes come back. -/
theorem reverseStore_then_reverseLoad {rs ra rb rt : RegNum} {s t : State} {n : Nat} {st ld : Instr}
    (hst : IsReverseStore rs ra rb st n) (hld : IsReverseLoad rt ra rb ld n) (h : exec st s = .next t) :
    ∃ u, exec ld t = .next u ∧ (u.x rt).toNat = (s.x rs).toNat % 2 ^ (8 * n) := by
  have hn : n ≤ 8 := by omega
  have hstore := (exec_reverseStore_eq_store hst (dataAccess_reverseStore hst s)).symm.trans h
  have hafter := afterStore_of_next hstore ((toStorage_length ..).trans (span_length ..).symm) (span_nodup s _ n (by omega))
  obtain ⟨hp, hread⟩ := hafter.loadable (permitted_of_store hstore)
  have haccess := dataAccess_reverseLoad hld t
  rw [eaX_congr hafter.frame.msr hafter.x] at haccess
  obtain ⟨u, hu, -, -, hlt, hbytes⟩ := byteReverseLoads rt ra rb t ld n _ _ hld haccess hp hread
  refine ⟨u, hu, toNat_eq_mod_of_bytes hlt fun k hk => ?_⟩
  have hplace := bytePlace_lt (!s.le) hk
  have hbyte := hbytes _ hplace
  rwa [← bytePlace_not_eq, hafter.le, toStorage_rev_getD _ _ hplace hn, bytePlace_bytePlace _ hk] at hbyte

theorem even_of_exec_stq {rsp ra : RegNum} {ds : BitVec 14} {s t : State} (h : exec (.stq rsp ra ds) s = .next t) :
    rsp.toNat % 2 = 0 := by
  change execStq rsp ra ds s = .next t at h
  unfold execStq at h
  split at h
  · cases h
  · next hodd => exact (getLsbD_zero_eq_false_iff rsp).mp (by simpa using hodd)

/-- A pair stored and loaded at one address comes back (R194, R236). -/
theorem stq_then_lq {rsp ra rtp : RegNum} {ds : BitVec 14} {dq : BitVec 12} {s t : State} (heven : rtp.toNat % 2 = 0)
    (hne : rtp ≠ ra) (hea : s.eaDS ra ds = s.eaDQ ra dq) (h : exec (.stq rsp ra ds) s = .next t) :
    ∃ u, exec (.lq rtp ra dq) t = .next u ∧ u.x rtp = s.x rsp ∧ u.x (rtp + 1) = s.x (rsp + 1) := by
  have hstore := (exec_stq_eq_store (even_of_exec_stq h) rfl).symm.trans h
  have hafter := afterStore_of_next hstore ((toStorage_length ..).trans (span_length ..).symm) (span_nodup s _ _ (by decide))
  obtain ⟨hp, hread⟩ := hafter.loadable (permitted_of_store hstore)
  rw [hea, ← eaDQ_congr hafter.frame.msr hafter.x] at hp hread
  obtain ⟨u, hu, -, -, hbytes⟩ := loadQuadword rtp ra dq t _ _ heven hne rfl hp hread
  have hpair : ∀ k < 8, byteOf (u.x rtp) k = byteOf (s.x rsp) k ∧
      byteOf (u.x (rtp + 1)) k = byteOf (s.x (rsp + 1)) k := by
    intro k hk
    have hplace := bytePlace_lt s.le hk
    have hback : (if s.le then bytePlace s.le 8 k else 7 - bytePlace s.le 8 k) = k := bytePlace_bytePlace s.le hk
    obtain ⟨hfirst, hsecond⟩ := hbytes _ hplace
    obtain ⟨hfirst', hsecond'⟩ := toStorage_quadword_getD s.le (s.x rsp) (s.x (rsp + 1)) hplace
    rw [hafter.le, hback] at hfirst hsecond
    rw [hback] at hfirst' hsecond'
    exact ⟨hfirst.trans hfirst', hsecond.trans hsecond'⟩
  exact ⟨u, hu, eq_of_bytes fun k hk => (hpair k hk).1, eq_of_bytes fun k hk => (hpair k hk).2⟩

/-- Settles O49: each pair of widths is a reverse store and load, or the quadword pair. -/
theorem storeThenLoad : Obligations.StoreThenLoad := by
  refine ⟨fun rs ra rb rt s t n st ld hpair h => ?_, fun _ _ _ _ _ _ _ heven hne hea h => stq_then_lq heven hne hea h⟩
  rcases hpair with ⟨rfl, rfl, rfl⟩ | ⟨rfl, rfl, rfl⟩ | ⟨rfl, rfl, rfl⟩
  · exact reverseStore_then_reverseLoad (.inl ⟨rfl, rfl⟩) (.inl ⟨rfl, rfl⟩) h
  · exact reverseStore_then_reverseLoad (.inr (.inl ⟨rfl, rfl⟩)) (.inr (.inl ⟨rfl, rfl⟩)) h
  · exact reverseStore_then_reverseLoad (.inr (.inr ⟨rfl, rfl⟩)) (.inr (.inr ⟨rfl, rfl⟩)) h

/-- Settles O50: the bytes of the doubleword, stored in the byte order of the mode, are read reversed or one of them alone. -/
theorem mixedWidths : Obligations.MixedWidths := by
  intro rs ra rb rt ds d k s t h
  have hst : IsPlainStore s rs ra (.std rs ra ds) (s.eaDS ra ds) 8 := .inr ⟨ds, rfl, rfl, rfl⟩
  have hstore := (exec_plainStore_eq_store hst rfl).symm.trans h
  have hafter := afterStore_of_next hstore ((toStorage_length ..).trans (span_length ..).symm) (span_nodup s _ 8 (by decide))
  obtain ⟨hp, hread⟩ := hafter.loadable (permitted_of_store hstore)
  refine ⟨fun hea => ?_, fun hk hea => ?_⟩
  · rw [← hea, ← eaX_congr hafter.frame.msr hafter.x] at hp hread
    obtain ⟨u, hu, -, -, -, hbytes⟩ :=
      byteReverseLoads rt ra rb t (.ldbrx rt ra rb) 8 _ _ (.inr (.inr ⟨rfl, rfl⟩)) rfl hp hread
    refine ⟨u, hu, fun j hj => ?_⟩
    have hplace := bytePlace_lt (!s.le) hj
    have hbyte := hbytes _ hplace
    rw [← bytePlace_not_eq, hafter.le, bytePlace_bytePlace _ hj, toStorage_getD _ _ hplace, ← bytePlace_not _ hplace,
      bytePlace_bytePlace _ hj] at hbyte
    exact hbyte
  · obtain ⟨hdr, -, hexist⟩ := hp
    have hea' : t.eaD ra d = s.byteAddr (s.eaDS ra ds) k := (eaD_congr hafter.frame.msr hafter.x ra d).trans hea
    have hbyte := hafter.read_byteAddr hk
    have hmem : (s.byteAddr (s.eaDS ra ds) k).toNat ∈ t.span (s.eaDS ra ds) 8 := by
      rw [span_of_msr hafter.frame.msr]
      exact List.mem_map.mpr ⟨k, List.mem_range.mpr hk, rfl⟩
    rw [← hea', toStorage_getD _ _ hk] at hbyte
    rw [← hea'] at hmem
    obtain ⟨u, hu, -, hvalue, -⟩ := byteLoads rt ra t (.lbz rt ra d) _ _ (.inl ⟨d, rfl, rfl⟩) hdr (hexist _ hmem) hbyte
    exact ⟨u, hu, hvalue⟩

end Sys2Proof.Machine
end

section
/-!
Decoding and encoding (O1, O2, O3): an instruction word decodes to exactly the instruction it stands for.
-/
namespace Sys2Proof

/-! ### A form is the word whose slices its places are -/

section Forms

variable {w : IWord} {po : BitVec 6}

theorem formX_eq_iff {a b c : BitVec 5} {xo : BitVec 10} {r : Bool} :
    formX po a b c xo r = w ↔ w.po = po ∧ w.f6 = a ∧ w.f11 = b ∧ w.f16 = c ∧ w.xo = xo ∧ w.b31 = r := by
  constructor
  · rintro rfl
    exact ⟨formX_po .., formX_f6 .., formX_f11 .., formX_f16 .., formX_xo .., formX_b31 ..⟩
  · rintro ⟨rfl, rfl, rfl, rfl, rfl, rfl⟩
    exact formX_of_slices w

theorem formD_eq_iff {a b : BitVec 5} {imm : BitVec 16} :
    formD po a b imm = w ↔ w.po = po ∧ w.f6 = a ∧ w.f11 = b ∧ w.imm16 = imm := by
  constructor
  · rintro rfl
    exact ⟨formD_po .., formD_f6 .., formD_f11 .., formD_imm16 ..⟩
  · rintro ⟨rfl, rfl, rfl, rfl⟩
    exact formD_of_slices w

theorem formDS_eq_iff {a b : BitVec 5} {ds : BitVec 14} {xo : BitVec 2} :
    formDS po a b ds xo = w ↔ w.po = po ∧ w.f6 = a ∧ w.f11 = b ∧ w.imm14 = ds ∧ w.xo2 = xo := by
  constructor
  · rintro rfl
    exact ⟨formDS_po .., formDS_f6 .., formDS_f11 .., formDS_imm14 .., formDS_xo2 ..⟩
  · rintro ⟨rfl, rfl, rfl, rfl, rfl⟩
    exact formDS_of_slices w

theorem formDQ_eq_iff {a b : BitVec 5} {dq : BitVec 12} :
    formDQ po a b dq = w ↔ w.po = po ∧ w.f6 = a ∧ w.f11 = b ∧ w.imm12 = dq ∧ w.low4 = 0 := by
  constructor
  · rintro rfl
    exact ⟨formDQ_po .., formDQ_f6 .., formDQ_f11 .., formDQ_imm12 .., formDQ_low4 ..⟩
  · rintro ⟨rfl, rfl, rfl, rfl, h4⟩
    exact formDQ_of_slices w h4

theorem formI_eq_iff {li : BitVec 24} {aa lk : Bool} :
    formI po li aa lk = w ↔ w.po = po ∧ w.imm24 = li ∧ w.b30 = aa ∧ w.b31 = lk := by
  constructor
  · rintro rfl
    exact ⟨formI_po .., formI_imm24 .., formI_b30 .., formI_b31 ..⟩
  · rintro ⟨rfl, rfl, rfl, rfl⟩
    exact formI_of_slices w

theorem formB_eq_iff {bo bi : BitVec 5} {bd : BitVec 14} {aa lk : Bool} :
    formB po bo bi bd aa lk = w ↔
      w.po = po ∧ w.f6 = bo ∧ w.f11 = bi ∧ w.imm14 = bd ∧ w.b30 = aa ∧ w.b31 = lk := by
  constructor
  · rintro rfl
    exact ⟨formB_po .., formB_f6 .., formB_f11 .., formB_imm14 .., formB_b30 .., formB_b31 ..⟩
  · rintro ⟨rfl, rfl, rfl, rfl, rfl, rfl⟩
    exact formB_of_slices w

theorem formM_eq_iff {rs ra sh mb me : BitVec 5} {rc : Bool} :
    formM po rs ra sh mb me rc = w ↔
      w.po = po ∧ w.f6 = rs ∧ w.f11 = ra ∧ w.f16 = sh ∧ w.mb = mb ∧ w.me = me ∧ w.b31 = rc := by
  constructor
  · rintro rfl
    exact ⟨formM_po .., formM_f6 .., formM_f11 .., formM_f16 .., formM_mb .., formM_me .., formM_b31 ..⟩
  · rintro ⟨rfl, rfl, rfl, rfl, rfl, rfl, rfl⟩
    exact formM_of_slices w

theorem formSC_eq_iff {lev : BitVec 7} :
    formSC po lev = w ↔ w.po = po ∧ w.sc6 = 0 ∧ w.lev = lev ∧ w.sc27 = 2 := by
  constructor
  · rintro rfl
    exact ⟨formSC_po .., formSC_sc6 .., formSC_lev .., formSC_sc27 ..⟩
  · rintro ⟨rfl, h6, rfl, h27⟩
    exact formSC_of_slices w h6 h27

end Forms

/-- The word is that of the instruction, which has an encoding (R114, R116). -/
def StandsFor (w : IWord) (i : Instr) : Prop := i.WellFormed ∧ encode i = w

/-! ### From the instruction to the word and back -/

/-- The per-instruction laws of Laws/PerInstr.lean, of every instruction. -/
theorem decode_encode (i : Instr) (h : i.WellFormed) : decode (encode i) = some i := by
  cases i with
  | cdtbcd => exact Laws.EncodeDecode.cdtbcd _ _ h
  | cbcdtd => exact Laws.EncodeDecode.cbcdtd _ _ h
  | addg6s => exact Laws.EncodeDecode.addg6s _ _ _ h
  | b => exact Laws.EncodeDecode.b _ _ _ h
  | bc => exact Laws.EncodeDecode.bc _ _ _ _ _ h
  | bclr => exact Laws.EncodeDecode.bclr _ _ _ _ h
  | bcctr => exact Laws.EncodeDecode.bcctr _ _ _ _ h
  | bctar => exact Laws.EncodeDecode.bctar _ _ _ _ h
  | cmpi => exact Laws.EncodeDecode.cmpi _ _ _ _ h
  | cmp => exact Laws.EncodeDecode.cmp _ _ _ _ h
  | cmpli => exact Laws.EncodeDecode.cmpli _ _ _ _ h
  | cmpl => exact Laws.EncodeDecode.cmpl _ _ _ _ h
  | crand => exact Laws.EncodeDecode.crand _ _ _ h
  | addi => exact Laws.EncodeDecode.addi _ _ _ h
  | lbzcix => exact Laws.EncodeDecode.lbzcix _ _ _ h
  | lbz => exact Laws.EncodeDecode.lbz _ _ _ h
  | lq => exact Laws.EncodeDecode.lq _ _ _ h
  | lhbrx => exact Laws.EncodeDecode.lhbrx _ _ _ h
  | lwbrx => exact Laws.EncodeDecode.lwbrx _ _ _ h
  | ldbrx => exact Laws.EncodeDecode.ldbrx _ _ _ h
  | lmw => exact Laws.EncodeDecode.lmw _ _ _ h
  | andiRc => exact Laws.EncodeDecode.andiRc _ _ _ h
  | andisRc => exact Laws.EncodeDecode.andisRc _ _ _ h
  | rlwinm => exact Laws.EncodeDecode.rlwinm _ _ _ _ _ _ h
  | slw => exact Laws.EncodeDecode.slw _ _ _ _ h
  | stb => exact Laws.EncodeDecode.stb _ _ _ h
  | std => exact Laws.EncodeDecode.std _ _ _ h
  | stq => exact Laws.EncodeDecode.stq _ _ _ h
  | sthbrx => exact Laws.EncodeDecode.sthbrx _ _ _ h
  | stwbrx => exact Laws.EncodeDecode.stwbrx _ _ _ h
  | stdbrx => exact Laws.EncodeDecode.stdbrx _ _ _ h
  | stmw => exact Laws.EncodeDecode.stmw _ _ _ h
  | twi => exact Laws.EncodeDecode.twi _ _ _ h
  | mtspr => exact Laws.EncodeDecode.mtspr _ _ h
  | mfspr => exact Laws.EncodeDecode.mfspr _ _ h
  | mcrxrx => exact Laws.EncodeDecode.mcrxrx _ h
  | mtmsr => exact Laws.EncodeDecode.mtmsr _ _ h
  | dcbz => exact Laws.EncodeDecode.dcbz _ _ h
  | tlbie => exact Laws.EncodeDecode.tlbie _ _ _ _ _ h
  | tlbiel => exact Laws.EncodeDecode.tlbiel _ _ _ _ _ h
  | tlbsync => exact Laws.EncodeDecode.tlbsync h
  | lswi => exact Laws.EncodeDecode.lswi _ _ _ h
  | sc => exact Laws.EncodeDecode.sc _ h
  | setvl => exact Laws.EncodeDecode.setvl h

/-- Settles O2: every instruction has its own round trip. -/
theorem decodeOfEncode : Obligations.DecodeOfEncode := decode_encode

theorem StandsFor.decode {w : IWord} {i : Instr} (h : StandsFor w i) : decode w = some i := by
  obtain ⟨hwf, rfl⟩ := h
  exact decode_encode i hwf

/-! ### From the word to the instruction and back

Each line of the decoder tests the slices that the instruction's form fixes and takes its operands from the others, so the
form of all the slices is the word. -/

section Word

variable {w : IWord} {i : Instr}

/-- The word in D form, from what the decoder has read of it. -/
theorem formD_eq {po : BitVec 6} {a : BitVec 5} (hpo : w.po.toNat = po.toNat) (ha : a = w.f6) :
    formD po a w.f11 w.imm16 = w :=
  formD_eq_iff.mpr ⟨BitVec.eq_of_toNat_eq hpo, ha.symm, rfl, rfl⟩

/-- The word in X form, from what the decoder has read of it. -/
theorem formX_eq {po : BitVec 6} {a b c : BitVec 5} {xo : BitVec 10} {r : Bool} (hpo : w.po.toNat = po.toNat)
    (ha : a = w.f6) (hb : b = w.f11) (hc : c = w.f16) (hxo : w.xo.toNat = xo.toNat) (hr : w.b31 = r) :
    formX po a b c xo r = w :=
  formX_eq_iff.mpr
    ⟨BitVec.eq_of_toNat_eq hpo, ha.symm, hb.symm, hc.symm, BitVec.eq_of_toNat_eq hxo, hr⟩

theorem standsFor_some (j : Instr) (h : some j = some i) (hj : StandsFor w j) : StandsFor w i :=
  Option.some.inj h ▸ hj

/-- A line of the decoder that requires `c` of the word. -/
theorem standsFor_guard {c : Prop} [Decidable c] (j : Instr) (h : (if c then some j else none) = some i)
    (hj : c → StandsFor w j) : StandsFor w i := by
  obtain ⟨hc, hsome⟩ := Option.ite_none_right_eq_some.mp h
  exact standsFor_some j hsome (hj hc)

theorem standsFor_of_decodeXL (hpo : w.po.toNat = 19) (h : decodeXL w = some i) : StandsFor w i := by
  unfold decodeXL at h
  split at h
  next hxo =>
    exact standsFor_guard (.bclr ..) h fun hbh => ⟨rfl, formX_eq hpo rfl rfl (bhPlace_of_fields _ hbh) hxo rfl⟩
  next hxo => exact standsFor_guard (.crand ..) h fun hb => ⟨rfl, formX_eq hpo rfl rfl rfl hxo hb⟩
  next hxo =>
    exact standsFor_guard (.bcctr ..) h fun hbh => ⟨rfl, formX_eq hpo rfl rfl (bhPlace_of_fields _ hbh) hxo rfl⟩
  next hxo =>
    exact standsFor_guard (.bctar ..) h fun hbh => ⟨rfl, formX_eq hpo rfl rfl (bhPlace_of_fields _ hbh) hxo rfl⟩
  next => cases h

theorem standsFor_of_decodeX (hpo : w.po.toNat = 31) (hb : w.b31 = false) (h : decodeX w = some i) : StandsFor w i := by
  unfold decodeX at h
  split at h
  next hxo => exact standsFor_guard (.cmp ..) h fun h9 => ⟨rfl, formX_eq hpo (cmpPlace_of_fields _ h9) rfl rfl hxo hb⟩
  next hxo => exact standsFor_guard (.cmpl ..) h fun h9 => ⟨rfl, formX_eq hpo (cmpPlace_of_fields _ h9) rfl rfl hxo hb⟩
  next hxo => exact standsFor_some (.addg6s ..) h ⟨rfl, formX_eq hpo rfl rfl rfl hxo hb⟩
  next hxo =>
    exact standsFor_guard (.mtmsr ..) h fun ⟨h11, h16⟩ =>
      ⟨rfl, formX_eq hpo rfl (lPlace_of_fields _ h11) h16.symm hxo hb⟩
  next hxo =>
    exact standsFor_guard (.tlbiel ..) h fun h11 => ⟨rfl, formX_eq hpo rfl (tlbPlace_of_fields _ h11) rfl hxo hb⟩
  next hxo => exact standsFor_guard (.cdtbcd ..) h fun h16 => ⟨rfl, formX_eq hpo rfl rfl h16.symm hxo hb⟩
  next hxo =>
    exact standsFor_guard (.tlbie ..) h fun h11 => ⟨rfl, formX_eq hpo rfl (tlbPlace_of_fields _ h11) rfl hxo hb⟩
  next hxo => exact standsFor_guard (.cbcdtd ..) h fun h16 => ⟨rfl, formX_eq hpo rfl rfl h16.symm hxo hb⟩
  next hxo => exact standsFor_some (.mfspr ..) h ⟨rfl, formX_eq hpo rfl (sprLow_sprNum _ _) (sprHigh_sprNum _ _) hxo hb⟩
  next hxo => exact standsFor_some (.mtspr ..) h ⟨rfl, formX_eq hpo rfl (sprLow_sprNum _ _) (sprHigh_sprNum _ _) hxo hb⟩
  next hxo => exact standsFor_some (.ldbrx ..) h ⟨rfl, formX_eq hpo rfl rfl rfl hxo hb⟩
  next hxo => exact standsFor_some (.lwbrx ..) h ⟨rfl, formX_eq hpo rfl rfl rfl hxo hb⟩
  next hxo =>
    exact standsFor_guard .tlbsync h fun ⟨h6, h11, h16⟩ => ⟨rfl, formX_eq hpo h6.symm h11.symm h16.symm hxo hb⟩
  next hxo =>
    exact standsFor_guard (.mcrxrx ..) h fun ⟨h9, h11, h16⟩ =>
      ⟨rfl, formX_eq hpo (bfPlace_of_fields _ h9) h11.symm h16.symm hxo hb⟩
  next hxo => exact standsFor_some (.lswi ..) h ⟨rfl, formX_eq hpo rfl rfl rfl hxo hb⟩
  next hxo => exact standsFor_some (.stdbrx ..) h ⟨rfl, formX_eq hpo rfl rfl rfl hxo hb⟩
  next hxo => exact standsFor_some (.stwbrx ..) h ⟨rfl, formX_eq hpo rfl rfl rfl hxo hb⟩
  next hxo => exact standsFor_some (.lhbrx ..) h ⟨rfl, formX_eq hpo rfl rfl rfl hxo hb⟩
  next hxo => exact standsFor_some (.lbzcix ..) h ⟨rfl, formX_eq hpo rfl rfl rfl hxo hb⟩
  next hxo => exact standsFor_some (.sthbrx ..) h ⟨rfl, formX_eq hpo rfl rfl rfl hxo hb⟩
  next hxo => exact standsFor_guard (.dcbz ..) h fun h6 => ⟨rfl, formX_eq hpo h6.symm rfl rfl hxo hb⟩
  next => cases h

theorem standsFor_of_decode (h : decode w = some i) : StandsFor w i := by
  unfold decode at h
  split at h
  next hpo => exact standsFor_some (.twi ..) h ⟨rfl, formD_eq hpo rfl⟩
  next hpo => exact standsFor_guard (.cmpli ..) h fun h9 => ⟨rfl, formD_eq hpo (cmpPlace_of_fields _ h9)⟩
  next hpo => exact standsFor_guard (.cmpi ..) h fun h9 => ⟨rfl, formD_eq hpo (cmpPlace_of_fields _ h9)⟩
  next hpo => exact standsFor_some (.addi ..) h ⟨rfl, formD_eq hpo rfl⟩
  next hpo =>
    exact standsFor_some (.bc ..) h ⟨rfl, formB_eq_iff.mpr ⟨BitVec.eq_of_toNat_eq hpo, rfl, rfl, rfl, rfl, rfl⟩⟩
  next hpo =>
    exact standsFor_guard (.sc ..) h fun ⟨h6, h27⟩ =>
      ⟨rfl, formSC_eq_iff.mpr ⟨BitVec.eq_of_toNat_eq hpo, h6, rfl, h27⟩⟩
  next hpo =>
    exact standsFor_some (.b ..) h ⟨rfl, formI_eq_iff.mpr ⟨BitVec.eq_of_toNat_eq hpo, rfl, rfl, rfl⟩⟩
  next hpo => exact standsFor_of_decodeXL hpo h
  next hpo =>
    exact standsFor_some (.rlwinm ..) h
      ⟨rfl, formM_eq_iff.mpr ⟨BitVec.eq_of_toNat_eq hpo, rfl, rfl, rfl, rfl, rfl, rfl⟩⟩
  next hpo => exact standsFor_some (.andiRc ..) h ⟨rfl, formD_eq hpo rfl⟩
  next hpo => exact standsFor_some (.andisRc ..) h ⟨rfl, formD_eq hpo rfl⟩
  next hpo =>
    split at h
    next hxo => exact standsFor_some (.slw ..) h ⟨rfl, formX_eq hpo rfl rfl rfl hxo rfl⟩
    next =>
      obtain ⟨hb, hX⟩ := Option.ite_none_right_eq_some.mp h
      exact standsFor_of_decodeX hpo hb hX
  next hpo => exact standsFor_some (.lbz ..) h ⟨rfl, formD_eq hpo rfl⟩
  next hpo => exact standsFor_some (.stb ..) h ⟨rfl, formD_eq hpo rfl⟩
  next hpo => exact standsFor_some (.lmw ..) h ⟨rfl, formD_eq hpo rfl⟩
  next hpo => exact standsFor_some (.stmw ..) h ⟨rfl, formD_eq hpo rfl⟩
  next hpo =>
    exact standsFor_guard (.lq ..) h fun h4 => ⟨rfl, formDQ_eq_iff.mpr ⟨BitVec.eq_of_toNat_eq hpo, rfl, rfl, rfl, h4⟩⟩
  next hpo =>
    have hpo : w.po = 62 := BitVec.eq_of_toNat_eq hpo
    split at h
    next hxo => exact standsFor_some (.std ..) h ⟨rfl, formDS_eq_iff.mpr ⟨hpo, rfl, rfl, rfl, hxo⟩⟩
    next => exact standsFor_guard (.stq ..) h fun hxo => ⟨rfl, formDS_eq_iff.mpr ⟨hpo, rfl, rfl, rfl, hxo⟩⟩
  next => cases h

/-- Settles O3: each line of the decoder reads a word back as the form it was written in. -/
theorem encodeOfDecode : Obligations.EncodeOfDecode := fun _ _ => standsFor_of_decode

/-- The decoder answers exactly the instruction a word stands for. -/
theorem decode_eq_some_iff : decode w = some i ↔ StandsFor w i := ⟨standsFor_of_decode, StandsFor.decode⟩

end Word

/-- Settles O1: the decoder is run on each of the words. -/
theorem specWordsDecode : Obligations.SpecWordsDecode := by
  unfold Obligations.SpecWordsDecode
  decide

end Sys2Proof
end

section
/-!
The opcode map (O4): the slices of a word that each mask of R116 fixes, and so the instructions whose words a row selects.
-/
namespace Sys2Proof.Machine

/-! ### Slices of a masked word -/

theorem po_and (v w : IWord) : IWord.po (v &&& w) = v.po &&& w.po := BitVec.extractLsb'_and
theorem f6_and (v w : IWord) : IWord.f6 (v &&& w) = v.f6 &&& w.f6 := BitVec.extractLsb'_and
theorem f11_and (v w : IWord) : IWord.f11 (v &&& w) = v.f11 &&& w.f11 := BitVec.extractLsb'_and
theorem f16_and (v w : IWord) : IWord.f16 (v &&& w) = v.f16 &&& w.f16 := BitVec.extractLsb'_and
theorem xo_and (v w : IWord) : IWord.xo (v &&& w) = v.xo &&& w.xo := BitVec.extractLsb'_and
theorem b31_and (v w : IWord) : IWord.b31 (v &&& w) = (v.b31 && w.b31) := BitVec.getLsbD_and
theorem imm14_and (v w : IWord) : IWord.imm14 (v &&& w) = v.imm14 &&& w.imm14 := BitVec.extractLsb'_and
theorem xo2_and (v w : IWord) : IWord.xo2 (v &&& w) = v.xo2 &&& w.xo2 := BitVec.extractLsb'_and
theorem imm12_and (v w : IWord) : IWord.imm12 (v &&& w) = v.imm12 &&& w.imm12 := BitVec.extractLsb'_and
theorem low4_and (v w : IWord) : IWord.low4 (v &&& w) = v.low4 &&& w.low4 := BitVec.extractLsb'_and
theorem sc6_and (v w : IWord) : IWord.sc6 (v &&& w) = v.sc6 &&& w.sc6 := BitVec.extractLsb'_and
theorem lev_and (v w : IWord) : IWord.lev (v &&& w) = v.lev &&& w.lev := BitVec.extractLsb'_and
theorem sc27_and (v w : IWord) : IWord.sc27 (v &&& w) = v.sc27 &&& w.sc27 := BitVec.extractLsb'_and

/-! ### The reserved bits of the split five-bit places -/

theorem exists_cmpPlace_iff (f : BitVec 5) : (∃ bf l, f = cmpPlace bf l) ↔ f &&& 2#5 = 0#5 := by revert f; decide
theorem exists_bfPlace_iff (f : BitVec 5) : (∃ bf, f = bfPlace bf) ↔ f &&& 3#5 = 0#5 := by revert f; decide
theorem exists_bhPlace_iff (f : BitVec 5) : (∃ bh, f = bhPlace bh) ↔ f &&& 28#5 = 0#5 := by revert f; decide
theorem exists_lPlace_iff (f : BitVec 5) : (∃ l, f = lPlace l) ↔ f &&& 30#5 = 0#5 := by revert f; decide
theorem exists_tlbPlace_iff (f : BitVec 5) : (∃ ric prs r, f = tlbPlace ric prs r) ↔ f &&& 16#5 = 0#5 := by
  revert f; decide

/-! ### The words that a mask selects -/

section Masks

variable {w p : IWord}

theorem and_ones6 (x : BitVec 6) : x &&& 63#6 = x := BitVec.and_allOnes
theorem and_ones5 (x : BitVec 5) : x &&& 31#5 = x := BitVec.and_allOnes
theorem and_ones10 (x : BitVec 10) : x &&& 1023#10 = x := BitVec.and_allOnes

theorem selects_formX_iff (mpo po : BitVec 6) (ma mb mc a b c : BitVec 5) (mxo xo : BitVec 10) (mr r : Bool) :
    OpcodeRow.selects ⟨formX mpo ma mb mc mxo mr, formX po a b c xo r⟩ w ↔
      w.po &&& mpo = po ∧ w.f6 &&& ma = a ∧ w.f11 &&& mb = b ∧ w.f16 &&& mc = c ∧ w.xo &&& mxo = xo ∧
        (w.b31 && mr) = r := by
  rw [OpcodeRow.selects, eq_comm, formX_eq_iff, po_and, f6_and, f11_and, f16_and, xo_and, b31_and, formX_po, formX_f6,
    formX_f11, formX_f16, formX_xo, formX_b31]

/-- The primary opcode alone. -/
theorem selects_po_iff (po : BitVec 6) (hp : p = formX po 0 0 0 0 false) :
    OpcodeRow.selects ⟨0xFC000000, p⟩ w ↔ w.po = po := by
  subst hp
  exact (selects_formX_iff 63 _ 0 0 0 _ _ _ 0 _ false _).trans (by simp [and_ones6])

/-- D form with BF, a reserved bit and L in its first place. -/
theorem selects_cmpD_iff (po : BitVec 6) (hp : p = formX po 0 0 0 0 false) :
    OpcodeRow.selects ⟨0xFC400000, p⟩ w ↔ ∃ bf l ra imm, formD po (cmpPlace bf l) ra imm = w := by
  subst hp
  exact (selects_formX_iff 63 _ 2 0 0 _ _ _ 0 _ false _).trans
    (by simp [formD_eq_iff, and_ones6, ← exists_cmpPlace_iff])

/-- Three operands; bit 31 reserved. -/
theorem selects_X_iff (po : BitVec 6) (xo : BitVec 10) (hp : p = formX po 0 0 0 xo false) :
    OpcodeRow.selects ⟨0xFC0007FF, p⟩ w ↔ ∃ a b c, formX po a b c xo false = w := by
  subst hp
  exact (selects_formX_iff 63 _ 0 0 0 _ _ _ 1023 _ true _).trans (by simp [formX_eq_iff, and_ones6, and_ones10])

/-- Three operands and Rc. -/
theorem selects_Xrc_iff (po : BitVec 6) (xo : BitVec 10) (hp : p = formX po 0 0 0 xo false) :
    OpcodeRow.selects ⟨0xFC0007FE, p⟩ w ↔ ∃ a b c r, formX po a b c xo r = w := by
  subst hp
  exact (selects_formX_iff 63 _ 0 0 0 _ _ _ 1023 _ false _).trans (by simp [formX_eq_iff, and_ones6, and_ones10])

/-- Two operands; bits 16:20 and 31 reserved. -/
theorem selects_Xab_iff (po : BitVec 6) (xo : BitVec 10) (hp : p = formX po 0 0 0 xo false) :
    OpcodeRow.selects ⟨0xFC00FFFF, p⟩ w ↔ ∃ a b, formX po a b 0 xo false = w := by
  subst hp
  exact (selects_formX_iff 63 _ 0 0 31 _ _ _ 1023 _ true _).trans
    (by simp [formX_eq_iff, and_ones6, and_ones5, and_ones10])

/-- Two operands; bits 6:10 and 31 reserved. -/
theorem selects_Xbc_iff (po : BitVec 6) (xo : BitVec 10) (hp : p = formX po 0 0 0 xo false) :
    OpcodeRow.selects ⟨0xFFE007FF, p⟩ w ↔ ∃ b c, formX po 0 b c xo false = w := by
  subst hp
  exact (selects_formX_iff 63 _ 31 0 0 _ _ _ 1023 _ true _).trans
    (by simp [formX_eq_iff, and_ones6, and_ones5, and_ones10])

/-- A branch to a register: three reserved bits and BH in the third place. -/
theorem selects_XL_iff (po : BitVec 6) (xo : BitVec 10) (hp : p = formX po 0 0 0 xo false) :
    OpcodeRow.selects ⟨0xFC00E7FE, p⟩ w ↔ ∃ bo bi bh lk, formX po bo bi (bhPlace bh) xo lk = w := by
  subst hp
  exact (selects_formX_iff 63 _ 0 0 28 _ _ _ 1023 _ false _).trans
    (by simp [formX_eq_iff, and_ones6, and_ones10, ← exists_bhPlace_iff])

/-- X form with BF, a reserved bit and L in its first place. -/
theorem selects_cmpX_iff (po : BitVec 6) (xo : BitVec 10) (hp : p = formX po 0 0 0 xo false) :
    OpcodeRow.selects ⟨0xFC4007FF, p⟩ w ↔ ∃ bf l b c, formX po (cmpPlace bf l) b c xo false = w := by
  subst hp
  exact (selects_formX_iff 63 _ 2 0 0 _ _ _ 1023 _ true _).trans
    (by simp [formX_eq_iff, and_ones6, and_ones10, ← exists_cmpPlace_iff])

/-- BF alone. -/
theorem selects_bf_iff (po : BitVec 6) (xo : BitVec 10) (hp : p = formX po 0 0 0 xo false) :
    OpcodeRow.selects ⟨0xFC7FFFFF, p⟩ w ↔ ∃ bf, formX po (bfPlace bf) 0 0 xo false = w := by
  subst hp
  exact (selects_formX_iff 63 _ 3 31 31 _ _ _ 1023 _ true _).trans
    (by simp [formX_eq_iff, and_ones6, and_ones5, and_ones10, ← exists_bfPlace_iff])

/-- One operand, and four reserved bits and L in the second place. -/
theorem selects_l_iff (po : BitVec 6) (xo : BitVec 10) (hp : p = formX po 0 0 0 xo false) :
    OpcodeRow.selects ⟨0xFC1EFFFF, p⟩ w ↔ ∃ a l, formX po a (lPlace l) 0 xo false = w := by
  subst hp
  exact (selects_formX_iff 63 _ 0 30 31 _ _ _ 1023 _ true _).trans
    (by simp [formX_eq_iff, and_ones6, and_ones5, and_ones10, ← exists_lPlace_iff])

/-- A reserved bit, RIC, PRS and R in the second place. -/
theorem selects_tlb_iff (po : BitVec 6) (xo : BitVec 10) (hp : p = formX po 0 0 0 xo false) :
    OpcodeRow.selects ⟨0xFC1007FF, p⟩ w ↔ ∃ a ric prs r c, formX po a (tlbPlace ric prs r) c xo false = w := by
  subst hp
  exact (selects_formX_iff 63 _ 0 16 0 _ _ _ 1023 _ true _).trans
    (by simp [formX_eq_iff, and_ones6, and_ones10, ← exists_tlbPlace_iff])

/-- No operand. -/
theorem selects_all_iff : OpcodeRow.selects ⟨0xFFFFFFFF, p⟩ w ↔ p = w := by
  rw [eq_comm (a := p)]
  exact iff_of_eq (congrArg (· = p) BitVec.and_allOnes)

/-- DS form; `xo` is its extended opcode. -/
theorem selects_DS_iff (po : BitVec 6) (xo : BitVec 2) (hp : p = formDS po 0 0 0 xo) :
    OpcodeRow.selects ⟨0xFC000003, p⟩ w ↔ ∃ a b ds, formDS po a b ds xo = w := by
  have hxo : w.xo2 &&& 3#2 = w.xo2 := BitVec.and_allOnes
  rw [OpcodeRow.selects, hp, eq_comm, formDS_eq_iff, po_and, f6_and, f11_and, imm14_and, xo2_and]
  dsimp only
  change w.po &&& 63 = po ∧ w.f6 &&& 0 = 0 ∧ w.f11 &&& 0 = 0 ∧ w.imm14 &&& 0 = 0 ∧ w.xo2 &&& 3 = xo ↔ _
  simp [formDS_eq_iff, and_ones6, hxo]

/-- DQ form. -/
theorem selects_DQ_iff (po : BitVec 6) (hp : p = formDQ po 0 0 0) :
    OpcodeRow.selects ⟨0xFC00000F, p⟩ w ↔ ∃ a b dq, formDQ po a b dq = w := by
  have hlow : w.low4 &&& 15#4 = w.low4 := BitVec.and_allOnes
  rw [OpcodeRow.selects, hp, eq_comm, formDQ_eq_iff, po_and, f6_and, f11_and, imm12_and, low4_and]
  dsimp only
  change w.po &&& 63 = po ∧ w.f6 &&& 0 = 0 ∧ w.f11 &&& 0 = 0 ∧ w.imm12 &&& 0 = 0 ∧ w.low4 &&& 15 = 0 ↔ _
  simp [formDQ_eq_iff, and_ones6, hlow]

/-- SC form. -/
theorem selects_SC_iff (po : BitVec 6) (hp : p = formSC po 0) :
    OpcodeRow.selects ⟨0xFFFFF01F, p⟩ w ↔ ∃ lev, formSC po lev = w := by
  have h6 : w.sc6 &&& 16383#14 = w.sc6 := BitVec.and_allOnes
  rw [OpcodeRow.selects, hp, eq_comm, formSC_eq_iff, po_and, sc6_and, lev_and, sc27_and]
  dsimp only
  change w.po &&& 63 = po ∧ w.sc6 &&& 16383 = 0 ∧ w.lev &&& 0 = 0 ∧ w.sc27 &&& 31 = 2 ↔ _
  simp [formSC_eq_iff, and_ones6, and_ones5, h6]

end Masks

/-! ### The rows -/

theorem isSome_rowOf (i : Instr) : (rowOf i).isSome = i.hasEncoding := by cases i <;> rfl

theorem mem_opcodeRows {i : Instr} {r : OpcodeRow} (h : rowOf i = some r) : r ∈ opcodeRows := by
  cases i <;> cases h <;> decide

/-- The row of an instruction selects the instruction's word. -/
theorem selects_encode {i : Instr} {r : OpcodeRow} (h : rowOf i = some r) : r.selects (encode i) := by
  cases i <;> cases h
  case b => exact (selects_po_iff _ rfl).mpr (formI_po ..)
  case bc => exact (selects_po_iff _ rfl).mpr (formB_po ..)
  case rlwinm => exact (selects_po_iff _ rfl).mpr (formM_po ..)
  case addi | lbz | lmw | andiRc | andisRc | stb | stmw | twi => exact (selects_po_iff _ rfl).mpr (formD_po ..)
  case cmpi | cmpli => exact (selects_cmpD_iff _ rfl).mpr ⟨_, _, _, _, rfl⟩
  case addg6s | crand | lbzcix | lhbrx | lwbrx | ldbrx | sthbrx | stwbrx | stdbrx | mtspr | mfspr | lswi =>
    exact (selects_X_iff _ _ rfl).mpr ⟨_, _, _, rfl⟩
  case slw => exact (selects_Xrc_iff _ _ rfl).mpr ⟨_, _, _, _, rfl⟩
  case cdtbcd | cbcdtd => exact (selects_Xab_iff _ _ rfl).mpr ⟨_, _, rfl⟩
  case dcbz => exact (selects_Xbc_iff _ _ rfl).mpr ⟨_, _, rfl⟩
  case bclr | bcctr | bctar => exact (selects_XL_iff _ _ rfl).mpr ⟨_, _, _, _, rfl⟩
  case cmp | cmpl => exact (selects_cmpX_iff _ _ rfl).mpr ⟨_, _, _, _, rfl⟩
  case mcrxrx => exact (selects_bf_iff _ _ rfl).mpr ⟨_, rfl⟩
  case mtmsr => exact (selects_l_iff _ _ rfl).mpr ⟨_, _, rfl⟩
  case tlbie | tlbiel => exact (selects_tlb_iff _ _ rfl).mpr ⟨_, _, _, _, _, rfl⟩
  case tlbsync => exact selects_all_iff.mpr rfl
  case std | stq => exact (selects_DS_iff _ _ rfl).mpr ⟨_, _, _, rfl⟩
  case lq => exact (selects_DQ_iff _ rfl).mpr ⟨_, _, _, rfl⟩
  case sc => exact (selects_SC_iff _ rfl).mpr ⟨_, rfl⟩

/-- A word that a row of R116 selects stands for an instruction of the row; the lines in the order of the rows. -/
theorem exists_standsFor_of_selects {w : IWord} :
    ∀ r ∈ opcodeRows, r.selects w → ∃ i, rowOf i = some r ∧ StandsFor w i := by
  simp only [opcodeRows, List.forall_mem_cons, List.not_mem_nil, false_implies, implies_true, and_true]
  exact ⟨
    fun h => let ⟨rs, ra, e⟩ := (selects_Xab_iff 31 282 rfl).mp h; ⟨.cdtbcd rs ra, rfl, rfl, e⟩,
    fun h => let ⟨rs, ra, e⟩ := (selects_Xab_iff 31 314 rfl).mp h; ⟨.cbcdtd rs ra, rfl, rfl, e⟩,
    fun h => let ⟨rt, ra, rb, e⟩ := (selects_X_iff 31 74 rfl).mp h; ⟨.addg6s rt ra rb, rfl, rfl, e⟩,
    fun h => ⟨.b _ _ _, rfl, rfl, formI_eq_iff.mpr ⟨(selects_po_iff 18 rfl).mp h, rfl, rfl, rfl⟩⟩,
    fun h => ⟨.bc _ _ _ _ _, rfl, rfl, formB_eq_iff.mpr ⟨(selects_po_iff 16 rfl).mp h, rfl, rfl, rfl, rfl, rfl⟩⟩,
    fun h => let ⟨bo, bi, bh, lk, e⟩ := (selects_XL_iff 19 16 rfl).mp h; ⟨.bclr bo bi bh lk, rfl, rfl, e⟩,
    fun h => let ⟨bo, bi, bh, lk, e⟩ := (selects_XL_iff 19 528 rfl).mp h; ⟨.bcctr bo bi bh lk, rfl, rfl, e⟩,
    fun h => let ⟨bo, bi, bh, lk, e⟩ := (selects_XL_iff 19 560 rfl).mp h; ⟨.bctar bo bi bh lk, rfl, rfl, e⟩,
    fun h => let ⟨bf, l, ra, si, e⟩ := (selects_cmpD_iff 11 rfl).mp h; ⟨.cmpi bf l ra si, rfl, rfl, e⟩,
    fun h => let ⟨bf, l, ra, rb, e⟩ := (selects_cmpX_iff 31 0 rfl).mp h; ⟨.cmp bf l ra rb, rfl, rfl, e⟩,
    fun h => let ⟨bf, l, ra, ui, e⟩ := (selects_cmpD_iff 10 rfl).mp h; ⟨.cmpli bf l ra ui, rfl, rfl, e⟩,
    fun h => let ⟨bf, l, ra, rb, e⟩ := (selects_cmpX_iff 31 32 rfl).mp h; ⟨.cmpl bf l ra rb, rfl, rfl, e⟩,
    fun h => let ⟨bt, ba, bb, e⟩ := (selects_X_iff 19 257 rfl).mp h; ⟨.crand bt ba bb, rfl, rfl, e⟩,
    fun h => ⟨.addi _ _ _, rfl, rfl, formD_eq_iff.mpr ⟨(selects_po_iff 14 rfl).mp h, rfl, rfl, rfl⟩⟩,
    fun h => let ⟨rt, ra, rb, e⟩ := (selects_X_iff 31 853 rfl).mp h; ⟨.lbzcix rt ra rb, rfl, rfl, e⟩,
    fun h => ⟨.lbz _ _ _, rfl, rfl, formD_eq_iff.mpr ⟨(selects_po_iff 34 rfl).mp h, rfl, rfl, rfl⟩⟩,
    fun h => let ⟨rtp, ra, dq, e⟩ := (selects_DQ_iff 56 rfl).mp h; ⟨.lq rtp ra dq, rfl, rfl, e⟩,
    fun h => let ⟨rt, ra, rb, e⟩ := (selects_X_iff 31 790 rfl).mp h; ⟨.lhbrx rt ra rb, rfl, rfl, e⟩,
    fun h => let ⟨rt, ra, rb, e⟩ := (selects_X_iff 31 534 rfl).mp h; ⟨.lwbrx rt ra rb, rfl, rfl, e⟩,
    fun h => let ⟨rt, ra, rb, e⟩ := (selects_X_iff 31 532 rfl).mp h; ⟨.ldbrx rt ra rb, rfl, rfl, e⟩,
    fun h => ⟨.lmw _ _ _, rfl, rfl, formD_eq_iff.mpr ⟨(selects_po_iff 46 rfl).mp h, rfl, rfl, rfl⟩⟩,
    fun h => ⟨.andiRc _ _ _, rfl, rfl, formD_eq_iff.mpr ⟨(selects_po_iff 28 rfl).mp h, rfl, rfl, rfl⟩⟩,
    fun h => ⟨.andisRc _ _ _, rfl, rfl, formD_eq_iff.mpr ⟨(selects_po_iff 29 rfl).mp h, rfl, rfl, rfl⟩⟩,
    fun h => ⟨.rlwinm _ _ _ _ _ _, rfl, rfl,
      formM_eq_iff.mpr ⟨(selects_po_iff 21 rfl).mp h, rfl, rfl, rfl, rfl, rfl, rfl⟩⟩,
    fun h => let ⟨rs, ra, rb, rc, e⟩ := (selects_Xrc_iff 31 24 rfl).mp h; ⟨.slw rs ra rb rc, rfl, rfl, e⟩,
    fun h => ⟨.stb _ _ _, rfl, rfl, formD_eq_iff.mpr ⟨(selects_po_iff 38 rfl).mp h, rfl, rfl, rfl⟩⟩,
    fun h => let ⟨rs, ra, ds, e⟩ := (selects_DS_iff 62 0 rfl).mp h; ⟨.std rs ra ds, rfl, rfl, e⟩,
    fun h => let ⟨rsp, ra, ds, e⟩ := (selects_DS_iff 62 2 rfl).mp h; ⟨.stq rsp ra ds, rfl, rfl, e⟩,
    fun h => let ⟨rs, ra, rb, e⟩ := (selects_X_iff 31 918 rfl).mp h; ⟨.sthbrx rs ra rb, rfl, rfl, e⟩,
    fun h => let ⟨rs, ra, rb, e⟩ := (selects_X_iff 31 662 rfl).mp h; ⟨.stwbrx rs ra rb, rfl, rfl, e⟩,
    fun h => let ⟨rs, ra, rb, e⟩ := (selects_X_iff 31 660 rfl).mp h; ⟨.stdbrx rs ra rb, rfl, rfl, e⟩,
    fun h => ⟨.stmw _ _ _, rfl, rfl, formD_eq_iff.mpr ⟨(selects_po_iff 47 rfl).mp h, rfl, rfl, rfl⟩⟩,
    fun h => ⟨.twi _ _ _, rfl, rfl, formD_eq_iff.mpr ⟨(selects_po_iff 3 rfl).mp h, rfl, rfl, rfl⟩⟩,
    fun h => let ⟨rs, low, high, e⟩ := (selects_X_iff 31 467 rfl).mp h
      ⟨.mtspr rs (sprNum low high), rfl, rfl, by rw [encode, sprLow_sprNum, sprHigh_sprNum, e]⟩,
    fun h => let ⟨rt, low, high, e⟩ := (selects_X_iff 31 339 rfl).mp h
      ⟨.mfspr rt (sprNum low high), rfl, rfl, by rw [encode, sprLow_sprNum, sprHigh_sprNum, e]⟩,
    fun h => let ⟨bf, e⟩ := (selects_bf_iff 31 576 rfl).mp h; ⟨.mcrxrx bf, rfl, rfl, e⟩,
    fun h => let ⟨rs, l, e⟩ := (selects_l_iff 31 146 rfl).mp h; ⟨.mtmsr rs l, rfl, rfl, e⟩,
    fun h => let ⟨ra, rb, e⟩ := (selects_Xbc_iff 31 1014 rfl).mp h; ⟨.dcbz ra rb, rfl, rfl, e⟩,
    fun h => let ⟨rs, ric, prs, r, rb, e⟩ := (selects_tlb_iff 31 306 rfl).mp h; ⟨.tlbie rs ric prs r rb, rfl, rfl, e⟩,
    fun h => let ⟨rs, ric, prs, r, rb, e⟩ := (selects_tlb_iff 31 274 rfl).mp h; ⟨.tlbiel rs ric prs r rb, rfl, rfl, e⟩,
    fun h => ⟨.tlbsync, rfl, rfl, selects_all_iff.mp h⟩,
    fun h => let ⟨rt, ra, nb, e⟩ := (selects_X_iff 31 597 rfl).mp h; ⟨.lswi rt ra nb, rfl, rfl, e⟩,
    fun h => let ⟨lev, e⟩ := (selects_SC_iff 17 rfl).mp h; ⟨.sc lev, rfl, rfl, e⟩⟩

/-- Settles O4: the words an instruction's row selects are those of the row's instructions, and these are what decodes. -/
theorem decodeFollowsOpcodeMap : Obligations.DecodeFollowsOpcodeMap := by
  refine ⟨fun w i h => ?_, fun w r hr h => ?_⟩
  · obtain ⟨hwf, rfl⟩ := decode_eq_some_iff.mp h
    obtain ⟨r, hrow⟩ := Option.isSome_iff_exists.mp ((isSome_rowOf i).trans hwf)
    exact ⟨r, mem_opcodeRows hrow, hrow, selects_encode hrow⟩
  · obtain ⟨i, hrow, hi⟩ := exists_standsFor_of_selects r hr h
    exact ⟨i, decode_eq_some_iff.mpr hi, hrow⟩

end Sys2Proof.Machine
end

section
/-!
Invalid forms (O51): no shared operation refuses an instruction for its form, and the five instructions that do test exactly
the fields of R120.
-/
namespace Sys2Proof.Machine

/-! ### What refuses no form -/

section NoRefusal

variable {s : State} {pc : Addr}

theorem next_ne_invalidForm {t : State} : (.next t : Out) ≠ .refused (.invalidForm pc) := nofun

theorem accessStop_ne_invalidForm {dir : Access} {ea : Addr} {aligned : Bool} {addrs : List Nat} {e : Stop}
    (h : s.accessStop dir ea aligned addrs = some e) : stopOut e ≠ .refused (.invalidForm pc) := by
  unfold State.accessStop at h
  split_ifs at h <;> cases h <;> nofun

theorem load_ne_invalidForm {ea : Addr} {aligned : Bool} {addrs : List Nat} {k : List Byte → State} :
    s.load ea aligned addrs k ≠ .refused (.invalidForm pc) := by
  unfold State.load
  split
  next hstop => exact accessStop_ne_invalidForm hstop
  next => split <;> nofun

theorem store_ne_invalidForm {ea : Addr} {aligned : Bool} {addrs : List Nat} {bs : List Byte} :
    s.store ea aligned addrs bs ≠ .refused (.invalidForm pc) := by
  unfold State.store
  split
  next hstop => exact accessStop_ne_invalidForm hstop
  next => nofun

theorem raiseTrap_ne_invalidForm : s.raiseTrap ≠ .refused (.invalidForm pc) := by
  unfold State.raiseTrap
  split <;> nofun

theorem raiseSystemCall_ne_invalidForm {lev : BitVec 7} : s.raiseSystemCall lev ≠ .refused (.invalidForm pc) := by
  unfold State.raiseSystemCall
  split <;> nofun

theorem raisePrivileged_ne_invalidForm : s.raisePrivileged ≠ .refused (.invalidForm pc) := by
  unfold State.raisePrivileged
  split <;> nofun

theorem ite_ne_invalidForm {c : Prop} [Decidable c] {o o' : Out} (ho : o ≠ .refused (.invalidForm pc))
    (ho' : o' ≠ .refused (.invalidForm pc)) : (if c then o else o') ≠ .refused (.invalidForm pc) := by
  split
  · exact ho
  · exact ho'

theorem withSpr_ne_invalidForm {n : BitVec 10} {k : Spr → Out} (hk : ∀ r, k r ≠ .refused (.invalidForm pc)) :
    s.withSpr n k ≠ .refused (.invalidForm pc) := by
  unfold State.withSpr
  split
  · nofun
  · exact ite_ne_invalidForm raisePrivileged_ne_invalidForm (hk _)

end NoRefusal

/-! ### The five tests -/

/-- An instruction that refuses its form on a test and otherwise does what refuses no form. -/
theorem refuses_iff {c : Bool} {o : Out} {pc : Addr} {P : Prop} (ho : o ≠ .refused (.invalidForm pc))
    (hc : c = true ↔ P) :
    (if c then .refused (.invalidForm pc) else o) = .refused (.invalidForm pc) ↔ P := by
  rw [ite_eq_left_iff, ← hc]
  exact ⟨fun h => by_contra fun hn => ho (h hn), fun h hn => absurd h hn⟩

theorem bcctr_form_iff (bo : BitVec 5) : boDecrements bo = true ↔ bo.getLsbD 2 = false := by
  rw [boDecrements, Bool.not_eq_true']

theorem getLsbD_zero_eq_true_iff (r : RegNum) : r.getLsbD 0 = true ↔ r.toNat % 2 = 1 := by
  rw [BitVec.getLsbD, Nat.testBit_zero, decide_eq_true_iff]

theorem lq_form_iff (rtp ra : RegNum) :
    (rtp.getLsbD 0 || rtp == ra) = true ↔ rtp.toNat % 2 = 1 ∨ rtp = ra := by
  rw [Bool.or_eq_true, getLsbD_zero_eq_true_iff, beq_iff_eq]

theorem lmw_form_iff (rt ra : RegNum) : rt.ule ra = true ↔ rt.toNat ≤ ra.toNat := by
  rw [BitVec.ule, decide_eq_true_iff]

/-- The registers from RT on that a string fills wrap past 31, so RA is one of them when it lies less than their number
above RT modulo 32 (R286). -/
theorem lswi_form_iff (rt ra : RegNum) (nb : BitVec 5) :
    inWrappedRange rt ra (stringRegs (nbCount nb)) = true ↔ InvalidForm (.lswi rt ra nb) := by
  refine ⟨fun h => by_contra fun hvalid => ?_, fun ⟨k, hk, hwrap⟩ => ?_⟩
  · rw [lswi_form_valid hvalid] at h
    cases h
  · rw [inWrappedRange, decide_eq_true_iff]
    have hcount : k < stringRegs (nbCount nb) := hk
    have hsub : (ra - rt).toNat ≤ k := by
      rw [BitVec.toNat_sub]
      omega
    exact hsub.trans_lt hcount

/-! ### All instructions -/

/-- Settles O51: the five instructions with invalid forms test for them first, and the others refuse no form. -/
theorem invalidFormsRefused : Obligations.InvalidFormsRefused := by
  intro i s
  cases i with
  | bcctr bo => exact refuses_iff next_ne_invalidForm (bcctr_form_iff bo)
  | lq rtp ra => exact refuses_iff load_ne_invalidForm (lq_form_iff rtp ra)
  | stq rsp => exact refuses_iff store_ne_invalidForm (getLsbD_zero_eq_true_iff rsp)
  | lmw rt ra => exact refuses_iff load_ne_invalidForm (lmw_form_iff rt ra)
  | lswi rt ra nb => exact refuses_iff load_ne_invalidForm (lswi_form_iff rt ra nb)
  | lbzcix => exact iff_of_false (ite_ne_invalidForm load_ne_invalidForm raisePrivileged_ne_invalidForm) id
  | lbz | lhbrx | lwbrx | ldbrx => exact iff_of_false load_ne_invalidForm id
  | stb | std | sthbrx | stwbrx | stdbrx | stmw | dcbz => exact iff_of_false store_ne_invalidForm id
  | mtspr | mfspr => exact iff_of_false (withSpr_ne_invalidForm fun _ => next_ne_invalidForm) id
  | mtmsr => exact iff_of_false (ite_ne_invalidForm next_ne_invalidForm raisePrivileged_ne_invalidForm) id
  | tlbie | tlbiel | tlbsync => exact iff_of_false (ite_ne_invalidForm nofun raisePrivileged_ne_invalidForm) id
  | twi => exact iff_of_false (ite_ne_invalidForm raiseTrap_ne_invalidForm next_ne_invalidForm) id
  | sc => exact iff_of_false raiseSystemCall_ne_invalidForm id
  | cbcdtd => exact iff_of_false (ite_ne_invalidForm next_ne_invalidForm nofun) id
  | setvl => exact iff_of_false nofun id
  | cdtbcd | addg6s | addi | andiRc | andisRc | rlwinm | slw | crand | mcrxrx | cmpi | cmp | cmpli | cmpl | b | bc | bclr
  | bctar => exact iff_of_false next_ne_invalidForm id

end Sys2Proof.Machine
end

section
/-!
The coding of three decimal digits in a declet (O19): the rows of R141's table as a relation between declets and triples, which
`dpdToBcd` reads from left to right and `bcdToDpd`, on canonical declets, from right to left.
-/
namespace Sys2Proof.Machine

/-! ### Declets and triples bit by bit -/

theorem three_slices_append {a b c : Nat} (x : BitVec (a + b + c)) :
    x.extractLsb' (c + b) a ++ x.extractLsb' c b ++ x.extractLsb' 0 c = x := by
  have hhigh : x.extractLsb' (c + b) a ++ x.extractLsb' c b = x.extractLsb' c (a + b) :=
    BitVec.extractLsb'_append_extractLsb'_eq_extractLsb' rfl
  rw [hhigh]
  exact BitVec.extractLsb'_append_extractLsb'

/-- The declet of ten bits, named as R141 names them. -/
def declet (p q r s t u v w x y : Bool) : BitVec 10 :=
  bit p ++ bit q ++ bit r ++ bit s ++ bit t ++ bit u ++ bit v ++ bit w ++ bit x ++ bit y

section Bits
variable (p q r s t u v w x y p' q' r' s' t' u' v' w' x' y' : Bool)

theorem declet_eq_ofBoolListLE : declet p q r s t u v w x y = BitVec.ofBoolListLE [y, x, w, v, u, t, s, r, q, p] := by
  cases p <;> rfl

theorem bcdDigit_eq_ofBoolListLE (b3 b2 b1 b0 : Bool) : bcdDigit b3 b2 b1 b0 = BitVec.ofBoolListLE [b0, b1, b2, b3] := by
  cases b3 <;> rfl

theorem getLsbD_declet (k : Nat) :
    (declet p q r s t u v w x y).getLsbD k = [y, x, w, v, u, t, s, r, q, p].getD k false := by
  rw [declet_eq_ofBoolListLE]
  exact BitVec.getLsbD_ofBoolListLE

theorem getLsbD_bcdDigit (b3 b2 b1 b0 : Bool) (k : Nat) :
    (bcdDigit b3 b2 b1 b0).getLsbD k = [b0, b1, b2, b3].getD k false := by
  rw [bcdDigit_eq_ofBoolListLE]
  exact BitVec.getLsbD_ofBoolListLE

theorem getLsbD_triple (a b c : BitVec 4) (k : Nat) :
    (a ++ b ++ c).getLsbD k =
      if k < 4 then c.getLsbD k else if k - 4 < 4 then b.getLsbD (k - 4) else a.getLsbD (k - 4 - 4) := by
  rw [BitVec.getLsbD_append, BitVec.getLsbD_append]

theorem exists_declet (d : BitVec 10) : ∃ p q r s t u v w x y, d = declet p q r s t u v w x y := by
  refine ⟨d.getLsbD 9, d.getLsbD 8, d.getLsbD 7, d.getLsbD 6, d.getLsbD 5, d.getLsbD 4, d.getLsbD 3, d.getLsbD 2,
    d.getLsbD 1, d.getLsbD 0, BitVec.eq_of_getLsbD_eq fun k hk => ?_⟩
  rw [getLsbD_declet]
  interval_cases k <;> rfl

theorem declet_and :
    declet p q r s t u v w x y &&& declet p' q' r' s' t' u' v' w' x' y' =
      declet (p && p') (q && q') (r && r') (s && s') (t && t') (u && u') (v && v') (w && w') (x && x') (y && y') := by
  refine BitVec.eq_of_getLsbD_eq fun k hk => ?_
  rw [BitVec.getLsbD_and]
  simp only [getLsbD_declet]
  interval_cases k <;> rfl

theorem declet_inj :
    declet p q r s t u v w x y = declet p' q' r' s' t' u' v' w' x' y' ↔
      p = p' ∧ q = q' ∧ r = r' ∧ s = s' ∧ t = t' ∧ u = u' ∧ v = v' ∧ w = w' ∧ x = x' ∧ y = y' := by
  refine ⟨fun h => ?_, by rintro ⟨rfl, rfl, rfl, rfl, rfl, rfl, rfl, rfl, rfl, rfl⟩; rfl⟩
  have hbits := fun k => congrArg (BitVec.getLsbD · k) h
  simp only [getLsbD_declet] at hbits
  exact ⟨hbits 9, hbits 8, hbits 7, hbits 6, hbits 5, hbits 4, hbits 3, hbits 2, hbits 1, hbits 0⟩

end Bits

/-! ### The rows of the table -/

/-- A digit of 0 to 7, by its three low-order bits. -/
abbrev smallDigit (b2 b1 b0 : Bool) : BitVec 4 := bcdDigit false b2 b1 b0

/-- A digit of 8 or 9, by its low-order bit. -/
abbrev largeDigit (b0 : Bool) : BitVec 4 := bcdDigit true false false b0

/-- The table of R141: which declets stand for which triples. -/
inductive DecletRow : BitVec 10 → BitVec 12 → Prop
  | allSmall (p q r s t u w x y : Bool) :
    DecletRow (declet p q r s t u false w x y) (smallDigit p q r ++ smallDigit s t u ++ smallDigit w x y)
  | thirdLarge (p q r s t u y : Bool) :
    DecletRow (declet p q r s t u true false false y) (smallDigit p q r ++ smallDigit s t u ++ largeDigit y)
  | secondLarge (p q r s t u y : Bool) :
    DecletRow (declet p q r s t u true false true y) (smallDigit p q r ++ largeDigit u ++ smallDigit s t y)
  | firstLarge (p q r s t u y : Bool) :
    DecletRow (declet p q r s t u true true false y) (largeDigit r ++ smallDigit s t u ++ smallDigit p q y)
  | thirdSmall (p q r u y : Bool) :
    DecletRow (declet p q r false false u true true true y) (largeDigit r ++ largeDigit u ++ smallDigit p q y)
  | secondSmall (p q r u y : Bool) :
    DecletRow (declet p q r false true u true true true y) (largeDigit r ++ smallDigit p q u ++ largeDigit y)
  | firstSmall (p q r u y : Bool) :
    DecletRow (declet p q r true false u true true true y) (smallDigit p q r ++ largeDigit u ++ largeDigit y)
  | allLarge (p q r u y : Bool) :
    DecletRow (declet p q r true true u true true true y) (largeDigit r ++ largeDigit u ++ largeDigit y)

/-- One of the 24 declets that no triple goes to: the three digits are large, and p and q are not both zero (R141). -/
def NonCanonical (d : BitVec 10) : Prop := d &&& 0x06E = 0x06E ∧ d &&& 0x300 ≠ 0

theorem nonCanonical_declet_iff (p q r s t u v w x y : Bool) :
    NonCanonical (declet p q r s t u v w x y) ↔ (s ∧ t ∧ v ∧ w ∧ x) ∧ (p ∨ q) := by
  have hlarge : 0x06E = declet false false false true true false true true true false := by decide
  have hpq : 0x300 = declet true true false false false false false false false false := by decide
  have hzero : 0 = declet false false false false false false false false false false := by decide
  unfold NonCanonical
  rw [hlarge, hpq, hzero, ne_eq, declet_and, declet_and, declet_inj, declet_inj]
  cases p <;> simp

theorem DecletRow.dpdToBcd {d : BitVec 10} {t : BitVec 12} (h : DecletRow d t) : dpdToBcd d = t := by
  cases h <;> simp only [Machine.dpdToBcd, getLsbD_declet] <;> rfl

/-- Every declet is in the row that v, then w and x, then s and t select. -/
theorem decletRow_dpdToBcd (d : BitVec 10) : DecletRow d (dpdToBcd d) := by
  suffices h : ∃ t, DecletRow d t by
    obtain ⟨t, ht⟩ := h
    rwa [ht.dpdToBcd]
  obtain ⟨p, q, r, s, t, u, v, w, x, y, rfl⟩ := exists_declet d
  match v, w, x, s, t with
  | false, w, x, s, t => exact ⟨_, .allSmall ..⟩
  | true, false, false, s, t => exact ⟨_, .thirdLarge ..⟩
  | true, false, true, s, t => exact ⟨_, .secondLarge ..⟩
  | true, true, false, s, t => exact ⟨_, .firstLarge ..⟩
  | true, true, true, false, false => exact ⟨_, .thirdSmall ..⟩
  | true, true, true, false, true => exact ⟨_, .secondSmall ..⟩
  | true, true, true, true, false => exact ⟨_, .firstSmall ..⟩
  | true, true, true, true, true => exact ⟨_, .allLarge ..⟩

/-- Read from right to left, the table gives the canonical declet. -/
theorem DecletRow.bcdToDpd {d : BitVec 10} {t : BitVec 12} (h : DecletRow d t) (hd : ¬ NonCanonical d) :
    bcdToDpd t = d := by
  cases h
  case' allLarge p q r u y =>
    obtain ⟨rfl, rfl⟩ : p = false ∧ q = false := by simpa [nonCanonical_declet_iff] using hd
  all_goals
    simp only [Machine.bcdToDpd, getLsbD_triple, getLsbD_bcdDigit]
    simp [declet, bit]

/-! ### Triples of digits -/

/-- The three digits of a triple are 0 to 9. -/
def TripleOfDigits (t : BitVec 12) : Prop := ∀ k, k < 3 → (t.extractLsb' (4 * k) 4).toNat ≤ 9

theorem smallDigit_or_largeDigit {a : BitVec 4} (h : a.toNat ≤ 9) :
    (∃ b2 b1 b0, a = smallDigit b2 b1 b0) ∨ ∃ b0, a = largeDigit b0 := by
  revert a
  decide

theorem smallDigit_le (b2 b1 b0 : Bool) : (smallDigit b2 b1 b0).toNat ≤ 9 := by revert b2 b1 b0; decide

theorem largeDigit_le (b0 : Bool) : (largeDigit b0).toNat ≤ 9 := by revert b0; decide

theorem tripleOfDigits_append {a b c : BitVec 4} (ha : a.toNat ≤ 9) (hb : b.toNat ≤ 9) (hc : c.toNat ≤ 9) :
    TripleOfDigits (a ++ b ++ c) := by
  intro k hk
  interval_cases k
  · rwa [slice_append_low _ _ _ (by decide), slice_whole]
  · rwa [slice_append_high _ _ _ (by decide), slice_append_low _ _ _ (by decide), slice_whole]
  · rwa [slice_append_high _ _ _ (by decide), slice_append_high _ _ _ (by decide), slice_whole]

theorem DecletRow.tripleOfDigits {d : BitVec 10} {t : BitVec 12} (h : DecletRow d t) : TripleOfDigits t := by
  cases h <;> exact tripleOfDigits_append (by simp only [smallDigit_le, largeDigit_le])
    (by simp only [smallDigit_le, largeDigit_le]) (by simp only [smallDigit_le, largeDigit_le])

/-- Every triple of digits 0 to 9 is in the row its large digits select, with a canonical declet. -/
theorem exists_decletRow {t : BitVec 12} (ht : TripleOfDigits t) : ∃ d, DecletRow d t ∧ ¬ NonCanonical d := by
  rw [← three_slices_append (a := 4) (b := 4) (c := 4) t]
  obtain ⟨a2, a1, a0, ha⟩ | ⟨a0, ha⟩ := smallDigit_or_largeDigit (ht 2 (by decide)) <;>
    obtain ⟨b2, b1, b0, hb⟩ | ⟨b0, hb⟩ := smallDigit_or_largeDigit (ht 1 (by decide)) <;>
    obtain ⟨c2, c1, c0, hc⟩ | ⟨c0, hc⟩ := smallDigit_or_largeDigit (ht 0 (by decide)) <;>
    rw [ha, hb, hc]
  · exact ⟨_, .allSmall .., by simp [nonCanonical_declet_iff]⟩
  · exact ⟨_, .thirdLarge .., by simp [nonCanonical_declet_iff]⟩
  · exact ⟨_, .secondLarge .., by simp [nonCanonical_declet_iff]⟩
  · exact ⟨_, .firstSmall .., by simp [nonCanonical_declet_iff]⟩
  · exact ⟨_, .firstLarge .., by simp [nonCanonical_declet_iff]⟩
  · exact ⟨_, .secondSmall .., by simp [nonCanonical_declet_iff]⟩
  · exact ⟨_, .thirdSmall .., by simp [nonCanonical_declet_iff]⟩
  · exact ⟨_, .allLarge false false .., by simp [nonCanonical_declet_iff]⟩

theorem dpdToBcd_bcdToDpd {t : BitVec 12} (ht : TripleOfDigits t) : dpdToBcd (bcdToDpd t) = t := by
  obtain ⟨d, hrow, hd⟩ := exists_decletRow ht
  rw [hrow.bcdToDpd hd, hrow.dpdToBcd]

/-- A declet comes back exactly when it is canonical: what comes back is canonical, being the declet of a triple. -/
theorem bcdToDpd_dpdToBcd_iff (d : BitVec 10) : bcdToDpd (dpdToBcd d) = d ↔ ¬ NonCanonical d := by
  have hrow := decletRow_dpdToBcd d
  refine ⟨fun h => ?_, hrow.bcdToDpd⟩
  obtain ⟨d', hrow', hd'⟩ := exists_decletRow hrow.tripleOfDigits
  rwa [← h, hrow'.bcdToDpd hd']

/-- Settles O19: each row of the table is a row of the relation, and the two conversions read the relation both ways. -/
theorem decletCoding : Obligations.DecletCoding := by
  refine ⟨fun p q r s t u v w x y => DecletRow.dpdToBcd ?_, fun d => (decletRow_dpdToBcd d).tripleOfDigits,
    fun t => dpdToBcd_bcdToDpd, bcdToDpd_dpdToBcd_iff⟩
  match v, w, x, s, t with
  | false, w, x, s, t => exact .allSmall ..
  | true, false, false, s, t => exact .thirdLarge ..
  | true, false, true, s, t => exact .secondLarge ..
  | true, true, false, s, t => exact .firstLarge ..
  | true, true, true, false, false => exact .thirdSmall ..
  | true, true, true, false, true => exact .secondSmall ..
  | true, true, true, true, false => exact .firstSmall ..
  | true, true, true, true, true => exact .allLarge ..

end Sys2Proof.Machine
end

section
/-!
`cdtbcd` and `cbcdtd` (O20, O21, O22): a conversion of the two halves of a register, the fields of each half, and what
`cdtbcd` makes of a half that `cbcdtd` gave.
-/
namespace Sys2Proof.Machine

/-! ### The halves of a register -/

/-- Half h of a doubleword, the low-order one first. -/
def halfOf (v : DWord) (h : Nat) : BitVec 32 := v.extractLsb' (32 * h) 32

/-- Both halves of a doubleword converted. -/
abbrev mapHalves (f : BitVec 32 → BitVec 32) (v : DWord) : DWord := f (highWord v) ++ f (lowWord v)

section Halves
variable (f : BitVec 32 → BitVec 32) (v : DWord) {h i n : Nat}

/-- A field within a half is a field of the doubleword. -/
theorem extractLsb'_halfOf (h : Nat) (hin : i + n ≤ 32) : (halfOf v h).extractLsb' i n = v.extractLsb' (32 * h + i) n := by
  refine BitVec.eq_of_getLsbD_eq fun j hj => ?_
  have hij : i + j < 32 := by omega
  simp [halfOf, hj, hij, Nat.add_assoc]

theorem extractLsb'_zero_halfOf (h : Nat) (hn : n ≤ 32) : (halfOf v h).extractLsb' 0 n = v.extractLsb' (32 * h) n :=
  extractLsb'_halfOf v h (by omega)

theorem highWord_append (hi lo : BitVec 32) : highWord (hi ++ lo) = hi := BitVec.extractLsb'_append_eq_left

theorem lowWord_append (hi lo : BitVec 32) : lowWord (hi ++ lo) = lo := BitVec.extractLsb'_append_eq_right

theorem halfOf_mapHalves (hh : h < 2) : halfOf (mapHalves f v) h = f (halfOf v h) := by
  interval_cases h
  · exact lowWord_append _ _
  · exact highWord_append _ _

/-- A mask with the same word in both halves masks each half with that word. -/
theorem mapHalves_and (m : BitVec 32) : mapHalves (fun wd => wd &&& m) v = v &&& (m ++ m) := by
  have hv : highWord v ++ lowWord v = v := BitVec.extractLsb'_append_extractLsb'
  conv_rhs => rw [← hv]
  exact BitVec.and_append.symm

end Halves

/-- What a register written with converted halves leaves: the program counter, the frame, and each half. -/
theorem advance_setX_mapHalves (s : State) (ra : RegNum) (f : BitVec 32 → BitVec 32) (v : DWord) {t : State}
    (ht : t = (s.setX ra (mapHalves f v)).advance) :
    t.pc = s.nextPc ∧ Frame s t [ra] [] [] [] ∧ ∀ h < 2, halfOf (t.x ra) h = f (halfOf v h) := by
  subst ht
  refine ⟨setX_nextPc s ra _, (frame_setX s ra _).advance, fun h hh => ?_⟩
  rw [advance_x, setX_x_same, halfOf_mapHalves f v hh]

/-! ### One half converted -/

section Word
variable (wd : BitVec 32)

theorem wordToBcd_top : (wordToBcd wd).extractLsb' 24 8 = 0 :=
  (slice_append_high _ _ 24 (by decide)).trans <| (slice_append_high _ _ 12 (by decide)).trans (slice_whole _)

theorem wordToBcd_high : (wordToBcd wd).extractLsb' 12 12 = dpdToBcd (wd.extractLsb' 10 10) :=
  (slice_append_high _ _ 12 (by decide)).trans <| (slice_append_low _ _ 0 (by decide)).trans (slice_whole _)

theorem wordToBcd_low : (wordToBcd wd).extractLsb' 0 12 = dpdToBcd (wd.extractLsb' 0 10) :=
  (slice_append_low _ _ 0 (by decide)).trans (slice_whole _)

theorem wordToDpd_top : (wordToDpd wd).extractLsb' 20 12 = 0 :=
  (slice_append_high _ _ 20 (by decide)).trans <| (slice_append_high _ _ 10 (by decide)).trans (slice_whole _)

theorem wordToDpd_high : (wordToDpd wd).extractLsb' 10 10 = bcdToDpd (wd.extractLsb' 12 12) :=
  (slice_append_high _ _ 10 (by decide)).trans <| (slice_append_low _ _ 0 (by decide)).trans (slice_whole _)

theorem wordToDpd_low : (wordToDpd wd).extractLsb' 0 10 = bcdToDpd (wd.extractLsb' 0 12) :=
  (slice_append_low _ _ 0 (by decide)).trans (slice_whole _)

theorem digitsValid_iff : digitsValid wd = true ↔ ∀ k, k < 6 → (wd.extractLsb' (4 * k) 4).toNat ≤ 9 := by
  simp [digitsValid]

end Word

/-- The digits of a field of three are digits of the word. -/
theorem tripleOfDigits_of_digitsValid {wd : BitVec 32} (hwd : digitsValid wd = true) {j : Nat} (hj : j < 2) :
    TripleOfDigits (wd.extractLsb' (12 * j) 12) := by
  intro k hk
  have hslice : (wd.extractLsb' (12 * j) 12).extractLsb' (4 * k) 4 = wd.extractLsb' (4 * (3 * j + k)) 4 := by
    refine BitVec.eq_of_getLsbD_eq fun i hi => ?_
    have hin : 4 * k + i < 12 := by omega
    have hsum : 12 * j + (4 * k + i) = 4 * (3 * j + k) + i := by ring
    simp [hi, hin, hsum]
  rw [hslice]
  exact (digitsValid_iff wd).mp hwd (3 * j + k) (by omega)

/-- Six digits made declets and digits again are the six digits, the high-order byte cleared. -/
theorem wordToBcd_wordToDpd {wd : BitVec 32} (hwd : digitsValid wd = true) :
    wordToBcd (wordToDpd wd) = wd &&& 0x00FFFFFF := by
  have hhigh := dpdToBcd_bcdToDpd (tripleOfDigits_of_digitsValid hwd (j := 1) (by decide))
  have hlow := dpdToBcd_bcdToDpd (tripleOfDigits_of_digitsValid hwd (j := 0) (by decide))
  rw [wordToBcd, wordToDpd_high, wordToDpd_low, hhigh, hlow]
  have hmask : (0x00FFFFFF : BitVec 32) = 0#8 ++ BitVec.allOnes 12 ++ BitVec.allOnes 12 := by decide
  conv_rhs => rw [← three_slices_append (a := 8) (b := 12) (c := 12) wd, hmask]
  rw [BitVec.and_append, BitVec.and_append, BitVec.and_zero, BitVec.and_allOnes, BitVec.and_allOnes]

/-! ### The two instructions -/

/-- The test of `cbcdtd` is that the twelve digits are 0 to 9 (R143). -/
theorem halves_digitsValid_iff (v : DWord) :
    (digitsValid (highWord v) && digitsValid (lowWord v)) = true ↔
      ∀ h k, h < 2 → k < 6 → (v.extractLsb' (32 * h + 4 * k) 4).toNat ≤ 9 := by
  have hhalf : ∀ h, digitsValid (halfOf v h) = true ↔ ∀ k, k < 6 → (v.extractLsb' (32 * h + 4 * k) 4).toNat ≤ 9 := by
    intro h
    rw [digitsValid_iff]
    refine forall₂_congr fun k hk => ?_
    rw [extractLsb'_halfOf v h (by omega)]
  rw [Bool.and_eq_true, show highWord v = halfOf v 1 from rfl, show lowWord v = halfOf v 0 from rfl, hhalf, hhalf]
  refine ⟨fun ⟨hhigh, hlow⟩ h k hh => ?_, fun hv => ⟨fun k => hv 1 k (by decide), fun k => hv 0 k (by decide)⟩⟩
  interval_cases h
  · exact hlow k
  · exact hhigh k

theorem exec_cbcdtd_eq_next_iff {s t : State} {rs ra : RegNum} :
    exec (.cbcdtd rs ra) s = .next t ↔
      (digitsValid (highWord (s.x rs)) && digitsValid (lowWord (s.x rs))) = true ∧
        t = (s.setX ra (mapHalves wordToDpd (s.x rs))).advance := by
  change execCbcdtd rs ra s = .next t ↔ _
  rw [execCbcdtd]
  split
  · next hvalid => rw [Host.Outcome.next.injEq, eq_comm, and_iff_right hvalid]
  · next hvalid => exact iff_of_false nofun fun h => hvalid h.1

/-- Settles O20: both halves are converted, and the fields of a converted half are known. -/
theorem cdtbcdConverts : Obligations.CdtbcdConverts := by
  intro rs ra s
  obtain ⟨hpc, hframe, hhalf⟩ := advance_setX_mapHalves s ra wordToBcd (s.x rs) rfl
  refine ⟨_, rfl, hpc, hframe, fun h hh => ⟨?_, ?_, ?_⟩⟩
  · rw [← extractLsb'_halfOf _ h (by decide), hhalf h hh, wordToBcd_top]
  · rw [← extractLsb'_halfOf _ h (by decide), hhalf h hh, wordToBcd_high, extractLsb'_halfOf _ h (by decide)]
  · rw [← extractLsb'_zero_halfOf _ h (by decide), hhalf h hh, wordToBcd_low, extractLsb'_zero_halfOf _ h (by decide)]

/-- Settles O21: with valid digits both halves are converted, and the fields of a converted half are known. -/
theorem cbcdtdConverts : Obligations.CbcdtdConverts := by
  refine fun rs ra s => ⟨fun hvalid => ?_, fun ⟨h, k, hh, hk, hlarge⟩ => if_neg fun hvalid => ?_⟩
  · obtain ⟨hpc, hframe, hhalf⟩ := advance_setX_mapHalves s ra wordToDpd (s.x rs) rfl
    refine ⟨_, exec_cbcdtd_eq_next_iff.mpr ⟨(halves_digitsValid_iff _).mpr hvalid, rfl⟩, hpc, hframe,
      fun h hh => ⟨?_, ?_, ?_⟩⟩
    · rw [← extractLsb'_halfOf _ h (by decide), hhalf h hh, wordToDpd_top]
    · rw [← extractLsb'_halfOf _ h (by decide), hhalf h hh, wordToDpd_high, extractLsb'_halfOf _ h (by decide)]
    · rw [← extractLsb'_zero_halfOf _ h (by decide), hhalf h hh, wordToDpd_low, extractLsb'_zero_halfOf _ h (by decide)]
  · exact absurd ((halves_digitsValid_iff _).mp hvalid h k hh hk) (by omega)

/-- Settles O22: each half comes back masked, and the two masks are the mask of the register. -/
theorem bcdRoundTrip : Obligations.BcdRoundTrip := by
  intro rs ra rb s t h
  obtain ⟨hvalid, rfl⟩ := exec_cbcdtd_eq_next_iff.mp h
  obtain ⟨hhigh, hlow⟩ := Bool.and_eq_true_iff.mp hvalid
  refine ⟨_, rfl, ?_⟩
  rw [advance_x, setX_x_same, advance_x, setX_x_same, highWord_append, lowWord_append, wordToBcd_wordToDpd hhigh,
    wordToBcd_wordToDpd hlow]
  exact mapHalves_and (s.x rs) 0x00FFFFFF

end Sys2Proof.Machine
end

section
/-!
`addg6s` (O23, O24): numbers by their digits and school addition in any base, and the sixes that turn the binary sum of two
Binary Coded Decimal numbers into their decimal sum (R144).
-/
namespace Sys2Proof.Machine

/-! ### Numbers by their digits -/

/-- The number whose digits in base B are `f 0` to `f (n - 1)`, the least significant first. -/
def placeValue (B : Nat) (f : Nat → Nat) (n : Nat) : Nat := ∑ k ∈ Finset.range n, f k * B ^ k

/-- The carry into place n of the sum of two numbers given by their digits. -/
def carryInto (B : Nat) (f g : Nat → Nat) : Nat → Nat
  | 0 => 0
  | n + 1 => (f n + g n + carryInto B f g n) / B

/-- Digit n of the sum of two numbers given by their digits. -/
def sumDigit (B : Nat) (f g : Nat → Nat) (n : Nat) : Nat := (f n + g n + carryInto B f g n) % B

section Digits
variable {B : Nat} {f g : Nat → Nat} {n : Nat}

theorem placeValue_succ (B : Nat) (f : Nat → Nat) (n : Nat) :
    placeValue B f (n + 1) = placeValue B f n + f n * B ^ n := Finset.sum_range_succ _ n

theorem placeValue_congr (h : ∀ k < n, f k = g k) : placeValue B f n = placeValue B g n :=
  Finset.sum_congr rfl fun k hk => by rw [h k (Finset.mem_range.mp hk)]

theorem placeValue_add (B : Nat) (f g : Nat → Nat) (n : Nat) :
    placeValue B (fun k => f k + g k) n = placeValue B f n + placeValue B g n := by
  simp only [placeValue, Nat.add_mul, Finset.sum_add_distrib]

theorem placeValue_lt (hf : ∀ k < n, f k < B) : placeValue B f n < B ^ n := by
  induction n with
  | zero => exact Nat.one_pos
  | succ n ih =>
    have hlow := ih fun k hk => hf k (by omega)
    have htop : (f n + 1) * B ^ n ≤ B * B ^ n := Nat.mul_le_mul_right _ (hf n (by omega))
    rw [placeValue_succ, pow_succ']
    linarith

/-- The places from m on count multiples of `B ^ m`. -/
theorem placeValue_mod (hf : ∀ k < n, f k < B) {m : Nat} (hm : m ≤ n) : placeValue B f n % B ^ m = placeValue B f m := by
  induction n, hm using Nat.le_induction with
  | base => exact Nat.mod_eq_of_lt (placeValue_lt hf)
  | succ n hmn ih =>
    have hdvd : B ^ m ∣ f n * B ^ n := (pow_dvd_pow B hmn).mul_left _
    rw [placeValue_succ, Nat.add_mod, Nat.mod_eq_zero_of_dvd hdvd, Nat.add_zero, Nat.mod_mod, ih fun k hk => hf k (by omega)]

/-- The digits of a number are the digits it was made of. -/
theorem placeValue_div_mod (hf : ∀ k < n, f k < B) {k : Nat} (hk : k < n) : placeValue B f n / B ^ k % B = f k := by
  have hlow : placeValue B f k < B ^ k := placeValue_lt fun j hj => hf j (by omega)
  rw [← Nat.mod_mul_right_div_self, ← pow_succ, placeValue_mod hf hk, placeValue_succ,
    Nat.add_mul_div_right _ _ (by omega), Nat.div_eq_of_lt hlow, Nat.zero_add]

theorem placeValue_digits (B x n : Nat) : placeValue B (fun k => x / B ^ k % B) n = x % B ^ n := by
  induction n with
  | zero => exact (Nat.mod_one x).symm
  | succ n ih => rw [placeValue_succ, ih, Nat.mod_pow_succ, Nat.mul_comm]

/-- School addition: the digits of the sum, and the carry out of the last place. -/
theorem placeValue_add_placeValue (B : Nat) (f g : Nat → Nat) (n : Nat) :
    placeValue B f n + placeValue B g n = placeValue B (sumDigit B f g) n + carryInto B f g n * B ^ n := by
  induction n with
  | zero => rfl
  | succ n ih =>
    have hplace : sumDigit B f g n + B * carryInto B f g (n + 1) = f n + g n + carryInto B f g n := Nat.mod_add_div _ _
    calc placeValue B f (n + 1) + placeValue B g (n + 1)
        = placeValue B f n + placeValue B g n + (f n + g n) * B ^ n := by rw [placeValue_succ, placeValue_succ]; ring
      _ = placeValue B (sumDigit B f g) n + (f n + g n + carryInto B f g n) * B ^ n := by rw [ih]; ring
      _ = placeValue B (sumDigit B f g) (n + 1) + carryInto B f g (n + 1) * B ^ (n + 1) := by
        rw [← hplace, placeValue_succ, pow_succ]; ring

theorem sumDigit_lt (hB : 0 < B) (k : Nat) : sumDigit B f g k < B := Nat.mod_lt _ hB

/-- The sum without its carry out. -/
theorem placeValue_sumDigit (hB : 0 < B) :
    placeValue B (sumDigit B f g) n = (placeValue B f n + placeValue B g n) % B ^ n := by
  rw [placeValue_add_placeValue, Nat.add_mul_mod_self_right, Nat.mod_eq_of_lt (placeValue_lt fun k _ => sumDigit_lt hB k)]

/-- A carry is the part of the sum of the lower places that does not fit them. -/
theorem carryInto_eq_div (hB : 0 < B) : carryInto B f g n = (placeValue B f n + placeValue B g n) / B ^ n := by
  rw [placeValue_add_placeValue, Nat.add_mul_div_right _ _ (Nat.pow_pos hB),
    Nat.div_eq_of_lt (placeValue_lt fun k _ => sumDigit_lt hB k), Nat.zero_add]

theorem carryInto_congr {f' : Nat → Nat} (hB : 0 < B) (h : ∀ k < n, f k = f' k) :
    carryInto B f g n = carryInto B f' g n := by
  rw [carryInto_eq_div hB, carryInto_eq_div hB, placeValue_congr h]

theorem carryInto_le_one (hf : ∀ k < n, f k < B) (hg : ∀ k < n, g k < B) : carryInto B f g n ≤ 1 := by
  induction n with
  | zero => exact Nat.zero_le _
  | succ n ih =>
    have hcarry := ih (fun k hk => hf k (by omega)) (fun k hk => hg k (by omega))
    have hfn := hf n (by omega)
    have hgn := hg n (by omega)
    exact Nat.le_of_lt_succ (Nat.div_lt_of_lt_mul (by omega))

/-- With six added to one of two decimal digits, a place carries in base 16 exactly where it carries in base 10. -/
theorem carryInto_add_six (hf : ∀ k < n, f k ≤ 9) (hg : ∀ k < n, g k ≤ 9) :
    carryInto 16 (fun k => f k + 6) g n = carryInto 10 f g n := by
  induction n with
  | zero => rfl
  | succ n ih =>
    have hcarry : carryInto 10 f g n ≤ 1 :=
      carryInto_le_one (fun k hk => Nat.lt_succ_of_le (hf k (by omega))) fun k hk => Nat.lt_succ_of_le (hg k (by omega))
    have hfn := hf n (by omega)
    have hgn := hg n (by omega)
    rw [carryInto, carryInto, ih (fun k hk => hf k (by omega)) (fun k hk => hg k (by omega))]
    omega

/-- The six stays in the digit of the sum where the place does not carry, and is used up where it does. -/
theorem sumDigit_add_six (hf : ∀ k ≤ n, f k ≤ 9) (hg : ∀ k ≤ n, g k ≤ 9) :
    sumDigit 16 (fun k => f k + 6) g n = sumDigit 10 f g n + if carryInto 10 f g (n + 1) = 0 then 6 else 0 := by
  have hcarry : carryInto 10 f g n ≤ 1 :=
    carryInto_le_one (fun k hk => Nat.lt_succ_of_le (hf k (by omega))) fun k hk => Nat.lt_succ_of_le (hg k (by omega))
  have hfn := hf n le_rfl
  have hgn := hg n le_rfl
  rw [sumDigit, sumDigit, carryInto_add_six (fun k hk => hf k (by omega)) (fun k hk => hg k (by omega)), carryInto]
  split <;> omega

end Digits

/-! ### A doubleword by its hexadecimal digits -/

/-- Digit k of a doubleword. -/
def nibble (v : DWord) (k : Nat) : Nat := (v.extractLsb' (4 * k) 4).toNat

theorem nibble_eq (v : DWord) (k : Nat) : nibble v k = v.toNat / 16 ^ k % 16 := by
  rw [nibble, BitVec.extractLsb'_toNat, Nat.shiftRight_eq_div_pow, pow_mul]
  rfl

theorem nibble_lt (v : DWord) (k : Nat) : nibble v k < 16 := (v.extractLsb' (4 * k) 4).isLt

theorem placeValue_nibble (v : DWord) (n : Nat) : placeValue 16 (nibble v) n = v.toNat % 16 ^ n := by
  rw [← placeValue_digits]
  exact placeValue_congr fun k _ => nibble_eq v k

theorem toNat_eq_placeValue_nibble (v : DWord) : v.toNat = placeValue 16 (nibble v) 16 :=
  ((placeValue_nibble v 16).trans (Nat.mod_eq_of_lt v.isLt)).symm

theorem nibble_of_toNat {v : DWord} {f : Nat → Nat} (hf : ∀ k < 16, f k < 16) (hv : v.toNat = placeValue 16 f 16) {k : Nat}
    (hk : k < 16) : nibble v k = f k := by
  rw [nibble_eq, hv, placeValue_div_mod hf hk]

/-! ### The sixes -/

section Shift
variable (acc : DWord) (d : BitVec 4)

theorem extractLsb'_shift_or_zero : (acc <<< 4 ||| d.setWidth 64).extractLsb' (4 * 0) 4 = d := by
  refine BitVec.eq_of_getLsbD_eq fun i hi => ?_
  simp [hi]
  omega

theorem extractLsb'_shift_or_succ {j : Nat} (hj : j < 15) :
    (acc <<< 4 ||| d.setWidth 64).extractLsb' (4 * (j + 1)) 4 = acc.extractLsb' (4 * j) 4 := by
  refine BitVec.eq_of_getLsbD_eq fun i hi => ?_
  have hin : 4 * (j + 1) + i < 64 := by omega
  have hout : ¬ 4 * (j + 1) + i < 4 := by omega
  have hsub : 4 * (j + 1) + i - 4 = 4 * j + i := by omega
  have hd : d.getLsbD (4 * (j + 1) + i) = false := BitVec.getLsbD_of_ge d _ (by omega)
  rw [BitVec.getLsbD_extractLsb', BitVec.getLsbD_extractLsb', BitVec.getLsbD_or, BitVec.getLsbD_shiftLeft,
    BitVec.getLsbD_setWidth, hd, hsub]
  simp [hin, hout]

end Shift

/-- Digits pushed in from the low end, the last of a list first, stand in the order of the list. -/
theorem extractLsb'_foldr_shift_or (d : Nat → BitVec 4) (l : List Nat) {j : Nat} (hj : j < l.length) (h16 : j < 16) :
    (l.foldr (fun k (acc : DWord) => (acc <<< 4) ||| (d k).setWidth 64) 0).extractLsb' (4 * j) 4 = d l[j] := by
  induction l generalizing j with
  | nil => simp at hj
  | cons k rest ih =>
    cases j with
    | zero => exact extractLsb'_shift_or_zero _ _
    | succ j =>
      rw [List.foldr_cons, extractLsb'_shift_or_succ _ _ (by omega)]
      exact ih (Nat.lt_of_succ_lt_succ hj) (by omega)

theorem extractLsb'_sixes (a b : DWord) {k : Nat} (hk : k < 16) :
    (sixes a b).extractLsb' (4 * k) 4 = if digitCarry a b k then 0 else 6 := by
  have hdigit : ∀ j, (if digitCarry a b j then 0#64 else 6#64) = (if digitCarry a b j then 0#4 else 6#4).setWidth 64 := by
    intro j
    split <;> rfl
  simp only [sixes, hdigit]
  rw [extractLsb'_foldr_shift_or _ _ (by simpa using hk) hk, List.getElem_range]
  rfl

/-- Digit k carries when the sum of the low-order digits up to it does not fit them. -/
theorem digitCarry_iff (a b : DWord) (k : Nat) :
    digitCarry a b k = true ↔ 16 ^ (k + 1) ≤ a.toNat % 16 ^ (k + 1) + b.toNat % 16 ^ (k + 1) := by
  have hpow : 16 ^ (k + 1) = 2 ^ (4 * k + 4) := (pow_mul 2 4 (k + 1)).symm
  rw [digitCarry, hpow]
  refine ⟨fun h => Nat.ge_two_pow_of_testBit h, fun h => Nat.testBit_of_two_pow_le_and_two_pow_add_one_gt h ?_⟩
  have ha := Nat.mod_lt a.toNat (Nat.two_pow_pos (4 * k + 4))
  have hb := Nat.mod_lt b.toNat (Nat.two_pow_pos (4 * k + 4))
  linarith [pow_succ 2 (4 * k + 4)]

theorem digitCarry_iff_carryInto (a b : DWord) (k : Nat) :
    digitCarry a b k = true ↔ carryInto 16 (nibble a) (nibble b) (k + 1) ≠ 0 := by
  rw [digitCarry_iff, carryInto_eq_div (by decide), placeValue_nibble, placeValue_nibble, Nat.div_ne_zero_iff]
  simp

/-- Settles O23: the register receives the sixes, whose digits are known by the carries. -/
theorem addSixesDigits : Obligations.AddSixesDigits := by
  intro rt ra rb s
  refine ⟨(s.setX rt (sixes (s.x ra) (s.x rb))).advance, rfl, setX_nextPc s rt _, (frame_setX s rt _).advance,
    fun k hk => ?_⟩
  rw [advance_x, setX_x_same, extractLsb'_sixes _ _ hk]
  simp only [digitCarry_iff]

/-! ### Decimal addition -/

theorem nibble_sixes (a b : DWord) {k : Nat} (hk : k < 16) :
    nibble (sixes a b) k = if carryInto 16 (nibble a) (nibble b) (k + 1) = 0 then 6 else 0 := by
  rw [nibble, extractLsb'_sixes a b hk]
  by_cases h : carryInto 16 (nibble a) (nibble b) (k + 1) = 0
  · rw [if_pos h, if_neg fun hcarry => (digitCarry_iff_carryInto a b k).mp hcarry h]
    rfl
  · rw [if_neg h, if_pos ((digitCarry_iff_carryInto a b k).mpr h)]
    rfl

/-- `u + 0x6666666666666666`, the operand that R144 has `addg6s` take for u. -/
abbrev withSixes (u : DWord) : DWord := u + 0x6666666666666666

section Decimal
variable {u v : DWord} (hu : ∀ k < 16, nibble u k ≤ 9) (hv : ∀ k < 16, nibble v k ≤ 9)
include hu

/-- Adding six to every decimal digit carries nowhere. -/
theorem toNat_withSixes : (withSixes u).toNat = placeValue 16 (fun k => nibble u k + 6) 16 := by
  have hsix : (0x6666666666666666 : DWord).toNat = placeValue 16 (fun _ => 6) 16 := by decide
  rw [BitVec.toNat_add, hsix, toNat_eq_placeValue_nibble u, ← placeValue_add]
  exact Nat.mod_eq_of_lt (placeValue_lt fun k hk => by have := hu k hk; omega)

theorem nibble_withSixes {k : Nat} (hk : k < 16) : nibble (withSixes u) k = nibble u k + 6 :=
  nibble_of_toNat (f := fun k => nibble u k + 6) (fun k hk => by have := hu k hk; omega) (toNat_withSixes hu) hk

include hv

/-- The digits of `addg6s` are the sixes that the decimal sum leaves over. -/
theorem nibble_sixes_withSixes {k : Nat} (hk : k < 16) :
    nibble (sixes (withSixes u) v) k = if carryInto 10 (nibble u) (nibble v) (k + 1) = 0 then 6 else 0 := by
  rw [nibble_sixes _ _ hk, carryInto_congr (by decide) fun j hj => nibble_withSixes hu (by omega),
    carryInto_add_six (fun j hj => hu j (by omega)) fun j hj => hv j (by omega)]

/-- The binary sum is the decimal sum and the sixes. -/
theorem toNat_withSixes_add :
    (withSixes u + v).toNat =
      placeValue 16 (sumDigit 10 (nibble u) (nibble v)) 16 + (sixes (withSixes u) v).toNat := by
  calc (withSixes u + v).toNat
      = placeValue 16 (sumDigit 16 (fun k => nibble u k + 6) (nibble v)) 16 := by
        rw [placeValue_sumDigit (by decide), ← toNat_withSixes hu, ← toNat_eq_placeValue_nibble, BitVec.toNat_add]
        rfl
    _ = placeValue 16 (fun k => sumDigit 10 (nibble u) (nibble v) k + nibble (sixes (withSixes u) v) k) 16 :=
        placeValue_congr fun k hk => by
          rw [sumDigit_add_six (fun j hj => hu j (by omega)) (fun j hj => hv j (by omega)), nibble_sixes_withSixes hu hv hk]
    _ = placeValue 16 (sumDigit 10 (nibble u) (nibble v)) 16 + (sixes (withSixes u) v).toNat := by
        rw [placeValue_add, ← toNat_eq_placeValue_nibble]

/-- The corrected sum has the digits of the decimal sum. -/
theorem nibble_correctedSum {k : Nat} (hk : k < 16) :
    nibble (withSixes u + v - sixes (withSixes u) v) k = sumDigit 10 (nibble u) (nibble v) k := by
  have hsum := toNat_withSixes_add hu hv
  refine nibble_of_toNat (fun j _ => (sumDigit_lt (by decide) j).trans (by decide)) ?_ hk
  rw [BitVec.toNat_sub_of_le (BitVec.le_def.mpr (by omega)), hsum, Nat.add_sub_cancel]

end Decimal

theorem sum_map_range_eq_placeValue (f : Nat → Nat) (B n : Nat) :
    ((List.range n).map fun k => f k * B ^ k).sum = placeValue B f n := rfl

/-- Settles O24: the corrected sum has the digits of the decimal sum, which is the sum without its carry out. -/
theorem bcdAddition : Obligations.BcdAddition := by
  intro rt ra rb s s' u hu hv ht h value hvalue
  cases h
  rw [advance_x, setX_x_same, ht]
  have hplace : ∀ d, value d = placeValue 10 (nibble d) 16 := fun d => (hvalue d).trans (sum_map_range_eq_placeValue ..)
  refine ⟨fun k hk => ?_, ?_⟩
  · exact Nat.le_of_lt_succ ((nibble_correctedSum hu hv hk).trans_lt (sumDigit_lt (by decide) k))
  · rw [hplace, hplace, hplace, placeValue_congr fun k hk => nibble_correctedSum hu hv hk, placeValue_sumDigit (by decide)]

end Sys2Proof.Machine
end

section
/-!
The branches (O25 to O28): where a branch lands as an integer, the two tests of R154 as the statements have them, and what a
conditional branch does by its BO, which the table of R153 puts in rows.
-/
namespace Sys2Proof.Machine

/-! ### Landing -/

/-- `BranchTo(a)` lands at every number that a is modulo 2^64 (R151). -/
theorem landsAt_of_pc {s t : State} {a : Addr} {target : Int} (hpc : t.pc = wordAligned (s.truncate a))
    (ha : (a.toNat : Int) = target % 2 ^ 64) : LandsAt s t target := by
  change (t.pc.toNat : Int) = target % s.addressModulus / 4 * 4
  rw [hpc, wordAligned_toNat]
  push_cast
  rw [truncate_toNat_emod, ha, Int.emod_emod_of_dvd _ (addressModulus_dvd s)]

theorem toNat_emod_two_pow (a : Addr) : (a.toNat : Int) = (a.toNat : Int) % 2 ^ 64 :=
  (Int.emod_eq_of_lt (Int.natCast_nonneg _) (by exact_mod_cast a.isLt)).symm

/-- The target of a branch is the displacement, or its sum with the address of the branch (R152, R155). -/
theorem target_toNat (s : State) (aa : Bool) (d : DWord) :
    ((s.target aa d).toNat : Int) = ((if aa then 0 else (s.pc.toNat : Int)) + d.toInt) % 2 ^ 64 := by
  cases aa
  · exact toNat_add_toInt s.pc d
  · simpa [State.target] using toNat_add_toInt 0 d

theorem toInt_liImm (li : BitVec 24) : (liImm li).toInt = 4 * li.toInt := toInt_signExtend_append_zero li (by decide)

theorem toInt_bdImm (bd : BitVec 14) : (bdImm bd).toInt = 4 * bd.toInt := toInt_signExtend_append_zero bd (by decide)

/-- Settles O25: the next state is the landing after the link. -/
theorem branchLands : Obligations.BranchLands := by
  intro li aa lk s
  refine ⟨(s.linkIf lk).branchTo (s.target aa (liImm li)), rfl, ?_, fun hlk => ?_, (frame_linkIf s lk).branchTo _⟩
  · refine landsAt_of_pc (a := s.target aa (liImm li)) ?_ ?_
    · rw [branchTo_pc, truncate_of_msr (linkIf_msr s lk)]
    · rw [target_toNat, toInt_liImm]
  · rw [branchTo_lr, linkIf_lr, if_pos hlk]

/-! ### The tests of BO -/

/-- The count tested is all of CTR, or its low-order word in 32-bit mode (R154). -/
theorem ctrNonzero_iff (s : State) (c : DWord) :
    s.ctrNonzero c = true ↔ c.toNat % (if s.sf then 2 ^ 64 else 2 ^ 32) ≠ 0 := by
  unfold State.ctrNonzero
  cases s.sf
  · simp [lowWord_eq_setWidth, BitVec.toNat_eq]
  · simp [BitVec.toNat_eq, Nat.mod_eq_of_lt c.isLt]

theorem ctrAfter_eq_ite (s : State) (bo : BitVec 5) : s.ctrAfter bo = if bo.getLsbD 2 then s.ctr else s.ctr - 1 := by
  rw [State.ctrAfter, boDecrements]
  cases bo.getLsbD 2 <;> rfl

theorem ctrOk_iff (s : State) (bo : BitVec 5) :
    s.ctrOk bo = true ↔ bo.getLsbD 2 = true ∨
      ((s.ctrAfter bo).toNat % (if s.sf then 2 ^ 64 else 2 ^ 32) ≠ 0 ↔ bo.getLsbD 1 = false) := by
  rw [← ctrNonzero_iff, State.ctrOk, boDecrements]
  cases bo.getLsbD 1 <;> simp

theorem condOk_iff (s : State) (bo : BitVec 5) (bi : CrBitNum) :
    s.condOk bo bi = true ↔ bo.getLsbD 4 = true ∨ s.crBit bi = bo.getLsbD 3 := by
  simp [State.condOk]

/-- `BranchCond(BO, BI)` answers whether the two tests hold (R154). -/
theorem branchOk_iff (s : State) (bo : BitVec 5) (bi : CrBitNum) :
    s.branchOk bo bi = true ↔ BranchTaken s bo bi (s.ctrAfter bo) := by
  rw [State.branchOk, Bool.and_eq_true, ctrOk_iff, condOk_iff]

/-! ### Conditional branches -/

section Conditional
variable {s : State} {bo : BitVec 5} {bi : CrBitNum}

theorem landsAt_branchCond {a : Addr} {target : Int} (h : BranchTaken s bo bi (s.ctrAfter bo)) (lk : Bool)
    (ha : (a.toNat : Int) = target % 2 ^ 64) : LandsAt s (s.branchCond bo bi lk a) target :=
  landsAt_of_pc (by rw [branchCond_pc, if_pos ((branchOk_iff s bo bi).mpr h)]) ha

theorem branchCond_pc_of_not_taken (h : ¬ BranchTaken s bo bi (s.ctrAfter bo)) (lk : Bool) (a : Addr) :
    (s.branchCond bo bi lk a).pc = s.nextPc := by
  rw [branchCond_pc, if_neg fun hok => h ((branchOk_iff s bo bi).mp hok)]

theorem branchCond_lr_of_link {lk : Bool} (h : lk = true) (a : Addr) : (s.branchCond bo bi lk a).lr = s.nextPc := by
  rw [branchCond_lr, if_pos h]

/-- `bcctr` in a valid form is a conditional branch to CTR (R157). -/
theorem exec_bcctr (h : bo.getLsbD 2 = true) (bh : BitVec 2) (lk : Bool) :
    exec (.bcctr bo bi bh lk) s = .next (s.branchCond bo bi lk s.ctr) :=
  if_neg (by simp [boDecrements, h])

end Conditional

/-- Settles O26: each of the three forms is a conditional branch to its target as it stood before. -/
theorem conditionalBranches : Obligations.ConditionalBranches := by
  intro bo bi lk s i target hi
  obtain ⟨a, hexec, ha⟩ : ∃ a, exec i s = .next (s.branchCond bo bi lk a) ∧ (a.toNat : Int) = target % 2 ^ 64 := by
    rcases hi with ⟨bd, aa, rfl, rfl⟩ | ⟨bh, rfl, rfl⟩ | ⟨bh, rfl, rfl⟩
    · exact ⟨s.target aa (bdImm bd), rfl, by rw [target_toNat, toInt_bdImm]⟩
    · exact ⟨s.lr, rfl, toNat_emod_two_pow s.lr⟩
    · exact ⟨s.tar, rfl, toNat_emod_two_pow s.tar⟩
  refine ⟨_, hexec, (branchCond_ctr ..).trans (ctrAfter_eq_ite s bo), fun hlk => branchCond_lr_of_link hlk a,
    ?_, ?_, frame_branchCond s bo bi lk a⟩ <;> rw [branchCond_ctr]
  · exact fun h => landsAt_branchCond h lk ha
  · exact fun h => branchCond_pc_of_not_taken h lk a

/-- Settles O27: with no count to test, the branch is taken on the Condition Register alone. -/
theorem countRegisterBranches : Obligations.CountRegisterBranches := by
  intro bo bi bh lk s hbo
  refine ⟨_, exec_bcctr hbo bh lk, fun hlk => branchCond_lr_of_link hlk s.ctr, fun hcond => ?_, fun halways hcond => ?_,
    frame_branchCond_of_not_decrements s bo bi lk s.ctr (by simp [boDecrements, hbo])⟩
  · exact landsAt_branchCond ⟨.inl hbo, hcond⟩ lk (toNat_emod_two_pow s.ctr)
  · refine branchCond_pc_of_not_taken (fun htaken => ?_) lk s.ctr
    exact htaken.2.elim (fun h => nomatch halways.symm.trans h) hcond

/-! ### The table of R153 -/

/-- The rows of R153 as O28 gives them: mask and pattern of BO, the count asked for and the condition asked for. -/
def boTable : List (BitVec 5 × BitVec 5 × Option Bool × Option Bool) :=
  [(0b11110, 0b00000, some true, some false), (0b11110, 0b00010, some false, some false),
    (0b11100, 0b00100, none, some false), (0b11110, 0b01000, some true, some true),
    (0b11110, 0b01010, some false, some true), (0b11100, 0b01100, none, some true),
    (0b10110, 0b10000, some true, none), (0b10110, 0b10010, some false, none), (0b10100, 0b10100, none, none)]

/-- What BO asks of the decremented CTR, if it asks: some true is that it is not zero (R154). -/
def countAsked (bo : BitVec 5) : Option Bool := if bo.getLsbD 2 then none else some (!bo.getLsbD 1)

/-- The value BO asks of the Condition Register bit, if it asks (R154). -/
def conditionAsked (bo : BitVec 5) : Option Bool := if bo.getLsbD 4 then none else some (bo.getLsbD 3)

theorem boTable_partition (bo : BitVec 5) : (boTable.filter fun r => bo &&& r.1 == r.2.1).length = 1 := by
  revert bo
  decide

/-- The row of a BO says what the BO's own bits ask for. -/
theorem asked_of_mem_boTable {r : BitVec 5 × BitVec 5 × Option Bool × Option Bool} (hr : r ∈ boTable) {bo : BitVec 5}
    (h : bo &&& r.1 = r.2.1) : r.2.2.1 = countAsked bo ∧ r.2.2.2 = conditionAsked bo := by
  revert r
  revert bo
  decide

section Asked
variable (s : State) (bo : BitVec 5) (bi : CrBitNum)

/-- The decremented CTR is as BO asks. -/
abbrev CountMet : Prop :=
  ∀ z, countAsked bo = some z → (z = true ↔ (s.ctr - 1).toNat % (if s.sf then 2 ^ 64 else 2 ^ 32) ≠ 0)

/-- The Condition Register bit is as BO asks. -/
abbrev ConditionMet : Prop := ∀ c, conditionAsked bo = some c → s.crBit bi = c

theorem countMet_iff :
    CountMet s bo ↔ bo.getLsbD 2 = true ∨
      ((s.ctrAfter bo).toNat % (if s.sf then 2 ^ 64 else 2 ^ 32) ≠ 0 ↔ bo.getLsbD 1 = false) := by
  rw [ctrAfter_eq_ite, CountMet, countAsked]
  cases bo.getLsbD 2
  · cases bo.getLsbD 1 <;> simp
  · simp

theorem conditionMet_iff : ConditionMet s bo bi ↔ bo.getLsbD 4 = true ∨ s.crBit bi = bo.getLsbD 3 := by
  rw [ConditionMet, conditionAsked]
  cases bo.getLsbD 4 <;> simp

/-- A conditional branch is taken when what its BO asks for is met. -/
theorem branchTaken_iff_met : BranchTaken s bo bi (s.ctrAfter bo) ↔ CountMet s bo ∧ ConditionMet s bo bi :=
  and_congr (countMet_iff s bo).symm (conditionMet_iff s bo bi).symm

end Asked

/-- Settles O28: a row asks what its BOs ask, and `bclr` is taken when that is met. -/
theorem branchOptionTable : Obligations.BranchOptionTable := by
  intro rows hrows
  obtain rfl : rows = boTable := hrows
  refine ⟨boTable_partition, fun r hr bo bi bh lk s t hrow hexec => ?_⟩
  cases hexec
  obtain ⟨hcount, hcondition⟩ := asked_of_mem_boTable hr hrow
  rw [hcount, hcondition]
  refine ⟨fun hmet => ?_, fun hfails => ?_⟩
  · exact landsAt_branchCond ((branchTaken_iff_met s bo bi).mpr hmet) lk (toNat_emod_two_pow s.lr)
  · refine branchCond_pc_of_not_taken (fun htaken => ?_) lk s.lr
    obtain ⟨hz, hc⟩ := (branchTaken_iff_met s bo bi).mp htaken
    rcases hfails with ⟨z, hasked, hunmet⟩ | ⟨c, hasked, hunmet⟩
    · exact hunmet (hz z hasked)
    · exact hunmet (hc c hasked)

end Sys2Proof.Machine
end

section
/-!
The compares (O29, O30): a field shows how two numbers stand in their order (R26, R170), and the operands compared are the
numbers that L selects.
-/
namespace Sys2Proof.Machine

/-- A comparison that follows the order of two numbers leaves LT, GT and EQ as that order has them: EQ is where neither of the
others holds. -/
theorem fieldIs_setCompare {α : Type} [LinearOrder α] (s : State) (f : CrFieldNum) {a b : α} {lt gt : Bool}
    (hlt : lt = decide (a < b)) (hgt : gt = decide (b < a)) :
    FieldIs (s.setCompare f lt gt) f (decide (a < b)) (decide (b < a)) (decide (a = b)) s.xerSO := by
  obtain ⟨hfst, hsnd, hthird, hso⟩ := fieldIs_of_crField (crField_setCrField_self s f (compareField lt gt s.xerSO))
  subst hlt hgt
  refine ⟨hfst, hsnd.trans ?_, hthird.trans ?_, hso⟩ <;> simp only [← decide_not, ← Bool.decide_and, decide_eq_decide]
  · exact ⟨And.right, fun h => ⟨h.asymm, h⟩⟩
  · rw [not_lt, not_lt, and_comm, le_antisymm_iff]

/-! ### Operands as numbers -/

theorem toInt_sextImm (si : BitVec 16) : (sextImm si).toInt = si.toInt := BitVec.toInt_signExtend_of_le (by decide)

theorem toNat_zextImm (ui : BitVec 16) : (zextImm ui).toNat = ui.toNat := BitVec.toNat_setWidth_of_le (by decide)

theorem toInt_signedOperand (l : Bool) (v : DWord) : (signedOperand l v).toInt = signedView l v := by
  cases l
  · exact (BitVec.toInt_signExtend_of_le (by decide)).trans (congrArg BitVec.toInt (lowWord_eq_setWidth v))
  · rfl

theorem toNat_unsignedOperand (l : Bool) (v : DWord) : (unsignedOperand l v).toNat = unsignedView l v := by
  cases l
  · have hlow : ((lowWord v).setWidth 64).toNat = (lowWord v).toNat := BitVec.toNat_setWidth_of_le (by decide)
    exact hlow.trans ((congrArg BitVec.toNat (lowWord_eq_setWidth v)).trans (BitVec.toNat_setWidth 32 v))
  · rfl

/-! ### The instructions -/

/-- An instruction that ends by writing such a comparison completes, and the field alone changes. -/
theorem completes_of_setCompare {α : Type} [LinearOrder α] {i : Instr} {s : State} {bf : CrFieldNum} {a b : α} {lt gt : Bool}
    (hexec : exec i s = .next (s.setCompare bf lt gt).advance) (hlt : lt = decide (a < b)) (hgt : gt = decide (b < a)) :
    ∃ t, exec i s = .next t ∧ t.pc = s.nextPc ∧ Frame s t [] (fieldBits bf) [] [] ∧
      FieldIs t bf (decide (a < b)) (decide (b < a)) (decide (a = b)) (s.xer.getLsbD 31) := by
  refine ⟨_, hexec, setCompare_nextPc s bf lt gt, (frame_setCompare s bf lt gt).advance, ?_⟩
  simp only [FieldIs, advance_crBit]
  exact fieldIs_setCompare s bf hlt hgt

/-- Settles O29: either form compares two doublewords as signed numbers, and these are the numbers of its operands. -/
theorem signedCompares : Obligations.SignedCompares := by
  intro bf l ra s i b hi
  rw [← toInt_signedOperand]
  rcases hi with ⟨si, rfl, rfl⟩ | ⟨rb, rfl, rfl⟩
  · rw [← toInt_sextImm]
    exact completes_of_setCompare rfl rfl rfl
  · rw [← toInt_signedOperand]
    exact completes_of_setCompare rfl rfl rfl

/-- Settles O30: either form compares two doublewords as natural numbers, and these are the numbers of its operands. -/
theorem unsignedCompares : Obligations.UnsignedCompares := by
  intro bf l ra s i b hi
  rw [← toNat_unsignedOperand]
  rcases hi with ⟨ui, rfl, rfl⟩ | ⟨rb, rfl, rfl⟩
  · rw [← toNat_zextImm]
    exact completes_of_setCompare rfl rfl rfl
  · rw [← toNat_unsignedOperand]
    exact completes_of_setCompare rfl rfl rfl

end Sys2Proof.Machine
end

section
/-!
The trap instruction (O53): the five conditions of R251 as the order of two numbers, and what a raise of Trap is under either
TRAP_MODE.
-/
namespace Sys2Proof.Machine

/-- The unsigned number of a doubleword is its signed number modulo 2^64. -/
theorem toInt_emod_two_pow (v : DWord) : v.toInt % 2 ^ 64 = v.toNat := by
  simpa using (toNat_add_toInt 0 v).symm

/-- The unsigned order of two doublewords is the order of their signed numbers modulo 2^64. -/
theorem ult_iff_toInt_emod_lt (v w : DWord) : v.ult w = true ↔ v.toInt % 2 ^ 64 < w.toInt % 2 ^ 64 := by
  rw [toInt_emod_two_pow, toInt_emod_two_pow, Int.ofNat_lt, BitVec.ult_iff_toNat_lt]

/-- A condition that TO selects holds, by the signed numbers of the two doublewords alone (R251). -/
theorem trapCondition_iff (trapOn : BitVec 5) (v w : DWord) :
    trapCondition trapOn v w = true ↔
      (trapOn.getLsbD 4 = true ∧ v.toInt < w.toInt) ∨ (trapOn.getLsbD 3 = true ∧ w.toInt < v.toInt) ∨
      (trapOn.getLsbD 2 = true ∧ v.toInt = w.toInt) ∨ (trapOn.getLsbD 1 = true ∧ v.toInt % 2 ^ 64 < w.toInt % 2 ^ 64) ∨
      (trapOn.getLsbD 0 = true ∧ w.toInt % 2 ^ 64 < v.toInt % 2 ^ 64) := by
  simp only [trapCondition, Bool.or_eq_true, Bool.and_eq_true, beq_iff_eq, BitVec.slt_iff_toInt_lt, BitVec.toInt_inj,
    ult_iff_toInt_emod_lt, or_assoc]

theorem raiseTrap_of_environment {s : State} (h : s.params.trapMode = .environment) : s.raiseTrap = .fault (.trap s.pc) := by
  rw [State.raiseTrap, h]

section Twi
variable {trapOn : BitVec 5} {ra : RegNum} {si : BitVec 16} {s : State}

theorem exec_twi_of_trapCondition (h : trapCondition trapOn (signedOperand false (s.x ra)) (sextImm si) = true) :
    exec (.twi trapOn ra si) s = s.raiseTrap :=
  if_pos h

theorem exec_twi_of_not_trapCondition (h : ¬ trapCondition trapOn (signedOperand false (s.x ra)) (sextImm si) = true) :
    exec (.twi trapOn ra si) s = .next s.advance :=
  if_neg h

end Twi

/-- Settles O53: the condition tested is the one on the numbers of the operands, and a trap is what TRAP_MODE makes of it. -/
theorem trapWordImmediate : Obligations.TrapWordImmediate := by
  rintro trapOn ra si s a b met rfl rfl hmet
  have hcond : met ↔ trapCondition trapOn (signedOperand false (s.x ra)) (sextImm si) = true := by
    rw [trapCondition_iff, toInt_signedOperand, toInt_sextImm]
    exact hmet
  rw [hcond]
  refine ⟨fun hunmet => ?_, fun hholds henv => ?_, fun hholds harch => ?_⟩
  · exact ⟨s.advance, exec_twi_of_not_trapCondition hunmet, rfl, frame_advance s⟩
  · exact (exec_twi_of_trapCondition hholds).trans (raiseTrap_of_environment henv)
  · refine ⟨s.interrupt programVector s.pc (fieldMask 17 17), ?_, interrupted_program s (by decide)⟩
    exact (exec_twi_of_trapCondition hholds).trans ((raiseTrap_eq_next_iff s _).mpr ⟨harch, rfl⟩)

end Sys2Proof.Machine
end

section
/-!
`setvl` (O60): named by the source and given neither a meaning nor an encoding (R114, R256), so handed by name it is refused,
and the decoder, which answers well-formed instructions alone, never answers it.
-/
namespace Sys2Proof.Machine

/-- The refusal depends on no mode, register or storage check; it names the address of the instruction (R256). -/
theorem exec_setvl (s : State) : exec .setvl s = .refused (.setvlNotSpecified s.pc) := rfl

theorem setvl_not_wellFormed : ¬ Instr.WellFormed .setvl := Bool.false_ne_true

theorem not_standsFor_setvl (w : IWord) : ¬ StandsFor w .setvl := fun ⟨hwf, _⟩ => setvl_not_wellFormed hwf

/-- Settles O60: the meaning of `setvl` is its refusal, and a word that decoded to it would stand for it. -/
theorem setvlStops : Obligations.SetvlStops :=
  ⟨exec_setvl, fun w hdecode => not_standsFor_setvl w (standsFor_of_decode hdecode)⟩

end Sys2Proof.Machine
end

section
/-!
The checks of the system instructions: the SPR number before the privilege state (O56), the MSR that `mtmsr` writes bit by bit
(O58), and the TLB instructions, which stop in either state (O59). A raise of PrivilegedInstruction is described once for both.
-/
namespace Sys2Proof.Machine

theorem raisePrivileged_of_environment {s : State} (h : s.params.trapMode = .environment) :
    s.raisePrivileged = .fault (.privilegedInstruction s.pc) := by
  rw [State.raisePrivileged, h]

/-- What an outcome that is a raise of PrivilegedInstruction is under either TRAP_MODE (R305, R306, R310). -/
theorem outcomes_of_raisePrivileged {o : Out} {s : State} (ho : o = s.raisePrivileged) :
    (s.params.trapMode = .environment → o = .fault (.privilegedInstruction s.pc)) ∧
      (s.params.trapMode = .architected →
        ∃ t, o = .next t ∧ Interrupted s t 0x700 s.pc (fun k => k = 18) false) := by
  subst ho
  constructor
  · exact raisePrivileged_of_environment
  · intro harch
    exact ⟨s.interrupt programVector s.pc (fieldMask 18 18), (raisePrivileged_eq_next_iff s _).mpr ⟨harch, rfl⟩,
      interrupted_program s (by decide)⟩

/-! ### The check of an SPR number -/

/-- The numbers of the six registers are those R40 lists. -/
theorem sprNumber_toNat_mem (r : Spr) : (sprNumber r).toNat ∈ [1, 8, 9, 26, 27, 815] := by cases r <;> decide

theorem sprOf_eq_none {n : BitVec 10} (h : n.toNat ∉ [1, 8, 9, 26, 27, 815]) : sprOf n = none := by
  refine Option.eq_none_iff_forall_ne_some.mpr fun r hr => h ?_
  rw [(sprOf_eq_some_iff n r).mp hr]
  exact sprNumber_toNat_mem r

/-- An undefined number is refused before the privilege state is looked at (R264). -/
theorem withSpr_of_undefined {s : State} {n : BitVec 10} (k : Spr → Out) (hn : sprOf n = none) :
    s.withSpr n k = .refused (.undefinedSpr s.pc) := by
  simp only [State.withSpr, hn]

/-- Numbers 26 and 27 name registers confined to privileged state (R40, R321). -/
theorem exists_privileged_of_number {n : BitVec 10} (h : n.toNat ∈ [26, 27]) :
    ∃ r, sprOf n = some r ∧ sprPrivileged r = true := by
  have hcases : n.toNat = (sprNumber .srr0).toNat ∨ n.toNat = (sprNumber .srr1).toNat := by
    simpa [sprNumber] using h
  obtain h26 | h27 := hcases
  · exact ⟨.srr0, (sprOf_eq_some_iff n _).mpr (BitVec.eq_of_toNat_eq h26), rfl⟩
  · exact ⟨.srr1, (sprOf_eq_some_iff n _).mpr (BitVec.eq_of_toNat_eq h27), rfl⟩

/-- A move to or from an SPR is the check of its number, then the move itself (R262, R263). -/
theorem exec_move_eq_withSpr {i : Instr} {x : RegNum} {n : BitVec 10} (hi : i = .mtspr x n ∨ i = .mfspr x n) (s : State) :
    ∃ k, exec i s = s.withSpr n k := by
  obtain rfl | rfl := hi
  · exact ⟨_, rfl⟩
  · exact ⟨_, rfl⟩

/-- Settles O56: both moves begin with the same check, which looks at the number first. -/
theorem sprNumberChecked : Obligations.SprNumberChecked := by
  intro n x s i hi
  obtain ⟨k, hexec⟩ := exec_move_eq_withSpr hi s
  constructor
  · intro hundefined
    exact hexec.trans (withSpr_of_undefined k (sprOf_eq_none hundefined))
  · intro hnumber hproblem
    obtain ⟨r, hn, hp⟩ := exists_privileged_of_number hnumber
    exact outcomes_of_raisePrivileged (hexec.trans (withSpr_of_privileged k hn hp hproblem))

/-! ### Move to the MSR -/

/-- The MSR that `mtmsr` with L = 1 writes, bit by bit (R267). -/
theorem getLsbD_mtmsrEeRi (msr v : DWord) {k : Nat} (hk : k < 64) :
    (mtmsrEeRi msr v).getLsbD k = if k = 15 ∨ k = 1 then v.getLsbD k else msr.getLsbD k := by
  rw [mtmsrEeRi, getLsbD_setBit _ _ _ (by decide) hk, getLsbD_setBit _ _ _ (by decide) hk]
  obtain rfl | hri := eq_or_ne k 1
  · rfl
  obtain rfl | hee := eq_or_ne k 15
  · rfl
  simp only [hri, hee, if_false, or_self]

/-- The MSR that `mtmsr` with L = 0 writes, bit by bit: the copied fields, the bits PR sets as well, the rest (R267). -/
theorem getLsbD_mtmsrAll (msr v : DWord) {k : Nat} (hk : k < 64) :
    (mtmsrAll msr v).getLsbD k =
      if (23 ≤ k ∧ k ≤ 31) ∨ (16 ≤ k ∧ k ≤ 21) ∨ (13 ≤ k ∧ k ≤ 14) ∨ (6 ≤ k ∧ k ≤ 11) ∨ (1 ≤ k ∧ k ≤ 3) then v.getLsbD k
      else if k = 15 ∨ k = 5 ∨ k = 4 then (v.getLsbD k || v.getLsbD 14)
      else msr.getLsbD k := by
  have hset : ∀ {j : Nat} (x : Bool) (w : DWord), j < 64 → (setBit j x w).getLsbD k = if k = j then x else w.getLsbD k :=
    fun x w hj => getLsbD_setBit x w k hj hk
  have hcopy : ∀ {hi lo : Nat} (w : DWord), hi < 64 →
      (copyField hi lo v w).getLsbD k = if lo ≤ k ∧ k ≤ hi then v.getLsbD k else w.getLsbD k :=
    fun w hhi => getLsbD_copyField _ v w k hhi hk
  simp only [mtmsrAll, hset, hcopy, Nat.reduceLT]
  by_cases hor : k = 15 ∨ k = 5 ∨ k = 4
  · obtain rfl | rfl | rfl := hor <;> rfl
  · obtain ⟨hee, hir, hdr⟩ := not_or.mp hor |>.imp_right not_or.mp
    simp only [hee, hir, hdr, if_false, or_self, ← ite_or]
    exact if_congr (by omega) rfl rfl

/-- Settles O58: in privileged state `mtmsr` writes its result to the MSR and goes on; the result is read bit by bit. -/
theorem moveToMsr : Obligations.MoveToMsr := by
  intro rs l s hpr
  refine ⟨_, exec_mtmsr_of_privileged rs l hpr, (registersOnly_mtmsr s l (s.x rs)).nextPc, (untouched_setMsr s _).advance,
    fun k hk => ?_⟩
  cases l
  · exact getLsbD_mtmsrAll s.msr (s.x rs) hk
  · exact getLsbD_mtmsrEeRi s.msr (s.x rs) hk

/-! ### The TLB instructions -/

/-- The one meaning of the three TLB instructions (R271 to R273). -/
def tlbOutcome (s : State) : Out := if s.privileged then .refused (.noTlb s.pc) else s.raisePrivileged

theorem tlbOutcome_of_privileged {s : State} (hpr : s.pr = false) : tlbOutcome s = .refused (.noTlb s.pc) := by
  simp only [tlbOutcome, State.privileged, hpr, Bool.not_false, if_true]

theorem tlbOutcome_of_problem {s : State} (hpr : s.pr = true) : tlbOutcome s = s.raisePrivileged := by
  simp only [tlbOutcome, State.privileged, hpr, Bool.not_true, Bool.false_eq_true, if_false]

/-- Each of the three instructions has that meaning, whatever its operands. -/
theorem exec_eq_tlbOutcome {rs rb : RegNum} {ric : BitVec 2} {prs r : Bool} {i : Instr}
    (hi : i = .tlbie rs ric prs r rb ∨ i = .tlbiel rs ric prs r rb ∨ i = .tlbsync) (s : State) :
    exec i s = tlbOutcome s := by
  obtain rfl | rfl | rfl := hi <;> rfl

/-- Settles O59: the shared meaning refuses in privileged state and raises PrivilegedInstruction in problem state. -/
theorem tlbInstructionsStop : Obligations.TlbInstructionsStop := by
  intro rs rb ric prs r i s hi
  rw [exec_eq_tlbOutcome hi s]
  refine ⟨tlbOutcome_of_privileged, ?_⟩
  rw [← forall_and]
  exact fun hproblem => outcomes_of_raisePrivileged (tlbOutcome_of_problem hproblem)

end Sys2Proof.Machine
end

section
/-!
The string load `lswi` (O42): the packed words of the bytes read, written to the registers from RT on; the numbers wrap past 31
and do not come round again, and the last word is filled with zeros where the string has ended.
-/
namespace Sys2Proof.Machine

theorem nbCount_le (nb : BitVec 5) : nbCount nb ≤ 32 := by
  unfold nbCount
  split
  · exact le_rfl
  · exact nb.isLt.le

/-- A string fills at most the 32 registers there are, so it never writes one twice. -/
theorem stringRegs_nbCount_le (nb : BitVec 5) : stringRegs (nbCount nb) ≤ 32 := by
  have := nbCount_le nb
  unfold stringRegs
  omega

theorem lt_stringRegs_iff (k n : Nat) : k < stringRegs n ↔ 4 * k < n := by
  unfold stringRegs
  omega

/-- A word packed past the end of the string has zeros there (R286). -/
theorem byteOf_packWord_string {bs : List Byte} {n : Nat} (hl : bs.length = n) (k : Nat) {j : Nat} (hj : j < 4) :
    byteOf (packWord bs k) (3 - j) = if 4 * k + j < n then bs.getD (4 * k + j) 0 else 0 := by
  rw [byteOf_packWord bs k hj]
  split
  next => rfl
  next hend => exact List.getD_eq_default _ _ (by omega)

/-- Settles O42: the next state holds the packed words of the string, each in its register. -/
theorem loadString : Obligations.LoadString := by
  intro rt ra nb s a bs n hn hform ha hp hread
  obtain rfl : n = nbCount nb := hn
  have hl : bs.length = nbCount nb := by
    cases ha
    exact (readAll_length hread).trans (span_length ..)
  refine ⟨_, (exec_lswi_eq_load hform ha).trans (load_of_permitted hp hread _),
    nextPc_of_msr_pc (setWords_msr ..) (setWords_pc ..), (frame_setWords ..).advance, fun k hk => ?_⟩
  rw [advance_x, setWords_x s rt _ bs (stringRegs_nbCount_le nb) ((lt_stringRegs_iff k _).mpr hk)]
  exact ⟨packWord_toNat_lt bs k, fun j hj => byteOf_packWord_string hl k hj⟩

end Sys2Proof.Machine
end

section
/-!
Privilege: a step taken in problem state (O15), and what an instruction does outside and inside the privilege state it needs
(O52).
-/
namespace Sys2Proof.Machine

/-! ### Problem state -/

/-- In problem state the MSR, SRR0 and SRR1 have no writer but an interrupt: `mtmsr` and the `mtspr` of SRR0 or SRR1 need
privileged state (R306, R320, R321). -/
theorem kept_or_takesInterrupt_of_problem {i : Instr} {s t : State} (hpr : s.pr = true) (h : exec i s = .next t) :
    (t.msr = s.msr ∧ t.srr0 = s.srr0 ∧ t.srr1 = s.srr1) ∨ TakesInterrupt i s t := by
  rw [or_iff_not_imp_right]
  intro hnot
  have hproblem : s.pr ≠ false := ne_of_eq_of_ne hpr Bool.noConfusion
  have hspr : ∀ r, sprPrivileged r = true → t.spr r = s.spr r := by
    refine fun r hp => by_contra fun hne => ?_
    obtain ⟨hfalse, -⟩ | htaken := mtspr_or_takesInterrupt_of_spr_ne h hp hne
    · exact hproblem hfalse
    · exact hnot htaken
  refine ⟨?_, hspr .srr0 rfl, hspr .srr1 rfl⟩
  obtain hmsr | ⟨hfalse, -⟩ | htaken := msr_of_exec h
  · exact hmsr
  · exact absurd hfalse hproblem
  · exact absurd htaken hnot

/-- What every interrupt keeps, and the bits of the MSR that it saves in SRR1 (R306). -/
theorem TakesInterrupt.untouched_srr1 {i : Instr} {s t : State} (h : TakesInterrupt i s t) :
    Untouched s t [] [] [.srr0, .srr1] [] ∧
      ∀ k, k < 64 → ¬ ((27 ≤ k ∧ k ≤ 30) ∨ (16 ≤ k ∧ k ≤ 21)) → t.srr1.getLsbD k = s.msr.getLsbD k := by
  cases h with
  | trap _ _ _ _ _ entry | systemCall _ _ _ entry | privilege _ _ entry =>
    exact ⟨entry.rest, fun k hk hinfo => (entry.srr1 k hk).trans (if_neg hinfo)⟩

/-- Settles O15: a step that goes on performs an instruction, which in problem state writes none of the three registers or
takes its interrupt. -/
theorem problemStateConfined : Obligations.ProblemStateConfined := by
  intro s t hpr h
  obtain ⟨w, i, -, -, hexec⟩ := (step_eq_next_iff s t).mp h
  refine (kept_or_takesInterrupt_of_problem hpr hexec).imp_right fun htaken => ?_
  obtain ⟨hmode, hhandler⟩ := htaken.handlerModes
  exact ⟨hmode, hhandler.vector, hhandler.pr, htaken.untouched_srr1⟩

/-! ### Outside its privilege state an instruction only raises -/

theorem exec_lbzcix_of_not_hypervisor {s : State} {rt ra rb : RegNum} (h : ¬ (s.hv = true ∧ s.pr = false)) :
    exec (.lbzcix rt ra rb) s = s.raisePrivileged := by
  have hnot : ¬ s.hypervisor = true := by simpa [State.hypervisor] using h
  exact if_neg hnot

/-- A move to or from SRR0 or SRR1 in problem state raises PrivilegedInstruction (R264, R321). -/
theorem exec_move_of_problem {i : Instr} {x : RegNum} {n : BitVec 10} {s : State}
    (hi : i = .mtspr x n ∨ i = .mfspr x n) (h : (n = 26 ∨ n = 27) ∧ s.pr = true) : exec i s = s.raisePrivileged := by
  obtain ⟨hnumber, hpr⟩ := h
  have hmem : n.toNat ∈ [26, 27] := by rcases hnumber with rfl | rfl <;> decide
  obtain ⟨k, hexec⟩ := exec_move_eq_withSpr hi s
  obtain ⟨r, hn, hp⟩ := exists_privileged_of_number hmem
  exact hexec.trans (withSpr_of_privileged k hn hp hpr)

theorem exec_of_lacksPrivilege {i : Instr} {s : State} (h : LacksPrivilege i s) : exec i s = s.raisePrivileged := by
  cases i with
  | lbzcix => exact exec_lbzcix_of_not_hypervisor h
  | mtmsr rs l => exact exec_mtmsr_of_problem rs l h
  | tlbie | tlbiel | tlbsync => exact tlbOutcome_of_problem h
  | mtspr => exact exec_move_of_problem (.inl rfl) h
  | mfspr => exact exec_move_of_problem (.inr rfl) h
  | _ => cases h

/-! ### Inside it no instruction raises PrivilegedInstruction -/

section NoRaise

variable {i : Instr} {s : State} {pc : Addr}

theorem next_ne_privilegedInstruction {t : State} : (.next t : Out) ≠ .fault (.privilegedInstruction pc) := nofun

theorem refused_ne_privilegedInstruction {r : Refusal} : (.refused r : Out) ≠ .fault (.privilegedInstruction pc) := nofun

theorem ite_ne_privilegedInstruction {c : Prop} [Decidable c] {o o' : Out} (ho : o ≠ .fault (.privilegedInstruction pc))
    (ho' : o' ≠ .fault (.privilegedInstruction pc)) : (if c then o else o') ≠ .fault (.privilegedInstruction pc) := by
  split
  · exact ho
  · exact ho'

theorem raiseTrap_ne_privilegedInstruction : s.raiseTrap ≠ .fault (.privilegedInstruction pc) := by
  unfold State.raiseTrap
  split <;> nofun

theorem raiseSystemCall_ne_privilegedInstruction {lev : BitVec 7} :
    s.raiseSystemCall lev ≠ .fault (.privilegedInstruction pc) := by
  unfold State.raiseSystemCall
  split <;> nofun

/-- None of the checks of R81 is one of privilege. -/
theorem accessStop_ne_privilegedInstruction {dir : Access} {ea : Addr} {aligned : Bool} {addrs : List Nat} {e : Stop}
    (h : s.accessStop dir ea aligned addrs = some e) : stopOut e ≠ .fault (.privilegedInstruction pc) := by
  unfold State.accessStop at h
  split_ifs at h <;> cases h <;> nofun

theorem Performs.ne_privilegedInstruction {a : DataAccess} (h : Performs i s a) :
    exec i s ≠ .fault (.privilegedInstruction pc) := by
  cases hstop : s.accessStop a.dir a.ea (a.aligned s) a.bytes with
  | some e =>
    rw [h.exec_of_accessStop hstop]
    exact accessStop_ne_privilegedInstruction hstop
  | none =>
    have hp : a.permitted s := (a.permitted_iff s).mpr ((accessStop_eq_none_iff ..).mp hstop)
    by_cases hread : a.dir = .load → ∃ bs, s.mem.readAll a.bytes = some bs
    · obtain ⟨t, ht⟩ := h.exec_of_permitted hp hread
      exact ne_of_eq_of_ne ht next_ne_privilegedInstruction
    · obtain ⟨hdir, hnone⟩ := Classical.not_imp.mp hread
      have hunwritten := Option.eq_none_iff_forall_ne_some.mpr (not_exists.mp hnone)
      exact ne_of_eq_of_ne (h.exec_of_unwritten hp hdir hunwritten) refused_ne_privilegedInstruction

/-- A storage instruction in its privilege state is refused for its form or performs its access. -/
theorem exec_ne_privilegedInstruction_of_dataAccess {a : DataAccess} (ha : dataAccess i s = some a)
    (hpriv : ¬ LacksPrivilege i s) : exec i s ≠ .fault (.privilegedInstruction pc) := by
  by_cases hform : InvalidForm i
  · exact ne_of_eq_of_ne ((invalidFormsRefused i s).mpr hform) refused_ne_privilegedInstruction
  · exact (performs_of_dataAccess ha hpriv hform).ne_privilegedInstruction

/-- A move whose register the privilege state permits is refused for its number or reaches the register (R264). -/
theorem withSpr_ne_privilegedInstruction {n : BitVec 10} {k : Spr → Out}
    (hpriv : ¬ ((n = 26 ∨ n = 27) ∧ s.pr = true)) (hk : ∀ r, k r ≠ .fault (.privilegedInstruction pc)) :
    s.withSpr n k ≠ .fault (.privilegedInstruction pc) := by
  cases hn : sprOf n with
  | none => exact ne_of_eq_of_ne (withSpr_of_undefined k hn) refused_ne_privilegedInstruction
  | some r =>
    have hpermitted : sprPrivileged r = true → s.pr = false := fun hp =>
      Bool.eq_false_iff.mpr fun hpr => hpriv ⟨number_of_sprPrivileged hn hp, hpr⟩
    exact ne_of_eq_of_ne (withSpr_of_permitted k hn hpermitted) (hk r)

theorem exec_ne_privilegedInstruction (hpriv : ¬ LacksPrivilege i s) : exec i s ≠ .fault (.privilegedInstruction pc) := by
  cases i with
  | lbzcix | lbz | lq | lhbrx | lwbrx | ldbrx | lmw | lswi | stb | std | stq | sthbrx | stwbrx | stdbrx | stmw | dcbz =>
    exact exec_ne_privilegedInstruction_of_dataAccess rfl hpriv
  | mtspr | mfspr => exact withSpr_ne_privilegedInstruction hpriv fun _ => next_ne_privilegedInstruction
  | mtmsr rs l =>
    have hpr : s.pr = false := Bool.eq_false_iff.mpr hpriv
    exact ne_of_eq_of_ne (exec_mtmsr_of_privileged rs l hpr) next_ne_privilegedInstruction
  | tlbie | tlbiel | tlbsync =>
    have hpr : s.pr = false := Bool.eq_false_iff.mpr hpriv
    exact ne_of_eq_of_ne (tlbOutcome_of_privileged hpr) refused_ne_privilegedInstruction
  | twi => exact ite_ne_privilegedInstruction raiseTrap_ne_privilegedInstruction next_ne_privilegedInstruction
  | sc => exact raiseSystemCall_ne_privilegedInstruction
  | cbcdtd => exact ite_ne_privilegedInstruction next_ne_privilegedInstruction refused_ne_privilegedInstruction
  | bcctr => exact ite_ne_privilegedInstruction refused_ne_privilegedInstruction next_ne_privilegedInstruction
  | setvl => exact refused_ne_privilegedInstruction
  | cdtbcd | addg6s | addi | andiRc | andisRc | rlwinm | slw | crand | mcrxrx | cmpi | cmp | cmpli | cmpl | b | bc | bclr
  | bctar => exact next_ne_privilegedInstruction

end NoRaise

/-- Settles O52: an instruction that lacks privilege is a raise of PrivilegedInstruction, and no other one raises it. -/
theorem privilegeChecked : Obligations.PrivilegeChecked := by
  intro i s
  refine ⟨fun hlacks => ?_, fun henv => ⟨?_, fun hlacks => ?_⟩⟩
  · obtain ⟨-, hinterrupt⟩ := outcomes_of_raisePrivileged (exec_of_lacksPrivilege hlacks)
    exact hinterrupt
  · exact not_imp_not.mp exec_ne_privilegedInstruction
  · exact (exec_of_lacksPrivilege hlacks).trans (raisePrivileged_of_environment henv)

end Sys2Proof.Machine
end

section
/-!
The system call (O54): what a raise of SystemCall is under either TRAP_MODE.
-/
namespace Sys2Proof.Machine

theorem raiseSystemCall_of_environment {s : State} (lev : BitVec 7) (h : s.params.trapMode = .environment) :
    s.raiseSystemCall lev = .fault (.systemCall lev s.nextPc) := by
  rw [State.raiseSystemCall, h]

theorem raiseSystemCall_of_architected {s : State} (lev : BitVec 7) (h : s.params.trapMode = .architected) :
    s.raiseSystemCall lev = .next (s.systemCallEntry lev) :=
  (raiseSystemCall_eq_next_iff s _ lev).mpr ⟨h, rfl⟩

/-- `sc` does nothing but raise SystemCall, in every privilege state (R291). -/
theorem exec_sc (lev : BitVec 7) (s : State) : exec (.sc lev) s = s.raiseSystemCall lev := rfl

/-- Settles O54: `sc` is a raise of SystemCall, which ends the run or enters its interrupt. -/
theorem systemCallEnters : Obligations.SystemCallEnters := by
  intro lev s
  rw [exec_sc]
  refine ⟨raiseSystemCall_of_environment lev, fun harch => ?_⟩
  exact ⟨s.systemCallEntry lev, raiseSystemCall_of_architected lev harch, interrupted_systemCallEntry s lev⟩

end Sys2Proof.Machine
end
